-- ==== Sys2Proof/Word.lean ====
section
/-! DEFINITION. Word.lean: the block's two value widths (spec/00_scope.md R14: unsigned, bit 0 least significant). -/

namespace Sys2Proof

/-- One byte of the bus: an opcode, a payload byte, one colour channel (20_memory.md R66). -/
abbrev Byte := BitVec 8

/-- A 16-bit value: a window bound, an EncodedPixel, a response value. -/
abbrev Word := BitVec 16

end Sys2Proof
end

