-- ==== Sys2Proof/Config.lean ====
section
/-! DEFINITION. Config.lean: the build's parameters (spec/00_scope.md R11, R12), constant while the block runs
(spec/10_state.md R36; spec/90_conflicts.md C2). State carries one as `cfg`, so that a statement about every state is a
statement about every build (log 3). -/

namespace Sys2Proof

/-- An electrical level of a line (10_state.md R44). -/
inductive Level where
  | low
  | high
deriving DecidableEq, Repr

/-- The parameters of 00_scope.md R11, one field each. -/
structure Config where
  /-- `PANEL_W`, OPEN: panel column count, 1..65536. -/
  panelW : Nat
  /-- `PANEL_H`, OPEN: panel row count, 1..65536. -/
  panelH : Nat
  /-- `ORIENT`: memory-access-control payload byte. -/
  orient : Byte
  /-- `PIXFMT_565`: pixel-format payload byte. -/
  pixfmt565 : Byte
  /-- `OP_SWRESET`. -/
  opSwreset : Byte
  /-- `OP_SLPOUT`. -/
  opSlpout : Byte
  /-- `OP_COLMOD`. -/
  opColmod : Byte
  /-- `OP_MADCTL`. -/
  opMadctl : Byte
  /-- `OP_DISPON`. -/
  opDispon : Byte
  /-- `OP_CASET`. -/
  opCaset : Byte
  /-- `OP_RASET`. -/
  opRaset : Byte
  /-- `OP_RAMWR`. -/
  opRamwr : Byte
  /-- `T_RST_LOW`, ms. -/
  tRstLow : Nat
  /-- `T_RST_HIGH`, ms. -/
  tRstHigh : Nat
  /-- `T_SWRESET`, ms. -/
  tSwreset : Nat
  /-- `T_SLPOUT`, ms. -/
  tSlpout : Nat
  /-- `T_DISPON`, ms. -/
  tDispon : Nat
  /-- `DC_CMD_LEVEL`: the electrical level of the control line that means "command". -/
  dcCmdLevel : Level
  /-- `PAL_MAX`: the largest palette length accepted. -/
  palMax : Nat
  /-- `SPI_CLOCK_HZ`, OPEN; no rule reads it. -/
  spiClockHz : Nat
  /-- `SPI_MODE`, OPEN; no rule reads it. -/
  spiMode : Nat
  /-- `PIN_DC`, OPEN; no rule reads it. -/
  pinDc : Nat
  /-- `PIN_RST`, OPEN; no rule reads it. -/
  pinRst : Nat
deriving DecidableEq, Repr

/-- The eight opcode parameters, in the order of 30_encoding.md R95. -/
def Config.opcodes (c : Config) : List Byte :=
  [c.opSwreset, c.opSlpout, c.opColmod, c.opMadctl, c.opDispon, c.opCaset, c.opRaset, c.opRamwr]

/-- No value occurs twice. -/
def distinct : List Byte → Bool
  | [] => true
  | b :: bs => !bs.contains b && distinct bs

/-- 70_reset_and_hazards.md R346: every settle delay is at least the source's literal; a build "may raise a T_* parameter freely". -/
def Config.meetsMinimums (c : Config) : Bool :=
  decide (100 ≤ c.tRstLow) && decide (100 ≤ c.tRstHigh) && decide (150 ≤ c.tSwreset)
    && decide (255 ≤ c.tSlpout) && decide (100 ≤ c.tDispon)

/-- The builds the model takes. 00_scope.md R12: the opcodes are pairwise distinct and the panel's sides lie in 1..65536; a configuration
that breaks this "is ill-formed and the model refuses it". 93_implementation_defined.md I4: one whose wait is below its minimum
"does not model this block" (log 17). -/
def Config.wf (c : Config) : Bool :=
  c.meetsMinimums && (decide (1 ≤ c.panelW) && (decide (c.panelW ≤ 65536) && (decide (1 ≤ c.panelH) && (decide (c.panelH ≤ 65536)
    && distinct c.opcodes))))

/-- The defaults of 00_scope.md R11. PRESUMED (log 3): the opcode and payload bytes, the control-line level and the panel
size 240 by 320 are the spec's general-knowledge values (93_implementation_defined.md G1 to G12). DESIGN CHOICE (log 3):
the four OPEN parameters that no rule reads are 0. -/
def Config.default : Config where
  panelW := 240
  panelH := 320
  orient := 0x00
  pixfmt565 := 0x55
  opSwreset := 0x01
  opSlpout := 0x11
  opColmod := 0x3A
  opMadctl := 0x36
  opDispon := 0x29
  opCaset := 0x2A
  opRaset := 0x2B
  opRamwr := 0x2C
  tRstLow := 100
  tRstHigh := 100
  tSwreset := 150
  tSlpout := 255
  tDispon := 100
  dcCmdLevel := .low
  palMax := 256
  spiClockHz := 0
  spiMode := 0
  pinDc := 0
  pinRst := 0

end Sys2Proof
end

