-- ==== Sys2Proof/Syntax.lean ====
section
/-! DEFINITION. Syntax.lean: the block's requests and bus commands as syntax, one constructor of `Instr` for each row of
spec/opcode_table.json (spec/30_encoding.md R90 to R98; spec/20_memory.md R61). -/

namespace Sys2Proof

/-- ColorSample: "8-bit red, green, blue" (20_memory.md R61). -/
structure ColorSample where
  r : Byte
  g : Byte
  b : Byte
deriving DecidableEq, Repr

/-- The `ColorSource` capability: "identity (already RGB)" or "indexed (requires a palette)" (20_memory.md R61;
44_frame_streamer.md R220). -/
inductive ColorSource where
  | direct (pixels : List ColorSample)
  | indexed (indices : List Nat) (palette : List ColorSample)
deriving DecidableEq, Repr

/-- Frame (20_memory.md R61): width, height, raster, and whether the FrameSource could decode it. -/
structure Frame where
  w : Nat
  h : Nat
  src : ColorSource
  ok : Bool
deriving DecidableEq, Repr

/-- The loop policy of ANIMATE: 0 = ONCE, 1 = REPEAT (30_encoding.md R92; 45_animation_sequencer.md R250). -/
inductive Policy where
  | once
  | repeating
deriving DecidableEq, Repr

/-- Every row of spec/opcode_table.json: the nine requests, the seven reserved request codes (30_encoding.md R91, R93) and
the eight bus commands (R95). COLMOD and MADCTL carry no operand: their payload byte is a parameter (R98). -/
inductive Instr where
  /-- INIT, req_op 0x1 (41_display_init_fsm.md R152). -/
  | init
  /-- SEND_CMD, req_op 0x2 (40_command_protocol_framer.md R125). -/
  | sendCmd (op : Byte)
  /-- SEND_DATA, req_op 0x3 (40_command_protocol_framer.md R126). -/
  | sendData (b : Byte)
  /-- SET_WINDOW, req_op 0x4 (42_address_window_adder.md R185). -/
  | setWindow (cs ce rs re : Word)
  /-- ENCODE, req_op 0x5 (43_rgb565_quantizer.md R203). -/
  | encode (r g b : Byte)
  /-- DRAW_FRAME, req_op 0x6 (44_frame_streamer.md R226). -/
  | drawFrame (f : Frame)
  /-- ANIMATE, req_op 0x7 (45_animation_sequencer.md R251). -/
  | animate (seq : List (Frame × Nat)) (policy : Policy)
  /-- READ_STATUS, req_op 0x8 (46_system_requests.md R280). -/
  | readStatus
  /-- RELEASE, req_op 0x9 (46_system_requests.md R281). -/
  | release
  /-- Reserved request code 0x0 (46_system_requests.md R282). -/
  | reserved0
  /-- Reserved request code 0xA (R282). -/
  | reservedA
  /-- Reserved request code 0xB (R282). -/
  | reservedB
  /-- Reserved request code 0xC (R282). -/
  | reservedC
  /-- Reserved request code 0xD (R282). -/
  | reservedD
  /-- Reserved request code 0xE (R282). -/
  | reservedE
  /-- Reserved request code 0xF (R282). -/
  | reservedF
  /-- Bus command SWRESET (41_display_init_fsm.md R154). -/
  | swreset
  /-- Bus command SLPOUT (41_display_init_fsm.md R155). -/
  | slpout
  /-- Bus command COLMOD (41_display_init_fsm.md R156). -/
  | colmod
  /-- Bus command MADCTL (41_display_init_fsm.md R157). -/
  | madctl
  /-- Bus command DISPON (41_display_init_fsm.md R158). -/
  | dispon
  /-- Bus command CASET (42_address_window_adder.md R183). -/
  | caset (cs ce : Word)
  /-- Bus command RASET (42_address_window_adder.md R184). -/
  | raset (rs re : Word)
  /-- Bus command RAMWR (44_frame_streamer.md R223). -/
  | ramwr
deriving DecidableEq, Repr

/-- The two encodings of 30_encoding.md R90: the host request and the panel command. -/
inductive EncLevel where
  | request
  | command
deriving DecidableEq, Repr

end Sys2Proof
end

