-- ==== Sys2Proof/WellFormed.lean ====
section
/-! DEFINITION. WellFormed.lean: which instructions the block itself sends or may be given.

A host request is well-formed whatever its operands: a frame or a window that breaks a contract is a request all the same,
and the block answers it with a fault (spec/44_frame_streamer.md R221, spec/42_address_window_adder.md R186). A bus range
command is sent by the block only for a window that has passed the window check (R182, R186); placed at the framer by itself it
runs whatever its range (log 25). -/

namespace Sys2Proof

/-- One range of the window check of 42_address_window_adder.md R186: not reversed, and inside `limit` columns or rows. -/
def rangeOk (start stop : Word) (limit : Nat) : Bool :=
  decide (start.toNat ≤ stop.toNat) && decide (stop.toNat < limit)

/-- CASET and RASET carry a range that the window check of R186 admits; everything else is well-formed by its types. -/
def Instr.wf (cfg : Config) : Instr → Bool
  | .init => true
  | .sendCmd _ => true
  | .sendData _ => true
  | .setWindow _ _ _ _ => true
  | .encode _ _ _ => true
  | .drawFrame _ => true
  | .animate _ _ => true
  | .readStatus => true
  | .release => true
  | .reserved0 => true
  | .reservedA => true
  | .reservedB => true
  | .reservedC => true
  | .reservedD => true
  | .reservedE => true
  | .reservedF => true
  | .swreset => true
  | .slpout => true
  | .colmod => true
  | .madctl => true
  | .dispon => true
  | .caset cs ce => rangeOk cs ce cfg.panelW
  | .raset rs re => rangeOk rs re cfg.panelH
  | .ramwr => true

/-- Which of the two encodings of 30_encoding.md R90 an instruction has. -/
def Instr.level : Instr → EncLevel
  | .init => .request
  | .sendCmd _ => .request
  | .sendData _ => .request
  | .setWindow _ _ _ _ => .request
  | .encode _ _ _ => .request
  | .drawFrame _ => .request
  | .animate _ _ => .request
  | .readStatus => .request
  | .release => .request
  | .reserved0 => .request
  | .reservedA => .request
  | .reservedB => .request
  | .reservedC => .request
  | .reservedD => .request
  | .reservedE => .request
  | .reservedF => .request
  | .swreset => .command
  | .slpout => .command
  | .colmod => .command
  | .madctl => .command
  | .dispon => .command
  | .caset _ _ => .command
  | .raset _ _ => .command
  | .ramwr => .command

/-- A reserved request code (30_encoding.md R93). -/
def Instr.reserved : Instr → Bool
  | .init => false
  | .sendCmd _ => false
  | .sendData _ => false
  | .setWindow _ _ _ _ => false
  | .encode _ _ _ => false
  | .drawFrame _ => false
  | .animate _ _ => false
  | .readStatus => false
  | .release => false
  | .reserved0 => true
  | .reservedA => true
  | .reservedB => true
  | .reservedC => true
  | .reservedD => true
  | .reservedE => true
  | .reservedF => true
  | .swreset => false
  | .slpout => false
  | .colmod => false
  | .madctl => false
  | .dispon => false
  | .caset _ _ => false
  | .raset _ _ => false
  | .ramwr => false

/-- A request that needs an initialized panel (60_exceptions.md R304). -/
def Instr.needsOn : Instr → Bool
  | .init => false
  | .sendCmd _ => true
  | .sendData _ => true
  | .setWindow _ _ _ _ => true
  | .encode _ _ _ => false
  | .drawFrame _ => true
  | .animate _ _ => true
  | .readStatus => false
  | .release => false
  | .reserved0 => false
  | .reservedA => false
  | .reservedB => false
  | .reservedC => false
  | .reservedD => false
  | .reservedE => false
  | .reservedF => false
  | .swreset => false
  | .slpout => false
  | .colmod => false
  | .madctl => false
  | .dispon => false
  | .caset _ _ => false
  | .raset _ _ => false
  | .ramwr => false

end Sys2Proof
end

