-- ==== Sys2Proof/Decode.lean ====
section
/-! DEFINITION. Decode.lean: bytes to instructions and back, for both encodings of spec/30_encoding.md R90.

The request code is the spec's (R91). The spec gives an operand record no bit layout (R92, D2), so the bytes of the operands
are the model's own (log 4): one header byte with the code in bits 3..0, then the fields in the order R92 lists them, but
ANIMATE's policy before its sequence and a Frame's ok before its raster (R61 lists ok last), a 16-bit field high byte first, a
natural number in base 128 with its least significant digit first. A bus command's bytes are the spec's
(R94 to R98): the opcode, then the payload. -/

namespace Sys2Proof

/-- `hi8(v) = v[15:8]` (00_scope.md R14). -/
def hi8 (v : Word) : Byte := v.extractLsb' 8 8

/-- `lo8(v) = v[7:0]` (00_scope.md R14). -/
def lo8 (v : Word) : Byte := v.extractLsb' 0 8

/-- `{hi, lo}`: two bytes, the first in the high bits (00_scope.md R14; 20_memory.md R63). -/
def be16 (hi lo : Byte) : Word := hi ++ lo

/-- Why bytes are no instruction. -/
inductive DecodeError where
  /-- no byte at all -/
  | empty
  /-- a request's header byte whose bits 7..4 are not 0 -/
  | badHeader (b : Byte)
  /-- the bytes end inside an operand -/
  | truncated
  /-- bytes are left over after the last operand -/
  | trailing
  /-- a natural number with a leading zero digit -/
  | overlong
  /-- a one-bit field (ok, source, policy) that is neither 0 nor 1 -/
  | badFlag (b : Byte)
  /-- an opcode byte other than the eight of 30_encoding.md R95 -/
  | unknownOpcode (b : Byte)
  /-- a COLMOD or MADCTL payload other than the parameter (30_encoding.md R98) -/
  | badPayload (b : Byte)
deriving DecidableEq, Repr

/-- What a field's reader gives: the field and the bytes after it, or why there is none. -/
abbrev Read (α : Type) := Except DecodeError (α × List Byte)

/-! ## Readers of one field -/

/-- One 8-bit field. -/
def readByte : List Byte → Read Byte
  | [] => .error .truncated
  | b :: bs => .ok (b, bs)

/-- One 16-bit field, high byte first. -/
def readWord : List Byte → Read Word
  | hi :: lo :: bs => .ok (be16 hi lo, bs)
  | _ => .error .truncated

/-- One one-bit field. -/
def readFlag : List Byte → Read Bool
  | [] => .error .truncated
  | b :: bs => if b = 0 then .ok (false, bs) else if b = 1 then .ok (true, bs) else .error (.badFlag b)

/-- One natural number: base-128 digits, least significant first, bit 7 set on every digit but the last. -/
def readNat : List Byte → Read Nat
  | [] => .error .truncated
  | b :: bs =>
    if b.toNat < 128 then .ok (b.toNat, bs)
    else
      match readNat bs with
      | .error e => .error e
      | .ok (0, _) => .error .overlong
      | .ok (m + 1, rest) => .ok (b.toNat - 128 + 128 * (m + 1), rest)

/-- `n` fields, one after another. -/
def readMany {α : Type} (read : List Byte → Read α) : Nat → List Byte → Read (List α)
  | 0, bs => .ok ([], bs)
  | n + 1, bs =>
    match read bs with
    | .error e => .error e
    | .ok (a, bs) =>
      match readMany read n bs with
      | .error e => .error e
      | .ok (as, bs) => .ok (a :: as, bs)

/-- A list: its length, then its elements. -/
def readList {α : Type} (read : List Byte → Read α) (bs : List Byte) : Read (List α) :=
  match readNat bs with
  | .error e => .error e
  | .ok (n, bs) => readMany read n bs

/-- A ColorSample: red, green, blue. -/
def readSample : List Byte → Read ColorSample
  | r :: g :: b :: bs => .ok (⟨r, g, b⟩, bs)
  | _ => .error .truncated

/-- A frame's raster: a flag (0 Direct, 1 Indexed), then its lists. -/
def readSource (bs : List Byte) : Read ColorSource :=
  match readFlag bs with
  | .error e => .error e
  | .ok (false, bs) =>
    match readList readSample bs with
    | .error e => .error e
    | .ok (pixels, bs) => .ok (.direct pixels, bs)
  | .ok (true, bs) =>
    match readList readNat bs with
    | .error e => .error e
    | .ok (indices, bs) =>
      match readList readSample bs with
      | .error e => .error e
      | .ok (palette, bs) => .ok (.indexed indices palette, bs)

/-- A Frame: w, h, ok, raster. DESIGN CHOICE (log 4): ok before the raster, where 20_memory.md R61 lists it last. -/
def readFrame (bs : List Byte) : Read Frame :=
  match readNat bs with
  | .error e => .error e
  | .ok (w, bs) =>
    match readNat bs with
    | .error e => .error e
    | .ok (h, bs) =>
      match readFlag bs with
      | .error e => .error e
      | .ok (ok, bs) =>
        match readSource bs with
        | .error e => .error e
        | .ok (src, bs) => .ok (⟨w, h, src, ok⟩, bs)

/-- One (frame, delay) pair of an animation sequence. -/
def readPair (bs : List Byte) : Read (Frame × Nat) :=
  match readFrame bs with
  | .error e => .error e
  | .ok (f, bs) =>
    match readNat bs with
    | .error e => .error e
    | .ok (d, bs) => .ok ((f, d), bs)

/-- The policy bit (30_encoding.md R92). -/
def readPolicy (bs : List Byte) : Read Policy :=
  match readFlag bs with
  | .error e => .error e
  | .ok (false, bs) => .ok (.once, bs)
  | .ok (true, bs) => .ok (.repeating, bs)

/-- An instruction whose operands end where its bytes end. -/
def finish (i : Instr) : List Byte → Except DecodeError Instr
  | [] => .ok i
  | _ :: _ => .error .trailing

/-! ## The decoder -/

/-- The operands of SET_WINDOW. -/
def decodeSetWindow (bs : List Byte) : Except DecodeError Instr :=
  match readWord bs with
  | .error e => .error e
  | .ok (cs, bs) =>
    match readWord bs with
    | .error e => .error e
    | .ok (ce, bs) =>
      match readWord bs with
      | .error e => .error e
      | .ok (rs, bs) =>
        match readWord bs with
        | .error e => .error e
        | .ok (re, bs) => finish (.setWindow cs ce rs re) bs

/-- The operands of ANIMATE. DESIGN CHOICE (log 4): the policy before the sequence, where 30_encoding.md R92 lists it last. -/
def decodeAnimate (bs : List Byte) : Except DecodeError Instr :=
  match readPolicy bs with
  | .error e => .error e
  | .ok (policy, bs) =>
    match readList readPair bs with
    | .error e => .error e
    | .ok (seq, bs) => finish (.animate seq policy) bs

/-- A host request from its bytes (30_encoding.md R91, R92). A reserved code decodes no operands (46_system_requests.md R282). -/
def decodeRequest : List Byte → Except DecodeError Instr
  | [] => .error .empty
  | h :: bs =>
    match h.toNat with
    | 0x0 => .ok .reserved0
    | 0x1 => finish .init bs
    | 0x2 =>
      match readByte bs with
      | .error e => .error e
      | .ok (op, bs) => finish (.sendCmd op) bs
    | 0x3 =>
      match readByte bs with
      | .error e => .error e
      | .ok (b, bs) => finish (.sendData b) bs
    | 0x4 => decodeSetWindow bs
    | 0x5 =>
      match readSample bs with
      | .error e => .error e
      | .ok (c, bs) => finish (.encode c.r c.g c.b) bs
    | 0x6 =>
      match readFrame bs with
      | .error e => .error e
      | .ok (f, bs) => finish (.drawFrame f) bs
    | 0x7 => decodeAnimate bs
    | 0x8 => finish .readStatus bs
    | 0x9 => finish .release bs
    | 0xA => .ok .reservedA
    | 0xB => .ok .reservedB
    | 0xC => .ok .reservedC
    | 0xD => .ok .reservedD
    | 0xE => .ok .reservedE
    | 0xF => .ok .reservedF
    | _ => .error (.badHeader h)

/-- A one-byte payload that is a parameter of the build (30_encoding.md R98). -/
def finishPayload (i : Instr) (p : Byte) : List Byte → Except DecodeError Instr
  | [] => .error .truncated
  | q :: bs => if q = p then finish i bs else .error (.badPayload q)

/-- A range payload, `[hi8(s), lo8(s), hi8(e), lo8(e)]` (30_encoding.md R97). -/
def decodeRange (mk : Word → Word → Instr) (bs : List Byte) : Except DecodeError Instr :=
  match readWord bs with
  | .error e => .error e
  | .ok (s, bs) =>
    match readWord bs with
    | .error e => .error e
    | .ok (t, bs) => finish (mk s t) bs

/-- A bus command from its bytes, opcode first (30_encoding.md R94 to R98, R101). -/
def decodeCommand (cfg : Config) : List Byte → Except DecodeError Instr
  | [] => .error .empty
  | op :: bs =>
    if op = cfg.opSwreset then finish .swreset bs
    else if op = cfg.opSlpout then finish .slpout bs
    else if op = cfg.opColmod then finishPayload .colmod cfg.pixfmt565 bs
    else if op = cfg.opMadctl then finishPayload .madctl cfg.orient bs
    else if op = cfg.opDispon then finish .dispon bs
    else if op = cfg.opCaset then decodeRange .caset bs
    else if op = cfg.opRaset then decodeRange .raset bs
    else if op = cfg.opRamwr then finish .ramwr bs
    else .error (.unknownOpcode op)

/-- The decoder, total on any bytes at either level. -/
def decode (cfg : Config) : EncLevel → List Byte → Except DecodeError Instr
  | .request, bs => decodeRequest bs
  | .command, bs => decodeCommand cfg bs

/-! ## The encoder -/

/-- A 16-bit field, high byte first (30_encoding.md R97). -/
def wordBytes (v : Word) : List Byte := [hi8 v, lo8 v]

/-- A one-bit field. -/
def flagByte (b : Bool) : Byte := if b then 1 else 0

/-- The base-128 digits of `n`, at most `fuel + 1` of them; `fuel = n` is always enough. -/
def natBytesFuel : Nat → Nat → List Byte
  | 0, n => [BitVec.ofNat 8 n]
  | fuel + 1, n =>
    if n < 128 then [BitVec.ofNat 8 n]
    else BitVec.ofNat 8 (128 + n % 128) :: natBytesFuel fuel (n / 128)

/-- A natural number. -/
def natBytes (n : Nat) : List Byte := natBytesFuel n n

/-- A ColorSample. -/
def sampleBytes (c : ColorSample) : List Byte := [c.r, c.g, c.b]

/-- A list: its length, then its elements. -/
def listBytes {α : Type} (write : α → List Byte) (l : List α) : List Byte :=
  natBytes l.length ++ l.flatMap write

/-- A frame's raster. -/
def sourceBytes : ColorSource → List Byte
  | .direct pixels => flagByte false :: listBytes sampleBytes pixels
  | .indexed indices palette => flagByte true :: (listBytes natBytes indices ++ listBytes sampleBytes palette)

/-- A Frame, in the order of `readFrame` (log 4). -/
def frameBytes (f : Frame) : List Byte :=
  natBytes f.w ++ (natBytes f.h ++ (flagByte f.ok :: sourceBytes f.src))

/-- One (frame, delay) pair. -/
def pairBytes (p : Frame × Nat) : List Byte := frameBytes p.1 ++ natBytes p.2

/-- The policy bit: 0 = ONCE, 1 = REPEAT (30_encoding.md R92). -/
def policyByte : Policy → Byte
  | .once => 0
  | .repeating => 1

/-- The bytes of an instruction, from the encoding tables of 30_encoding.md R91, R92 (requests; the
operands' bytes are log 4's) and R95 to R98 (commands). -/
def encode (cfg : Config) : Instr → List Byte
  | .init => [0x01]
  | .sendCmd op => [0x02, op]
  | .sendData b => [0x03, b]
  | .setWindow cs ce rs re => 0x04 :: (wordBytes cs ++ (wordBytes ce ++ (wordBytes rs ++ wordBytes re)))
  | .encode r g b => [0x05, r, g, b]
  | .drawFrame f => 0x06 :: frameBytes f
  | .animate seq policy => 0x07 :: policyByte policy :: listBytes pairBytes seq
  | .readStatus => [0x08]
  | .release => [0x09]
  | .reserved0 => [0x00]
  | .reservedA => [0x0A]
  | .reservedB => [0x0B]
  | .reservedC => [0x0C]
  | .reservedD => [0x0D]
  | .reservedE => [0x0E]
  | .reservedF => [0x0F]
  | .swreset => [cfg.opSwreset]
  | .slpout => [cfg.opSlpout]
  | .colmod => [cfg.opColmod, cfg.pixfmt565]
  | .madctl => [cfg.opMadctl, cfg.orient]
  | .dispon => [cfg.opDispon]
  | .caset cs ce => cfg.opCaset :: (wordBytes cs ++ wordBytes ce)
  | .raset rs re => cfg.opRaset :: (wordBytes rs ++ wordBytes re)
  | .ramwr => [cfg.opRamwr]

/-! ## Words of spec/opcode_table.json -/

/-- The low `n` bytes of `w`, least significant first. -/
def leBytes : Nat → Nat → List Byte
  | 0, _ => []
  | n + 1, w => BitVec.ofNat 8 w :: leBytes n (w / 256)

/-- The level a table word is read at: a first byte below 16 is a request code, any other an opcode byte. The table's rows
INIT and SWRESET share the word 0x01; it is read as INIT (log 5). -/
def tableLevel (nbits w : Nat) : EncLevel :=
  if nbits < 8 ∨ w % 256 < 16 then .request else .command

/-- How many operand bytes a request has when every one of them is 0. -/
def zeroOperandBytes : Nat → Nat
  | 0x2 => 1
  | 0x3 => 1
  | 0x4 => 8
  | 0x5 => 3
  | 0x6 => 5
  | 0x7 => 2
  | _ => 0

/-- The payload of a bus command given by its table word: the parameter for COLMOD and MADCTL (log 6), the word's further
bytes for the two ranges, none for the rest. -/
def tablePayload (cfg : Config) (op : Byte) (w : Nat) : List Byte :=
  if op = cfg.opColmod then [cfg.pixfmt565]
  else if op = cfg.opMadctl then [cfg.orient]
  else if op = cfg.opCaset ∨ op = cfg.opRaset then leBytes 4 (w / 256)
  else []

/-- The bytes of a table word: its first byte, then operand bytes, which are zeros where the word has no more bits. -/
def tableBytes (cfg : Config) (nbits w : Nat) : List Byte :=
  match tableLevel nbits w with
  | .request => BitVec.ofNat 8 w :: leBytes (zeroOperandBytes (w % 256)) (w / 256)
  | .command => BitVec.ofNat 8 w :: tablePayload cfg (BitVec.ofNat 8 w) w

/-- The instruction the decoder reads from a word of spec/opcode_table.json, with the default opcode values. -/
def decodeTableWord (nbits w : Nat) : Option Instr :=
  match decode Config.default (tableLevel nbits w) (tableBytes Config.default nbits w) with
  | .ok i => some i
  | .error _ => none

end Sys2Proof
end

