-- ==== Sys2Proof/Machine/State.lean ====
section
/-! DEFINITION. Machine/State.lean: the block's registers (spec/10_state.md R21), the observation it is known by (00_scope.md R9),
its inputs (10_state.md R40, R45), the panel aid (20_memory.md R70) and the state after block reset (70_reset_and_hazards.md R340). -/

namespace Sys2Proof.Machine

/-! ## Register types -/

/-- `INIT_STATE` (10_state.md R22): a state names the last transition completed. -/
inductive InitState where
  | unpowered
  | resetting
  | softwareReset
  | wakingUp
  | configuringFormat
  | configuringOrientation
  | on
deriving DecidableEq, Repr

/-- A level the framer drives on the control line (10_state.md R44). -/
inductive DcLevel where
  | cmd
  | data
deriving DecidableEq, Repr

/-- `DC_LINE` (10_state.md R27); `undriven` is the spec's NONE. -/
inductive DcLine where
  | undriven
  | cmd
  | data
deriving DecidableEq, Repr

/-- `RST_LINE` (10_state.md R28); `undriven` is the spec's NONE. -/
inductive RstLine where
  | undriven
  | low
  | high
deriving DecidableEq, Repr

/-- `FR_KIND` (10_state.md R29); `idle` is the spec's NONE. -/
inductive FrKind where
  | idle
  | fixed
  | stream
deriving DecidableEq, Repr

/-- The error codes 0 to 9 of 60_exceptions.md R301; 10 to 15 are "never produced". -/
inductive ErrCode where
  | ok
  | transportInit
  | frameSource
  | notReady
  | windowRange
  | protocol
  | illegalRequest
  | paletteRange
  | initOrder
  | busError
deriving DecidableEq, Repr

/-! ## What the block is observed by -/

/-- A bus event (10_state.md R44). A WAIT records its minimum only; an XFER whole bytes (20_memory.md R65). -/
inductive Event where
  | dc (l : DcLevel)
  | rst (v : Level)
  | xfer (b : Byte)
  | wait (ms : Nat)
  | release
deriving DecidableEq, Repr

/-- The status of a response (10_state.md R41). -/
inductive Status where
  | ok
  | stopped
  | refused
  | fault
deriving DecidableEq, Repr

/-- The response record (10_state.md R41). -/
structure Response where
  status : Status
  value : Word
deriving DecidableEq, Repr

/-! ## What the block reads -/

/-- What the outside drives (10_state.md R40, R45), each a schedule of coming values, the next one first (log 2). A Boolean
schedule that has run out reads the quiet value: transport ready, no stop, no failure, no reset. -/
structure Inputs where
  /-- The requests the host will present, in order, each as its bytes. -/
  requests : List (List Byte)
  /-- `transport_ok`, one value a reading. -/
  transportOk : List Bool
  /-- `stop`, one value a frame boundary. -/
  stop : List Bool
  /-- The transport's failure report, one value a DC, RST or XFER event. -/
  fail : List Bool
  /-- `rst_in`, one value before each step and one after each bus event. -/
  rst : List Bool
deriving DecidableEq, Repr

/-! ## The panel, an observation aid -/

/-- The panel's pixel memory GRAM as byte cells, addresses strictly rising; an address that is not listed reads as "not
known" (log 15). -/
abbrev Memory := List Host.Cell

/-- What the events so far say about the panel (20_memory.md R70; log 14). -/
structure Panel where
  /-- The panel cursor (column, row) of an open memory write. -/
  cursor : Option (Nat × Nat)
  /-- The first byte of an unfinished byte pair. -/
  half : Option Byte
  /-- GRAM. -/
  gram : Memory
deriving DecidableEq, Repr

/-- A panel of which nothing is known (70_reset_and_hazards.md R342; 93_implementation_defined.md I22). -/
def Panel.unknown : Panel := ⟨none, none, []⟩

/-! ## The state -/

@[ext]
structure State where
  /-- The build's parameters; never written (10_state.md R36). -/
  cfg : Config
  /-- `INIT_STATE` -/
  initState : InitState
  /-- `BUSY` -/
  busy : Bool
  /-- `CUR_REQ` -/
  curReq : Option Instr
  /-- `EV_PTR` -/
  evPtr : Nat
  /-- `DC_LINE` -/
  dcLine : DcLine
  /-- `RST_LINE` -/
  rstLine : RstLine
  /-- `FR_KIND` -/
  frKind : FrKind
  /-- `FR_REM` -/
  frRem : Nat
  /-- `WIN_CS`; `none` is the spec's own "holds no value" (10_state.md R21). -/
  winCs : Option Word
  /-- `WIN_CE` -/
  winCe : Option Word
  /-- `WIN_RS` -/
  winRs : Option Word
  /-- `WIN_RE` -/
  winRe : Option Word
  /-- `WIN_VALID` -/
  winValid : Bool
  /-- `ERR` -/
  err : ErrCode
  /-- `HALTED` -/
  halted : Bool
  /-- `RELEASED` -/
  released : Bool
  /-- `ANIM_IDX` -/
  animIdx : Nat
  /-- `ANIM_ACTIVE` -/
  animActive : Bool
  /-- The trace, newest event first. -/
  log : List Event
  /-- The responses, newest first. -/
  responses : List Response
  /-- The panel aid. -/
  panel : Panel
  /-- The inputs. -/
  inputs : Inputs
  /-- The model's own: a bus command placed at the framer, as its bytes (log 7). -/
  cmdPort : Option (List Byte)
deriving DecidableEq, Repr

/-- The trace in the order of its events (00_scope.md R9). -/
def State.trace (s : State) : List Event := s.log.reverse

/-- The state after block reset (10_state.md R21, 70_reset_and_hazards.md R340), before any event, with the default
configuration (log 3), nothing presented and quiet inputs (log 2). -/
def State.reset : State where
  cfg := Config.default
  initState := .unpowered
  busy := false
  curReq := none
  evPtr := 0
  dcLine := .undriven
  rstLine := .undriven
  frKind := .idle
  frRem := 0
  winCs := none
  winCe := none
  winRs := none
  winRe := none
  winValid := false
  err := .ok
  halted := false
  released := false
  animIdx := 0
  animActive := false
  log := []
  responses := []
  panel := Panel.unknown
  inputs := ⟨[], [], [], [], []⟩
  cmdPort := none

/-! ## How a step can stop

The block's own faults (60_exceptions.md R301) are next states, by the fatal path of R305. The stops below are the model's: each
stands where the spec says no rule reaches (log 13). -/

inductive Fault where
  /-- What the framer's callers guarantee is broken: an opcode while an obligation is open, a data byte while none is, a RAMWR data
  phase while a window register holds none (40_command_protocol_framer.md R121, R122; 10_state.md R21: "a model reads it as a
  fault, never as a value"), or an opcode that has no payload length (30_encoding.md R96). Raised by the framer's bookkeeping;
  the checks of every request and bus command come before it. Safe: the model stops. -/
  | framerContract
  /-- A subtraction that would go below zero (00_scope.md R14: "never evaluated"). Raised by opening a data phase over a
  reversed window and by counting a byte off an obligation of 0. Safe: the model stops. -/
  | belowZero
  /-- A MemRead outside its raster, palette or sequence (20_memory.md R62: reads "cannot fail"). Raised by the streamer and
  the sequencer. Safe: the model stops. -/
  | memRead
  /-- BUSY = 1 with a step pointer that names no event of a request (10_state.md R25). Raised by the step. Safe: the model
  stops. -/
  | stepPointer
deriving DecidableEq, Repr

inductive Refusal where
  /-- An instruction that has no meaning yet. Raised by exec's arms only. Safe. -/
  | notModelled (mnemonic : String)
  /-- 00_scope.md R12: "a configuration that makes two of them equal is ill-formed and the model refuses it";
  93_implementation_defined.md I4: "a model whose wait is below its minimum does not model this block" (log 17, log 18). Raised by
  the step. Safe. -/
  | illFormedConfig
  /-- The bytes presented are no instruction in the model's byte form (log 21). Raised by the step. Safe. -/
  | undecodable (e : DecodeError)
deriving DecidableEq, Repr

end Sys2Proof.Machine
end

