-- ==== Sys2Proof/Machine/Flags.lean ====
section
/-! DEFINITION. Machine/Flags.lean: the numeric codes of the enumerated registers and the STATUS word (spec/10_state.md R22, R34;
spec/60_exceptions.md R301). The block has no arithmetic flag (10_state.md R33). -/

namespace Sys2Proof.Machine

/-- The 3-bit code of `INIT_STATE` (10_state.md R22). -/
def InitState.code : InitState → BitVec 3
  | .unpowered => 0
  | .resetting => 1
  | .softwareReset => 2
  | .wakingUp => 3
  | .configuringFormat => 4
  | .configuringOrientation => 5
  | .on => 6

/-- The 4-bit error code (60_exceptions.md R301). -/
def ErrCode.code : ErrCode → BitVec 4
  | .ok => 0
  | .transportInit => 1
  | .frameSource => 2
  | .notReady => 3
  | .windowRange => 4
  | .protocol => 5
  | .illegalRequest => 6
  | .paletteRange => 7
  | .initOrder => 8
  | .busError => 9

/-- `fr_code` (46_system_requests.md R280). -/
def FrKind.code : FrKind → BitVec 2
  | .idle => 0
  | .fixed => 1
  | .stream => 2

/-- One flag as one bit. -/
def flagBit (b : Bool) : BitVec 1 := BitVec.ofBool b

/-- `STATUS` (10_state.md R34): `{0b0000, ERR, fr_code(FR_KIND), WIN_VALID, RELEASED, HALTED, INIT_STATE}`, the first in the
high bits. -/
def statusWord (s : State) : Word :=
  (0 : BitVec 4) ++ s.err.code ++ s.frKind.code ++ flagBit s.winValid ++ flagBit s.released ++ flagBit s.halted
    ++ s.initState.code

/-- The value of a FAULT response, `zext_16(code)` (60_exceptions.md R305). -/
def faultValue (e : ErrCode) : Word := e.code.zeroExtend 16

end Sys2Proof.Machine
end

