-- ==== Sys2Proof/Machine/Operands.lean ====
section
/-! DEFINITION. Machine/Operands.lean: what a request's operands mean: reads of the frame, palette and sequence
(spec/20_memory.md R61, R62), the frame check (44_frame_streamer.md R221), the window arithmetic (42_address_window_adder.md
R181, R186; 30_encoding.md R96) and the RGB565 quantizer (43_rgb565_quantizer.md R200). -/

namespace Sys2Proof.Machine

/-! ## The quantizer -/

/-- `encode(r, g, b)` (43_rgb565_quantizer.md R200): the three channels shifted down, and placed side by side by shifts and OR. -/
def rgb565 (r g b : Byte) : Word :=
  ((r >>> 3).zeroExtend 16 <<< 11) ||| ((g >>> 2).zeroExtend 16 <<< 5) ||| (b >>> 3).zeroExtend 16

/-- The EncodedPixel of a ColorSample. -/
def encodeSample (c : ColorSample) : Word := rgb565 c.r c.g c.b

/-! ## Frame, palette and sequence reads -/

/-- The raster's length (44_frame_streamer.md R221, check 3). -/
def rasterLength : ColorSource → Nat
  | .direct pixels => pixels.length
  | .indexed indices _ => indices.length

/-- `resolve(f, x, y)` (44_frame_streamer.md R220): raster element `y * w + x` (20_memory.md R62), through the palette for an
indexed frame. `none` where a MemRead has no element. -/
def resolve (f : Frame) (x y : Nat) : Option ColorSample :=
  match f.src with
  | .direct pixels => pixels[y * f.w + x]?
  | .indexed indices palette =>
    match indices[y * f.w + x]? with
    | none => none
    | some i => palette[i]?

/-- The positions of a frame in the order of the loops of 44_frame_streamer.md R222: rows from the top, columns from the left. -/
def rasterOrder (w h : Nat) : List (Nat × Nat) :=
  (List.range h).flatMap fun y => (List.range w).map fun x => (x, y)

/-- The ColorSamples at a list of positions. -/
def resolveAll (f : Frame) : List (Nat × Nat) → Option (List ColorSample)
  | [] => some []
  | (x, y) :: ps =>
    match resolve f x y with
    | none => none
    | some c =>
      match resolveAll f ps with
      | none => none
      | some cs => some (c :: cs)

/-- The whole frame as ColorSamples, row-major from the top-left (44_frame_streamer.md R224). -/
def frameSamples (f : Frame) : Option (List ColorSample) := resolveAll f (rasterOrder f.w f.h)

/-- Checks 4 and 5 of `draw_check` (44_frame_streamer.md R221): the palette is no longer than PAL_MAX and every index is below
its length. -/
def paletteOk (cfg : Config) : ColorSource → Bool
  | .direct _ => true
  | .indexed indices palette =>
    decide (palette.length ≤ cfg.palMax) && indices.all fun i => decide (i < palette.length)

/-- Check 2 of `draw_check`: `1 <= w <= PANEL_W` and `1 <= h <= PANEL_H`. -/
def sizeOk (cfg : Config) (f : Frame) : Bool :=
  decide (1 ≤ f.w) && decide (f.w ≤ cfg.panelW) && decide (1 ≤ f.h) && decide (f.h ≤ cfg.panelH)

/-- `draw_check(f)` (44_frame_streamer.md R221): the first failing code, or `none` for OK. -/
def drawCheck (cfg : Config) (f : Frame) : Option ErrCode :=
  if !f.ok then some .frameSource
  else if !sizeOk cfg f then some .windowRange
  else if rasterLength f.src ≠ f.w * f.h then some .frameSource
  else if !paletteOk cfg f.src then some .paletteRange
  else none

/-! ## The address window -/

/-- `win_end(start, extent) = start + extent - 1` (42_address_window_adder.md R181), for `extent >= 1`. DESIGN CHOICE (log 29): R181 and
00_scope.md R14 give `win_end(0, 0)` no value; here it is 0, in states no run reaches. -/
def winEnd (start extent : Nat) : Nat := start + extent - 1

/-- `window_ok` (42_address_window_adder.md R186). -/
def windowOk (cfg : Config) (cs ce rs re : Word) : Bool :=
  rangeOk cs ce cfg.panelW && rangeOk rs re cfg.panelH

/-- The data-phase length `2 * (WIN_CE - WIN_CS + 1) * (WIN_RE - WIN_RS + 1)` (30_encoding.md R96); `openDataPhase` evaluates it over ranges
that are not reversed only. -/
def dataPhase (cs ce rs re : Word) : Nat :=
  2 * (ce.toNat - cs.toNat + 1) * (re.toNat - rs.toNat + 1)

/-- `PAYLOAD_LEN(op)` (30_encoding.md R96), undefined for any opcode but the eight. -/
def payloadLen (cfg : Config) (op : Byte) : Option Nat :=
  if op = cfg.opSwreset then some 0
  else if op = cfg.opSlpout then some 0
  else if op = cfg.opColmod then some 1
  else if op = cfg.opMadctl then some 1
  else if op = cfg.opDispon then some 0
  else if op = cfg.opCaset then some 4
  else if op = cfg.opRaset then some 4
  else if op = cfg.opRamwr then some 0
  else none

/-- The payload of a range command (30_encoding.md R97): `[hi8(s), lo8(s), hi8(e), lo8(e)]`. -/
def rangePayload (s e : Word) : List Byte := [hi8 s, lo8 s, hi8 e, lo8 e]

/-! ## The control line -/

/-- `level(CMD) = DC_CMD_LEVEL`, data the other level (10_state.md R44; 92_eei_decisions.md D7). -/
def lineLevel (cfg : Config) : DcLevel → Level
  | .cmd => cfg.dcCmdLevel
  | .data =>
    match cfg.dcCmdLevel with
    | .low => .high
    | .high => .low

end Sys2Proof.Machine
end

