-- ==== Sys2Proof/Machine/Ops.lean ====
section
/-! DEFINITION. Machine/Ops.lean: the shared operations: GRAM cells and the panel aid (spec/20_memory.md R70), block reset
(70_reset_and_hazards.md R340), acceptance and response (10_state.md R41, R42), one bus event (R44), the fatal path
(60_exceptions.md R305), the framer's bookkeeping (40_command_protocol_framer.md R121, R122), and running a request's events. -/

namespace Sys2Proof.Machine

/-! ## GRAM cells -/

/-- One byte of GRAM; `none` where nothing is known (log 15). -/
def Memory.read : Memory → Nat → Option Byte
  | [], _ => none
  | (k, v) :: m, a => if k = a then some v else Memory.read m a

/-- Store one byte, keeping the addresses rising. -/
def Memory.write : Memory → Nat → Byte → Memory
  | [], a, b => [(a, b)]
  | (k, v) :: m, a, b =>
    if a < k then (a, b) :: (k, v) :: m
    else if a = k then (a, b) :: m
    else (k, v) :: Memory.write m a b

/-- Every address of `m` is above `k`, and they rise. -/
def Memory.risingFrom : Nat → Memory → Bool
  | _, [] => true
  | k, (a, _) :: m => decide (k < a) && Memory.risingFrom a m

/-- The canonical form: addresses strictly rising. No listed cell equals what an unlisted address reads as, since that is
"not known". -/
def Memory.wf : Memory → Bool
  | [] => true
  | (a, _) :: m => Memory.risingFrom a m

/-- The cell of a pixel's high byte; its low byte is the next one. Columns and rows lie in 0..65535 (20_memory.md R71). -/
def gramAddr (col row : Nat) : Nat := 2 * (row * 65536 + col)

/-- `MemWrite(GRAM, (col, row), 2, {hi, lo})` (20_memory.md R70). -/
def gramWrite (m : Memory) (col row : Nat) (hi lo : Byte) : Memory :=
  (m.write (gramAddr col row) hi).write (gramAddr col row + 1) lo

/-- The pixel GRAM is known to hold at (col, row). -/
def gramPixel (m : Memory) (col row : Nat) : Option Word :=
  match m.read (gramAddr col row), m.read (gramAddr col row + 1) with
  | some hi, some lo => some (be16 hi lo)
  | _, _ => none

/-! ## The panel aid -/

/-- The panel after an opcode: RAMWR puts the cursor at (WIN_CS, WIN_RS); any other opcode closes the memory write. Outside the
reading of 20_memory.md R70 (a half pair, a non-zero ORIENT, no window) and after SWRESET nothing stays known (log 14). -/
def panelOpcode (s : State) (op : Byte) : Panel :=
  if s.panel.half.isSome ∨ op = s.cfg.opSwreset then Panel.unknown
  else if op = s.cfg.opRamwr then
    if s.cfg.orient = 0 then
      match s.winCs, s.winRs with
      | some cs, some rs => ⟨some (cs.toNat, rs.toNat), none, s.panel.gram⟩
      | _, _ => Panel.unknown
    else Panel.unknown
  else ⟨none, none, s.panel.gram⟩

/-- The cursor's advance: `col <- col + 1`, and past WIN_CE back to WIN_CS on the next row (20_memory.md R70). -/
def advance (cs ce : Word) (col row : Nat) : Nat × Nat :=
  if col + 1 > ce.toNat then (cs.toNat, row + 1) else (col + 1, row)

/-- The panel after a complete byte pair at (col, row). Past the window's last row, or off the panel, nothing stays known. -/
def panelPair (s : State) (col row : Nat) (hi lo : Byte) : Panel :=
  match s.winCs, s.winCe, s.winRe with
  | some cs, some ce, some re =>
    if col < s.cfg.panelW ∧ row < s.cfg.panelH ∧ row ≤ re.toNat then
      ⟨some (advance cs ce col row), none, gramWrite s.panel.gram col row hi lo⟩
    else Panel.unknown
  | _, _, _ => Panel.unknown

/-- The panel after a data byte: outside a memory write it is a payload byte; inside, it begins or completes a pair. -/
def panelData (s : State) (b : Byte) : Panel :=
  match s.panel.cursor with
  | none => s.panel
  | some (col, row) =>
    match s.panel.half with
    | none => { s.panel with half := some b }
    | some hi => panelPair s col row hi b

/-- The panel after an event it has received whole. "An RST edge resets the panel" (20_memory.md R69). -/
def observe (ev : Event) (s : State) : Panel :=
  match ev with
  | .dc _ => s.panel
  | .rst _ => Panel.unknown
  | .xfer b =>
    match s.dcLine with
    | .undriven => Panel.unknown
    | .cmd => panelOpcode s b
    | .data => panelData s b
  | .wait _ => s.panel
  | .release => s.panel

/-! ## Inputs -/

/-- The value `transport_ok` has at its next reading. -/
def State.transportReads (s : State) : Bool := s.inputs.transportOk.headD true

/-- `transport_ok` has been read once. -/
def State.popTransport (s : State) : State :=
  { s with inputs := { s.inputs with transportOk := s.inputs.transportOk.tail } }

/-- The value `sample_stop()` reads at the next frame boundary (45_animation_sequencer.md R253). -/
def State.stopReads (s : State) : Bool := s.inputs.stop.headD false

/-- The stop input has been sampled once. -/
def State.popStop (s : State) : State :=
  { s with inputs := { s.inputs with stop := s.inputs.stop.tail } }

/-- The value of `rst_in` at the next point where it is read (log 11). -/
def State.rstReads (s : State) : Bool := s.inputs.rst.headD false

/-- `rst_in` has been read once. -/
def State.popRst (s : State) : State :=
  { s with inputs := { s.inputs with rst := s.inputs.rst.tail } }

/-- What the host will present from here on. -/
def State.withRequests (s : State) (l : List (List Byte)) : State :=
  { s with inputs := { s.inputs with requests := l } }

/-- The command at the framer has been taken (log 7). -/
def State.portTaken (s : State) : State := { s with cmdPort := none }

/-! ## Block reset, acceptance, response -/

/-- Block reset (70_reset_and_hazards.md R340): every register to its reset value of 10_state.md R21. The configuration is "not
state and is unchanged", no event is emitted and no response given (R341), and nothing is known of the panel (R342). What the
outside has seen and will drive stays (log 10). -/
def blockReset (s : State) : State :=
  { State.reset with cfg := s.cfg, log := s.log, responses := s.responses, inputs := s.inputs }

/-- Acceptance (10_state.md R42): `BUSY <- 1`, `CUR_REQ <- request`, `EV_PTR <- 0`. -/
def accept (i : Instr) (s : State) : State :=
  { s with busy := true, curReq := some i, evPtr := 0 }

/-- `respond(status, value)` (10_state.md R41): the response, `BUSY <- 0`, `CUR_REQ <- none`. -/
def respond (st : Status) (v : Word) (s : State) : State :=
  { s with busy := false, curReq := none, responses := ⟨st, v⟩ :: s.responses }

/-! ## One bus event -/

/-- "WAIT and RELEASE events cannot fail" (60_exceptions.md R309). -/
def Event.canFail : Event → Bool
  | .dc _ => true
  | .rst _ => true
  | .xfer _ => true
  | .wait _ => false
  | .release => false

/-- `DC_LINE` after an event: "written only by a DC event" (10_state.md R27). -/
def dcAfter (ev : Event) (l : DcLine) : DcLine :=
  match ev with
  | .dc .cmd => .cmd
  | .dc .data => .data
  | .rst _ => l
  | .xfer _ => l
  | .wait _ => l
  | .release => l

/-- `RST_LINE` after an event: "written only by an RST event" (10_state.md R28). -/
def rstAfter (ev : Event) (l : RstLine) : RstLine :=
  match ev with
  | .dc _ => l
  | .rst .low => .low
  | .rst .high => .high
  | .xfer _ => l
  | .wait _ => l
  | .release => l

/-- `RELEASED` after an event: `emit(RELEASE)` performs `RELEASED <- 1` (10_state.md R44). -/
def releasedAfter (ev : Event) (r : Bool) : Bool :=
  match ev with
  | .dc _ => r
  | .rst _ => r
  | .xfer _ => r
  | .wait _ => r
  | .release => true

/-- The transport's report on the event (60_exceptions.md R309): a free draw for a DC, RST or XFER event. -/
def eventFails (ev : Event) (s : State) : Bool := ev.canFail && s.inputs.fail.headD false

/-- The inputs after an event: one failure report read if the event can fail, and `rst_in` read once. -/
def inputsAfter (ev : Event) (i : Inputs) : Inputs :=
  { i with fail := if ev.canFail then i.fail.tail else i.fail, rst := i.rst.tail }

/-- The state once the event stands in the trace (10_state.md R25, R44): the line registers, `EV_PTR <- EV_PTR + 1`. A failed event
"stands in the trace as attempted, its register update is made" (60_exceptions.md R309). -/
def record (ev : Event) (s : State) : State :=
  { s with
    dcLine := dcAfter ev s.dcLine
    rstLine := rstAfter ev s.rstLine
    released := releasedAfter ev s.released
    evPtr := s.evPtr + 1
    log := ev :: s.log
    panel := if eventFails ev s then Panel.unknown else observe ev s
    inputs := inputsAfter ev s.inputs }

/-- How `emit` ends. -/
inductive Emitted where
  /-- the transport has performed the event -/
  | performed (s : State)
  /-- the transport reported failure -/
  | failed (s : State)
  /-- block reset is asserted right after the event (70_reset_and_hazards.md R341) -/
  | reset (s : State)

/-- `emit(ev)` (10_state.md R44). Block reset may come after any event and goes before a failure report (log 12). -/
def emit (ev : Event) (s : State) : Emitted :=
  if s.rstReads then .reset (record ev s)
  else if eventFails ev s then .failed (record ev s)
  else .performed (record ev s)

/-! ## The fatal path -/

/-- The registers the fatal path writes before it releases the bus (60_exceptions.md R305): "first error wins". -/
def markFatal (code : ErrCode) (s : State) : State :=
  { s with err := if s.err = .ok then code else s.err, halted := true, animActive := false }

/-- `EV_PTR` set to `n`. -/
def State.withPtr (n : Nat) (s : State) : State := { s with evPtr := n }

/-- The rest of the fatal path, its registers marked (60_exceptions.md R305): RELEASE unless released, then the response. R305 names
EV_PTR among the registers that "keep the values they had when the fault was raised" (log 23). -/
def releaseAndRespond (code : ErrCode) (s : State) : State :=
  if s.released then respond .fault (faultValue code) s
  else
    match emit .release s with
    | .reset s' => blockReset s'
    | .failed s' => respond .fault (faultValue code) (s'.withPtr s.evPtr)
    | .performed s' => respond .fault (faultValue code) (s'.withPtr s.evPtr)

/-- `raise Fault(code)` (60_exceptions.md R305), the block's only trap entry. There is no return from it (R315). -/
def raise (code : ErrCode) (s : State) : State := releaseAndRespond code (markFatal code s)

/-! ## Register actions between events -/

/-- What running a piece of a request comes to. -/
inductive Flow where
  /-- the request goes on -/
  | go (s : State)
  /-- the request has ended: a fault was taken or block reset came -/
  | ended (s : State)
  /-- the model stops -/
  | stuck (f : Fault)
deriving DecidableEq, Repr

/-- Go on with `k` if the request goes on. -/
def Flow.andThen : Flow → (State → Flow) → Flow
  | .go s, k => k s
  | .ended s, _ => .ended s
  | .stuck f, _ => .stuck f

/-- The outcome of a step that comes to this. -/
def Flow.toOutcome : Flow → Host.Outcome State Fault Refusal
  | .go s => .next s
  | .ended s => .next s
  | .stuck f => .fault f

/-- The register updates a rule makes right after one of its events. -/
inductive Act where
  /-- after an opcode: open its payload obligation (40_command_protocol_framer.md R121) -/
  | openPayload (op : Byte)
  /-- after a data byte: count it off (R122) -/
  | countOff
  /-- a transition of the init machine is complete (41_display_init_fsm.md R150) -/
  | setInit (st : InitState)
  /-- both range commands are sent: `WIN_VALID <- 1` (42_address_window_adder.md R182) -/
  | windowSent
  /-- a pair of an animation is drawn and waited (45_animation_sequencer.md R251) -/
  | pairDone (len : Nat) (policy : Policy)
  /-- `respond(status, value)` -/
  | answer (st : Status) (v : Word)
deriving DecidableEq, Repr

/-- Open a RAMWR data phase over the window registers, "which hold a value whenever it is reached" (40_command_protocol_framer.md R121); a
register that holds none is read as a fault (10_state.md R21). -/
def openDataPhase (s : State) : Flow :=
  match s.winCs, s.winCe, s.winRs, s.winRe with
  | some cs, some ce, some rs, some re =>
    if cs.toNat ≤ ce.toNat ∧ rs.toNat ≤ re.toNat then
      .go { s with frKind := .stream, frRem := dataPhase cs ce rs re }
    else .stuck .belowZero
  | _, _, _, _ => .stuck .framerContract

/-- The framer after an opcode (40_command_protocol_framer.md R121); it requires `FR_KIND = NONE`. -/
def openPayload (op : Byte) (s : State) : Flow :=
  if s.frKind ≠ .idle then .stuck .framerContract
  else if op = s.cfg.opRamwr then openDataPhase s
  else
    match payloadLen s.cfg op with
    | none => .stuck .framerContract
    | some 0 => .go { s with frKind := .idle, frRem := 0 }
    | some (n + 1) => .go { s with frKind := .fixed, frRem := n + 1 }

/-- The framer after a data byte (40_command_protocol_framer.md R122); it requires `FR_KIND` not NONE. -/
def countOff (s : State) : Flow :=
  if s.frKind = .idle then .stuck .framerContract
  else
    match s.frRem with
    | 0 => .stuck .belowZero
    | 1 => .go { s with frKind := .idle, frRem := 0 }
    | n + 2 => .go { s with frRem := n + 1 }

/-- The end of an animation pair (45_animation_sequencer.md R251, R254, R255). -/
def pairDone (len : Nat) (policy : Policy) (s : State) : State :=
  if s.animIdx + 1 = len then
    match policy with
    | .once => respond .ok 0 { s with animIdx := s.animIdx + 1, animActive := false }
    | .repeating => { s with animIdx := 0 }
  else { s with animIdx := s.animIdx + 1 }

/-- One register action. -/
def act : Act → State → Flow
  | .openPayload op, s => openPayload op s
  | .countOff, s => countOff s
  | .setInit st, s => .go { s with initState := st }
  | .windowSent, s => .go { s with winValid := true }
  | .pairDone len policy, s => .go (pairDone len policy s)
  | .answer st v, s => .go (respond st v s)

/-- Register actions in order. -/
def runActs : List Act → State → Flow
  | [], s => .go s
  | a :: as, s => (act a s).andThen (runActs as)

/-! ## A request's events -/

/-- One bus event of a rule's pseudocode with the register actions up to the next event. -/
structure EvStep where
  ev : Event
  after : List Act
deriving DecidableEq, Repr

/-- One event of a request with all that follows from it: the register actions up to the next event; a failure takes BUS_ERROR "at
once" (60_exceptions.md R309); block reset ends the request. -/
def perform (g : EvStep) (s : State) : Flow :=
  match emit g.ev s with
  | .reset s' => .ended (blockReset s')
  | .failed s' => .ended (raise .busError s')
  | .performed s' => runActs g.after s'

/-- Event steps in order (20_memory.md R73). -/
def runSteps : List EvStep → State → Flow
  | [], s => .go s
  | g :: gs, s => (perform g s).andThen (runSteps gs)

/-- The actions `as` made after the last of the event steps. -/
def thenDo : List EvStep → List Act → List EvStep
  | [], _ => []
  | [g], as => [⟨g.ev, g.after ++ as⟩]
  | g :: g' :: gs, as => g :: thenDo (g' :: gs) as

/-- What a request does once its checks have passed: its events, then its last register actions (the response among them). -/
structure Program where
  steps : List EvStep
  final : List Act
deriving DecidableEq, Repr

/-- Where a running request stands between two steps of 00_scope.md R9, and what remains of it. -/
inductive Plan where
  /-- the next thing is the program's next event -/
  | todo (s : State) (p : Program)
  /-- the next thing is the stop sample of a frame boundary, and then one or the other (45_animation_sequencer.md R253) -/
  | sample (s : State) (stop go : Plan)
  /-- a fault is taken, and the next thing is the fatal path's RELEASE (60_exceptions.md R305) -/
  | trap (code : ErrCode) (s : State)
  /-- `rst_in` is asserted: the next thing is block reset (70_reset_and_hazards.md R341) -/
  | reset (s : State)
  /-- nothing remains before the next acceptance or the next pair -/
  | closed (f : Flow)
deriving DecidableEq, Repr

/-- Run what remains to its end. -/
def Plan.run : Plan → Flow
  | .todo s p => (runSteps p.steps s).andThen (runActs p.final)
  | .sample s stop go => if s.stopReads then stop.run else go.run
  | .trap code s => .ended (releaseAndRespond code s)
  | .reset s => .ended (blockReset s)
  | .closed f => f

/-- After an event's register actions: the program's other events, or its last register actions. -/
def Plan.goOn (rest : List EvStep) (final : List Act) : Flow → Plan
  | .go s =>
    match rest with
    | [] => .closed (runActs final s)
    | g :: gs => .todo s ⟨g :: gs, final⟩
  | .ended s => .closed (.ended s)
  | .stuck f => .closed (.stuck f)

/-- ONE step of 00_scope.md R9 of what remains: one bus event, one stop sample, or a block reset. The register actions and checks up
to the next of these belong to it. -/
def Plan.next : Plan → Plan
  | .todo s p =>
    match p.steps with
    | [] => .closed (runActs p.final s)
    | g :: gs =>
      match emit g.ev s with
      | .reset s' => .reset s'
      | .failed s' => .trap .busError (markFatal .busError s')
      | .performed s' => .goOn gs p.final (runActs g.after s')
  | .sample s stop go => if s.stopReads then stop else go
  | .trap code s =>
    if s.released then .closed (.ended (respond .fault (faultValue code) s))
    else
      match emit .release s with
      | .reset s' => .reset s'
      | .failed s' => .closed (.ended (respond .fault (faultValue code) (s'.withPtr s.evPtr)))
      | .performed s' => .closed (.ended (respond .fault (faultValue code) (s'.withPtr s.evPtr)))
  | .reset s => .closed (.ended (blockReset s))
  | .closed f => .closed f

/-! ## The checks every request shares -/

/-- `HALTED` or `RELEASED`: the state in which every request but READ_STATUS is REFUSED (46_system_requests.md R283). -/
def State.refuses (s : State) : Bool := s.halted || s.released

/-- A REFUSED response (46_system_requests.md R283). -/
def refuse (s : State) : Plan := .closed (.ended (respond .refused 0 s))

/-- The request takes the fatal path (60_exceptions.md R305). -/
def fatal (code : ErrCode) (s : State) : Plan := .trap code (markFatal code s)

end Sys2Proof.Machine
end

