-- ==== Sys2Proof/Machine/Framer.lean ====
section
/-! DEFINITION. Machine/Framer.lean: command_protocol_framer (spec/40_command_protocol_framer.md): the two primitives, `frame`, and
the requests SEND_CMD and SEND_DATA. -/

namespace Sys2Proof.Machine

/-- `send_command(op)` (R121): DC(CMD), then the opcode, then its obligation. -/
def commandSteps (op : Byte) : List EvStep :=
  [⟨.dc .cmd, []⟩, ⟨.xfer op, [.openPayload op]⟩]

/-- `send_data(b)` (R122): DC(DATA), then the byte, then counted off. Each byte has its own DC event (R128). -/
def dataSteps (b : Byte) : List EvStep :=
  [⟨.dc .data, []⟩, ⟨.xfer b, [.countOff]⟩]

/-- `frame(op, payload)` (R127). -/
def frameSteps (op : Byte) (payload : List Byte) : List EvStep :=
  commandSteps op ++ payload.flatMap dataSteps

/-- There is a window to open a RAMWR data phase over: WIN_VALID = 1, and the registers hold a range of columns and one of rows. In every
state a run reaches this is WIN_VALID = 1 (10_state.md R32); where WIN_VALID = 1 stands over registers that hold none or a
reversed range, the model sees no window (log 28). -/
def State.hasWindow (s : State) : Bool :=
  match s.winCs, s.winCe, s.winRs, s.winRe with
  | some cs, some ce, some rs, some re => s.winValid && decide (cs.toNat ≤ ce.toNat) && decide (rs.toNat ≤ re.toNat)
  | _, _, _, _ => false

/-- A bus command run by itself (log 7). Its callers guarantee that no command is open (R121, R124); by itself it takes PROTOCOL before its
first event where one is, as 60_exceptions.md R307 says of the requests that send an opcode (DESIGN CHOICE, log 28). -/
def planCommand (steps : List EvStep) (s : State) : Plan :=
  if s.frKind ≠ .idle then fatal .protocol s else .todo s ⟨steps, []⟩

/-- The events of SEND_CMD (R125). -/
def sendCmdProgram (op : Byte) : Program := ⟨commandSteps op, [.answer .ok 0]⟩

/-- The checks of SEND_CMD, in the order of R125; the last is "PROTOCOL for no window" (60_exceptions.md R313). -/
def planSendCmd (op : Byte) (s : State) : Plan :=
  if s.refuses then refuse s
  else if s.initState ≠ .on then fatal .notReady s
  else if op ≠ s.cfg.opRamwr then fatal .illegalRequest s
  else if s.frKind ≠ .idle then fatal .protocol s
  else if !s.hasWindow then fatal .protocol s
  else .todo s (sendCmdProgram op)

/-- SEND_CMD (R125). -/
def execSendCmd (op : Byte) (s : State) : Host.Outcome State Fault Refusal :=
  (planSendCmd op (accept (.sendCmd op) s)).run.toOutcome

/-- The events of SEND_DATA (R126). -/
def sendDataProgram (b : Byte) : Program := ⟨dataSteps b, [.answer .ok 0]⟩

/-- The checks of SEND_DATA, in the order of R126. -/
def planSendData (b : Byte) (s : State) : Plan :=
  if s.refuses then refuse s
  else if s.initState ≠ .on then fatal .notReady s
  else if s.frKind = .idle then fatal .protocol s
  else .todo s (sendDataProgram b)

/-- SEND_DATA (R126). -/
def execSendData (b : Byte) (s : State) : Host.Outcome State Fault Refusal :=
  (planSendData b (accept (.sendData b) s)).run.toOutcome

end Sys2Proof.Machine
end

