-- ==== Sys2Proof/Machine/Window.lean ====
section
/-! DEFINITION. Machine/Window.lean: address_window_adder (spec/42_address_window_adder.md): the bus commands CASET and RASET,
`set_window`, and the request SET_WINDOW. -/

namespace Sys2Proof.Machine

/-- The column-range command (R183). -/
def casetSteps (cfg : Config) (cs ce : Word) : List EvStep := frameSteps cfg.opCaset (rangePayload cs ce)

/-- The row-range command (R184). -/
def rasetSteps (cfg : Config) (rs re : Word) : List EvStep := frameSteps cfg.opRaset (rangePayload rs re)

/-- The bus command CASET (R183). -/
def execCaset (cs ce : Word) (s : State) : Host.Outcome State Fault Refusal :=
  (planCommand (casetSteps s.cfg cs ce) s).run.toOutcome

/-- The bus command RASET (R184). -/
def execRaset (rs re : Word) (s : State) : Host.Outcome State Fault Refusal :=
  (planCommand (rasetSteps s.cfg rs re) s).run.toOutcome

/-- The register writes that begin `set_window` (R182): WIN_VALID is 0 until both commands are sent (R187). -/
def loadWindow (cs ce rs re : Word) (s : State) : State :=
  { s with winValid := false, winCs := some cs, winCe := some ce, winRs := some rs, winRe := some re }

/-- The 20 events of `set_window` (R182). -/
def setWindowSteps (cfg : Config) (cs ce rs re : Word) : List EvStep :=
  casetSteps cfg cs ce ++ thenDo (rasetSteps cfg rs re) [.windowSent]

/-- The events of SET_WINDOW (R185). -/
def setWindowProgram (cfg : Config) (cs ce rs re : Word) : Program :=
  ⟨setWindowSteps cfg cs ce rs re, [.answer .ok 0]⟩

/-- The checks of SET_WINDOW, in the order of R185. -/
def planSetWindow (cs ce rs re : Word) (s : State) : Plan :=
  if s.refuses then refuse s
  else if s.initState ≠ .on then fatal .notReady s
  else if s.frKind ≠ .idle then fatal .protocol s
  else if !windowOk s.cfg cs ce rs re then fatal .windowRange s
  else .todo (loadWindow cs ce rs re s) (setWindowProgram s.cfg cs ce rs re)

/-- SET_WINDOW (R185). -/
def execSetWindow (cs ce rs re : Word) (s : State) : Host.Outcome State Fault Refusal :=
  (planSetWindow cs ce rs re (accept (.setWindow cs ce rs re) s)).run.toOutcome

end Sys2Proof.Machine
end

