-- ==== Sys2Proof/Machine/Streamer.lean ====
section
/-! DEFINITION. Machine/Streamer.lean: frame_streamer (spec/44_frame_streamer.md): the bus command RAMWR, `draw_frame`, and the
request DRAW_FRAME. -/

namespace Sys2Proof.Machine

/-- The memory-write command (R223): opcode only. -/
def ramwrSteps (cfg : Config) : List EvStep := commandSteps cfg.opRamwr

/-- RAMWR run by itself. R223 and 42_address_window_adder.md R187 say that it is reached only with WIN_VALID = 1; with no window it takes
PROTOCOL before its first event, as 60_exceptions.md R307 says of SEND_CMD RAMWR: "the data-phase length would have no window"
(DESIGN CHOICE, log 28). -/
def planRamwr (s : State) : Plan :=
  if !s.hasWindow then fatal .protocol s else planCommand (ramwrSteps s.cfg) s

/-- The bus command RAMWR (R223). -/
def execRamwr (s : State) : Host.Outcome State Fault Refusal :=
  (planRamwr s).run.toOutcome

/-- One pixel: `send_data(hi8(p))`, `send_data(lo8(p))` (R222; 30_encoding.md R99). -/
def pixelSteps (c : ColorSample) : List EvStep :=
  dataSteps (hi8 (encodeSample c)) ++ dataSteps (lo8 (encodeSample c))

/-- The window of a frame, `(0, w-1, 0, h-1)` (R222; 42_address_window_adder.md R181). DESIGN CHOICE (log 29): of a frame that `draw_check`
refuses, whose side is 0 or above 65536, R181 gives no end; here it is 0, or the 16 low bits. -/
def frameColEnd (f : Frame) : Word := BitVec.ofNat 16 (winEnd 0 f.w)

/-- The last row of a frame's window (log 29 as above). -/
def frameRowEnd (f : Frame) : Word := BitVec.ofNat 16 (winEnd 0 f.h)

/-- The register writes that begin `draw_frame` (R222, by `set_window`). -/
def loadFrameWindow (f : Frame) (s : State) : State :=
  loadWindow 0 (frameColEnd f) 0 (frameRowEnd f) s

/-- The events of `draw_frame` (R222): the window, the memory-write opcode, every pixel in order. -/
def drawSteps (cfg : Config) (f : Frame) (samples : List ColorSample) : List EvStep :=
  setWindowSteps cfg 0 (frameColEnd f) 0 (frameRowEnd f) ++ ramwrSteps cfg ++ samples.flatMap pixelSteps

/-- The events of DRAW_FRAME (R226). -/
def drawProgram (cfg : Config) (f : Frame) (samples : List ColorSample) : Program :=
  ⟨drawSteps cfg f samples, [.answer .ok 0]⟩

/-- `draw_check` and, when it passes, `draw_frame`'s beginning (R221, R222); `mk` is the program over the frame's samples. -/
def planFrame (f : Frame) (mk : List ColorSample → Program) (s : State) : Plan :=
  match drawCheck s.cfg f with
  | some code => fatal code s
  | none =>
    match frameSamples f with
    | none => .closed (.stuck .memRead)
    | some samples => .todo (loadFrameWindow f s) (mk samples)

/-- The checks of DRAW_FRAME, in the order of R226. -/
def planDrawFrame (f : Frame) (s : State) : Plan :=
  if s.refuses then refuse s
  else if s.initState ≠ .on then fatal .notReady s
  else if s.frKind ≠ .idle then fatal .protocol s
  else planFrame f (drawProgram s.cfg f) s

/-- DRAW_FRAME (R226). -/
def execDrawFrame (f : Frame) (s : State) : Host.Outcome State Fault Refusal :=
  (planDrawFrame f (accept (.drawFrame f) s)).run.toOutcome

end Sys2Proof.Machine
end

