-- ==== Sys2Proof/Machine/Animation.lean ====
section
/-! DEFINITION. Machine/Animation.lean: animation_sequencer (spec/45_animation_sequencer.md): the request ANIMATE. It runs pair by
pair: acceptance runs to the end of the first pair, and each further step of the machine from one frame boundary to the next
(R253; log 1), so that a REPEAT that is never stopped (R260) has a next state after every pair. -/

namespace Sys2Proof.Machine

/-- One pair: `draw_frame(f)`, `emit(WAIT(d))`, then the pair is done (R251, R252, R259). -/
def pairProgram (cfg : Config) (f : Frame) (d : Nat) (len : Nat) (policy : Policy) (samples : List ColorSample) : Program :=
  ⟨drawSteps cfg f samples ++ [⟨.wait d, []⟩], [.pairDone len policy]⟩

/-- The request ends on the stop input (R256). -/
def stopped (s : State) : Plan := .closed (.go (respond .stopped 0 { s with animActive := false }))

/-- The pair at ANIM_IDX, from its `draw_check` on (R258). -/
def planPairStart (seq : List (Frame × Nat)) (policy : Policy) (s : State) : Plan :=
  match seq[s.animIdx]? with
  | none => .closed (.stuck .memRead)
  | some (f, d) => planFrame f (pairProgram s.cfg f d seq.length policy) s

/-- A frame boundary (R253): the stop input first, then the pair. -/
def planBoundary (seq : List (Frame × Nat)) (policy : Policy) (s : State) : Plan :=
  .sample s (stopped s.popStop) (planPairStart seq policy s.popStop)

/-- The checks of ANIMATE, in the order of R251, and its first boundary. -/
def planAnimate (seq : List (Frame × Nat)) (policy : Policy) (s : State) : Plan :=
  if s.refuses then refuse s
  else if s.initState ≠ .on then fatal .notReady s
  else if s.frKind ≠ .idle then fatal .protocol s
  else if seq.length = 0 then fatal .illegalRequest s
  else planBoundary seq policy { s with animActive := true, animIdx := 0 }

/-- ANIMATE (R251), from its acceptance to the frame boundary after its first pair or to its response. -/
def execAnimate (seq : List (Frame × Nat)) (policy : Policy) (s : State) : Host.Outcome State Fault Refusal :=
  (planAnimate seq policy (accept (.animate seq policy) s)).run.toOutcome

end Sys2Proof.Machine
end

