-- ==== Sys2Proof/Machine/Init.lean ====
section
/-! DEFINITION. Machine/Init.lean: the initialization state machine (spec/41_display_init_fsm.md): its six transitions, the bus
commands SWRESET, SLPOUT, COLMOD, MADCTL and DISPON, and the request INIT. -/

namespace Sys2Proof.Machine

/-- Transition 1, the hardware reset pulse (R153). -/
def resetPulseSteps (cfg : Config) : List EvStep :=
  [⟨.rst .low, []⟩, ⟨.wait cfg.tRstLow, []⟩, ⟨.rst .high, []⟩, ⟨.wait cfg.tRstHigh, [.setInit .resetting]⟩]

/-- Transition 2 (R154). -/
def swresetSteps (cfg : Config) : List EvStep :=
  frameSteps cfg.opSwreset [] ++ [⟨.wait cfg.tSwreset, [.setInit .softwareReset]⟩]

/-- Transition 3 (R155). -/
def slpoutSteps (cfg : Config) : List EvStep :=
  frameSteps cfg.opSlpout [] ++ [⟨.wait cfg.tSlpout, [.setInit .wakingUp]⟩]

/-- Transition 4 (R156); no wait follows. -/
def colmodSteps (cfg : Config) : List EvStep :=
  thenDo (frameSteps cfg.opColmod [cfg.pixfmt565]) [.setInit .configuringFormat]

/-- Transition 5 (R157); no wait follows. -/
def madctlSteps (cfg : Config) : List EvStep :=
  thenDo (frameSteps cfg.opMadctl [cfg.orient]) [.setInit .configuringOrientation]

/-- Transition 6 (R158). -/
def disponSteps (cfg : Config) : List EvStep :=
  frameSteps cfg.opDispon [] ++ [⟨.wait cfg.tDispon, [.setInit .on]⟩]

/-- The bus command SWRESET (R154). -/
def execSwreset (s : State) : Host.Outcome State Fault Refusal :=
  (planCommand (swresetSteps s.cfg) s).run.toOutcome

/-- The bus command SLPOUT (R155). -/
def execSlpout (s : State) : Host.Outcome State Fault Refusal :=
  (planCommand (slpoutSteps s.cfg) s).run.toOutcome

/-- The bus command COLMOD (R156). -/
def execColmod (s : State) : Host.Outcome State Fault Refusal :=
  (planCommand (colmodSteps s.cfg) s).run.toOutcome

/-- The bus command MADCTL (R157). -/
def execMadctl (s : State) : Host.Outcome State Fault Refusal :=
  (planCommand (madctlSteps s.cfg) s).run.toOutcome

/-- The bus command DISPON (R158). -/
def execDispon (s : State) : Host.Outcome State Fault Refusal :=
  (planCommand (disponSteps s.cfg) s).run.toOutcome

/-- The six transitions in order (R150, R151). -/
def initSteps (cfg : Config) : List EvStep :=
  resetPulseSteps cfg ++ swresetSteps cfg ++ slpoutSteps cfg ++ colmodSteps cfg ++ madctlSteps cfg ++ disponSteps cfg

/-- The events of INIT (R152). -/
def initProgram (cfg : Config) : Program := ⟨initSteps cfg, [.answer .ok 0]⟩

/-- The checks of INIT, in the order of R152; `transport_ok` is read once, after the other two (R164). -/
def planInit (s : State) : Plan :=
  if s.refuses then refuse s
  else if s.initState ≠ .unpowered then fatal .initOrder s
  else if !s.transportReads then fatal .transportInit s.popTransport
  else .todo s.popTransport (initProgram s.cfg)

/-- INIT (R152). -/
def execInit (s : State) : Host.Outcome State Fault Refusal :=
  (planInit (accept .init s)).run.toOutcome

end Sys2Proof.Machine
end

