-- ==== Sys2Proof/Machine/Quantizer.lean ====
section
/-! DEFINITION. Machine/Quantizer.lean: the request ENCODE of the rgb565_quantizer (spec/43_rgb565_quantizer.md R203). The function
itself, which the streamer shares, is `rgb565` in Operands.lean (R200). -/

namespace Sys2Proof.Machine

/-- ENCODE after acceptance (R203): no bus event, no readiness needed. -/
def planEncode (r g b : Byte) (s : State) : Plan :=
  if s.refuses then refuse s
  else .closed (.go (respond .ok (rgb565 r g b) s))

/-- ENCODE (R203). -/
def execEncode (r g b : Byte) (s : State) : Host.Outcome State Fault Refusal :=
  (planEncode r g b (accept (.encode r g b) s)).run.toOutcome

end Sys2Proof.Machine
end

