-- ==== Sys2Proof/Machine/System.lean ====
section
/-! DEFINITION. Machine/System.lean: the system requests (spec/46_system_requests.md): READ_STATUS, RELEASE and the reserved codes. -/

namespace Sys2Proof.Machine

/-- READ_STATUS after acceptance (R280): "answered in every state". -/
def planReadStatus (s : State) : Plan := .closed (.go (respond .ok (statusWord s) s))

/-- READ_STATUS (R280). -/
def execReadStatus (s : State) : Host.Outcome State Fault Refusal :=
  (planReadStatus (accept .readStatus s)).run.toOutcome

/-- The events of RELEASE (R281). -/
def releaseProgram : Program := ⟨[⟨.release, []⟩], [.answer .ok 0]⟩

/-- RELEASE after acceptance (R281). -/
def planRelease (s : State) : Plan :=
  if s.refuses then refuse s else .todo s releaseProgram

/-- RELEASE (R281). -/
def execRelease (s : State) : Host.Outcome State Fault Refusal :=
  (planRelease (accept .release s)).run.toOutcome

/-- A reserved request code after acceptance (R282). -/
def planReserved (s : State) : Plan :=
  if s.refuses then refuse s else fatal .illegalRequest s

/-- Reserved code 0x0 (R282). -/
def execReserved0 (s : State) : Host.Outcome State Fault Refusal :=
  (planReserved (accept .reserved0 s)).run.toOutcome

/-- Reserved code 0xA (R282). -/
def execReservedA (s : State) : Host.Outcome State Fault Refusal :=
  (planReserved (accept .reservedA s)).run.toOutcome

/-- Reserved code 0xB (R282). -/
def execReservedB (s : State) : Host.Outcome State Fault Refusal :=
  (planReserved (accept .reservedB s)).run.toOutcome

/-- Reserved code 0xC (R282). -/
def execReservedC (s : State) : Host.Outcome State Fault Refusal :=
  (planReserved (accept .reservedC s)).run.toOutcome

/-- Reserved code 0xD (R282). -/
def execReservedD (s : State) : Host.Outcome State Fault Refusal :=
  (planReserved (accept .reservedD s)).run.toOutcome

/-- Reserved code 0xE (R282). -/
def execReservedE (s : State) : Host.Outcome State Fault Refusal :=
  (planReserved (accept .reservedE s)).run.toOutcome

/-- Reserved code 0xF (R282). -/
def execReservedF (s : State) : Host.Outcome State Fault Refusal :=
  (planReserved (accept .reservedF s)).run.toOutcome

end Sys2Proof.Machine
end

