-- ==== Sys2Proof/Machine/Dispatch.lean ====
section
/-! DEFINITION. Machine/Dispatch.lean: exec, one arm for each constructor of Instr. -/

namespace Sys2Proof.Machine

def exec (i : Instr) (s : State) : Host.Outcome State Fault Refusal :=
  match i with
  | .init => Sys2Proof.Machine.execInit s
  | .sendCmd op => Sys2Proof.Machine.execSendCmd op s
  | .sendData b => Sys2Proof.Machine.execSendData b s
  | .setWindow cs ce rs re => Sys2Proof.Machine.execSetWindow cs ce rs re s
  | .encode r g b => Sys2Proof.Machine.execEncode r g b s
  | .drawFrame f => Sys2Proof.Machine.execDrawFrame f s
  | .animate seq policy => Sys2Proof.Machine.execAnimate seq policy s
  | .readStatus => Sys2Proof.Machine.execReadStatus s
  | .release => Sys2Proof.Machine.execRelease s
  | .reserved0 => Sys2Proof.Machine.execReserved0 s
  | .reservedA => Sys2Proof.Machine.execReservedA s
  | .reservedB => Sys2Proof.Machine.execReservedB s
  | .reservedC => Sys2Proof.Machine.execReservedC s
  | .reservedD => Sys2Proof.Machine.execReservedD s
  | .reservedE => Sys2Proof.Machine.execReservedE s
  | .reservedF => Sys2Proof.Machine.execReservedF s
  | .swreset => Sys2Proof.Machine.execSwreset s
  | .slpout => Sys2Proof.Machine.execSlpout s
  | .colmod => Sys2Proof.Machine.execColmod s
  | .madctl => Sys2Proof.Machine.execMadctl s
  | .dispon => Sys2Proof.Machine.execDispon s
  | .caset cs ce => Sys2Proof.Machine.execCaset cs ce s
  | .raset rs re => Sys2Proof.Machine.execRaset rs re s
  | .ramwr => Sys2Proof.Machine.execRamwr s

end Sys2Proof.Machine
end

