-- ==== Sys2Proof/Machine/Progress.lean ====
section
/-! DEFINITION. Machine/Progress.lean: going on with the request being executed, from the step pointer (CUR_REQ, EV_PTR)
(spec/10_state.md R25): "the next event is always the next event of the running rule's pseudocode". `resume` runs on to the end
of the request (of the pair, for ANIMATE), which is what a step of the machine does (log 1, log 20). -/

namespace Sys2Proof.Machine

/-- What an accepted request has to do, from its checks on. -/
def planStart : Instr → State → Plan
  | .init, s => planInit s
  | .sendCmd op, s => planSendCmd op s
  | .sendData b, s => planSendData b s
  | .setWindow cs ce rs re, s => planSetWindow cs ce rs re s
  | .encode r g b, s => planEncode r g b s
  | .drawFrame f, s => planDrawFrame f s
  | .animate seq policy, s => planAnimate seq policy s
  | .readStatus, s => planReadStatus s
  | .release, s => planRelease s
  | .reserved0, s => planReserved s
  | .reservedA, s => planReserved s
  | .reservedB, s => planReserved s
  | .reservedC, s => planReserved s
  | .reservedD, s => planReserved s
  | .reservedE, s => planReserved s
  | .reservedF, s => planReserved s
  | .swreset, _ => .closed (.stuck .stepPointer)
  | .slpout, _ => .closed (.stuck .stepPointer)
  | .colmod, _ => .closed (.stuck .stepPointer)
  | .madctl, _ => .closed (.stuck .stepPointer)
  | .dispon, _ => .closed (.stuck .stepPointer)
  | .caset _ _, _ => .closed (.stuck .stepPointer)
  | .raset _ _, _ => .closed (.stuck .stepPointer)
  | .ramwr, _ => .closed (.stuck .stepPointer)

/-- The rest of a program after `done` of its events. -/
def planDrop (done : Nat) (p : Program) (s : State) : Plan :=
  if done ≤ p.steps.length then .todo s ⟨p.steps.drop done, p.final⟩ else .closed (.stuck .stepPointer)

/-- As `planDrop`, for a program over a frame's samples. `draw_check` is not made again: DESIGN CHOICE, log 29. -/
def planDropFrame (done : Nat) (f : Frame) (mk : List ColorSample → Program) (s : State) : Plan :=
  match frameSamples f with
  | none => .closed (.stuck .memRead)
  | some samples => planDrop done (mk samples) s

/-- How many events one pair of an animation emits: `22 + 4 * w * h` (44_frame_streamer.md R222) and its WAIT. -/
def pairEvents (p : Frame × Nat) : Nat := 22 + 4 * p.1.w * p.1.h + 1

/-- How many events the pairs of a list emit. -/
def seqEvents (seq : List (Frame × Nat)) : Nat := (seq.map pairEvents).sum

/-- How many events of the current pair are done: EV_PTR counts the events of the whole request, under REPEAT the passes over
the sequence included (10_state.md R25, R26). DESIGN CHOICE (log 20): an EV_PTR below the events of the pairs before ANIM_IDX, which no
run under ONCE reaches and to which 00_scope.md R14 gives no difference, is read as standing at the pair's frame boundary. -/
def pairOffset (seq : List (Frame × Nat)) (policy : Policy) (idx ptr : Nat) : Nat :=
  match policy with
  | .once => ptr - seqEvents (seq.take idx)
  | .repeating => (ptr + seqEvents seq - seqEvents (seq.take idx)) % seqEvents seq

/-- A running ANIMATE: at a frame boundary, or inside a pair. -/
def planPair (seq : List (Frame × Nat)) (policy : Policy) (s : State) : Plan :=
  if pairOffset seq policy s.animIdx s.evPtr = 0 then planBoundary seq policy s
  else
    match seq[s.animIdx]? with
    | none => .closed (.stuck .memRead)
    | some (f, d) =>
      planDropFrame (pairOffset seq policy s.animIdx s.evPtr) f (pairProgram s.cfg f d seq.length policy) s

/-- What a request that has emitted events has still to do. -/
def planRest : Instr → State → Plan
  | .init, s => planDrop s.evPtr (initProgram s.cfg) s
  | .sendCmd op, s => planDrop s.evPtr (sendCmdProgram op) s
  | .sendData b, s => planDrop s.evPtr (sendDataProgram b) s
  | .setWindow cs ce rs re, s => planDrop s.evPtr (setWindowProgram s.cfg cs ce rs re) s
  | .encode _ _ _, _ => .closed (.stuck .stepPointer)
  | .drawFrame f, s => planDropFrame s.evPtr f (drawProgram s.cfg f) s
  | .animate seq policy, s => if s.animActive then planPair seq policy s else .closed (.stuck .stepPointer)
  | .readStatus, _ => .closed (.stuck .stepPointer)
  | .release, s => planDrop s.evPtr releaseProgram s
  | .reserved0, _ => .closed (.stuck .stepPointer)
  | .reservedA, _ => .closed (.stuck .stepPointer)
  | .reservedB, _ => .closed (.stuck .stepPointer)
  | .reservedC, _ => .closed (.stuck .stepPointer)
  | .reservedD, _ => .closed (.stuck .stepPointer)
  | .reservedE, _ => .closed (.stuck .stepPointer)
  | .reservedF, _ => .closed (.stuck .stepPointer)
  | .swreset, _ => .closed (.stuck .stepPointer)
  | .slpout, _ => .closed (.stuck .stepPointer)
  | .colmod, _ => .closed (.stuck .stepPointer)
  | .madctl, _ => .closed (.stuck .stepPointer)
  | .dispon, _ => .closed (.stuck .stepPointer)
  | .caset _ _, _ => .closed (.stuck .stepPointer)
  | .raset _ _, _ => .closed (.stuck .stepPointer)
  | .ramwr, _ => .closed (.stuck .stepPointer)

/-- What the request being executed has still to do, from the step pointer. -/
def planOf (s : State) : Plan :=
  match s.curReq with
  | none => .closed (.stuck .stepPointer)
  | some i => if s.evPtr = 0 ∧ s.animActive = false then planStart i s else planRest i s

/-- Go on with the request being executed. -/
def resume (s : State) : Flow := (planOf s).run

end Sys2Proof.Machine
end

