-- ==== Sys2Proof/Machine/Fetch.lean ====
section
/-! DEFINITION. Machine/Fetch.lean: what the next step of the machine is about: block reset, a command placed at the framer, the
request being executed, the next request presented, or nothing (spec/10_state.md R42, 70_reset_and_hazards.md R340,
60_exceptions.md R323). -/

namespace Sys2Proof.Machine

/-- What a step finds to do. -/
inductive Fetched where
  /-- this is the next state: block reset was asserted, or the block is idle -/
  | settled (s : State)
  /-- go on with the request being executed -/
  | running (s : State)
  /-- run this instruction -/
  | instr (i : Instr) (s : State)
  /-- the model refuses -/
  | refuse (r : Refusal)

/-- A command placed at the framer (log 7). The window check of 42_address_window_adder.md R186 is its senders', not its own (R183, R184
name no exception but BUS_ERROR), so a range command runs whatever its range (log 25). -/
def fetchCommand (bytes : List Byte) (s : State) : Fetched :=
  match decodeCommand s.cfg bytes with
  | .error e => .refuse (.undecodable e)
  | .ok i => .instr i s.portTaken

/-- The next request the host presents, if any (10_state.md R42): "accepts at most one request at a time, in the order the host
presents them". With none presented the block "idles between requests" (60_exceptions.md R323; log 19). -/
def fetchRequest (s : State) : Fetched :=
  match s.inputs.requests with
  | [] => .settled s
  | bytes :: rest =>
    match decodeRequest bytes with
    | .error e => .refuse (.undecodable e)
    | .ok i => .instr i (s.withRequests rest)

/-- What the step does once `rst_in` has been read false. "While BUSY = 1 no other request is accepted" (10_state.md R24). -/
def fetchRun (s : State) : Fetched :=
  match s.cmdPort with
  | some bytes => fetchCommand bytes s
  | none => if s.busy then .running s else fetchRequest s

/-- What the step does: nothing for an ill-formed build (00_scope.md R12) or one with a wait below its minimum
(93_implementation_defined.md I4), else block reset if `rst_in` reads true. -/
def fetch (s : State) : Fetched :=
  if !s.cfg.wf then .refuse .illFormedConfig
  else if s.rstReads then .settled (blockReset s.popRst)
  else fetchRun s.popRst

/-- A state in which the next step fetches: idle, nothing at the framer, `rst_in` reading false once. -/
def readyToFetch (s : State) : State :=
  { s with busy := false, curReq := none, cmdPort := none, inputs := { s.inputs with rst := false :: s.inputs.rst } }

/-- A packet placed where the next step fetches it: presented by the host, or at the framer. -/
def place (l : EncLevel) (bytes : List Byte) (s : State) : State :=
  match l with
  | .request => s.withRequests (bytes :: s.inputs.requests)
  | .command => { s with cmdPort := some bytes }

end Sys2Proof.Machine
end

