-- ==== Sys2Proof/Machine/Step.lean ====
section
/-! DEFINITION. Machine/Step.lean: one step of the machine. A step runs a whole request, or a whole pair of an ANIMATE, event by
event; a failure report or a block reset between any two of its events cuts it there (log 1). -/

namespace Sys2Proof.Machine

def step (s : State) : Host.Outcome State Fault Refusal :=
  match fetch s with
  | .settled s' => .next s'
  | .running s' => (resume s').toOutcome
  | .instr i s' => exec i s'
  | .refuse r => .refused r

/-- The state with a word of spec/opcode_table.json where the next step fetches its instruction (log 8). -/
def State.withFetchWord (s : State) (nbits w : Nat) : State :=
  place (tableLevel nbits w) (tableBytes s.cfg nbits w) (readyToFetch s)

end Sys2Proof.Machine
end

