-- ==== Sys2Proof/Machine/Events.lean ====
section
/-! DEFINITION. Machine/Events.lean: the block one step of spec/00_scope.md R9 at a time: "the acceptance of a request, the emission of
one bus event, the sampling of the stop input at a frame boundary, or a block reset". `exec` and `step` run the same plans to
their end (log 1). -/

namespace Sys2Proof.Machine

/-- What an instruction does once it is accepted, its checks included. A bus command placed at the framer has no acceptance (log 7). -/
def planned (i : Instr) (s : State) : Plan :=
  match i with
  | .init => planInit (accept .init s)
  | .sendCmd op => planSendCmd op (accept (.sendCmd op) s)
  | .sendData b => planSendData b (accept (.sendData b) s)
  | .setWindow cs ce rs re => planSetWindow cs ce rs re (accept (.setWindow cs ce rs re) s)
  | .encode r g b => planEncode r g b (accept (.encode r g b) s)
  | .drawFrame f => planDrawFrame f (accept (.drawFrame f) s)
  | .animate seq policy => planAnimate seq policy (accept (.animate seq policy) s)
  | .readStatus => planReadStatus (accept .readStatus s)
  | .release => planRelease (accept .release s)
  | .reserved0 => planReserved (accept .reserved0 s)
  | .reservedA => planReserved (accept .reservedA s)
  | .reservedB => planReserved (accept .reservedB s)
  | .reservedC => planReserved (accept .reservedC s)
  | .reservedD => planReserved (accept .reservedD s)
  | .reservedE => planReserved (accept .reservedE s)
  | .reservedF => planReserved (accept .reservedF s)
  | .swreset => planCommand (swresetSteps s.cfg) s
  | .slpout => planCommand (slpoutSteps s.cfg) s
  | .colmod => planCommand (colmodSteps s.cfg) s
  | .madctl => planCommand (madctlSteps s.cfg) s
  | .dispon => planCommand (disponSteps s.cfg) s
  | .caset cs ce => planCommand (casetSteps s.cfg cs ce) s
  | .raset rs re => planCommand (rasetSteps s.cfg rs re) s
  | .ramwr => planRamwr s

/-- The step of a block at rest: block reset, the acceptance of a request, or, for a running ANIMATE at a frame boundary, its stop
sample. With nothing presented it idles (60_exceptions.md R323; log 19). -/
def restStep (s : State) : Host.Outcome Plan Fault Refusal :=
  match fetch s with
  | .settled s' => .next (.closed (.go s'))
  | .running s' => .next (planOf s').next
  | .instr i s' => .next (planned i s')
  | .refuse r => .refused r

/-- One step of 00_scope.md R9. -/
def eventStep : Plan → Host.Outcome Plan Fault Refusal
  | .closed (.go s) => restStep s
  | .closed (.ended s) => restStep s
  | .closed (.stuck f) => .fault f
  | .todo s p => .next (Plan.todo s p).next
  | .sample s stop go => .next (Plan.sample s stop go).next
  | .trap code s => .next (Plan.trap code s).next
  | .reset s => .next (Plan.reset s).next

/-- `n` steps of R9. -/
def eventRun : Nat → Plan → Host.Outcome Plan Fault Refusal
  | 0, p => .next p
  | n + 1, p =>
    match eventStep p with
    | .next q => eventRun n q
    | .fault f => .fault f
    | .refused r => .refused r

/-- The state a block at rest is in: between two requests, or between two pairs of an ANIMATE. -/
def Plan.atRest : Plan → Option State
  | .closed (.go s) => some s
  | .closed (.ended s) => some s
  | .closed (.stuck _) => none
  | .todo _ _ => none
  | .sample _ _ _ => none
  | .trap _ _ => none
  | .reset _ => none

/-- The block's registers, wherever it stands. -/
def Plan.state : Plan → Option State
  | .todo s _ => some s
  | .sample s _ _ => some s
  | .trap _ s => some s
  | .reset s => some s
  | .closed (.go s) => some s
  | .closed (.ended s) => some s
  | .closed (.stuck _) => none

end Sys2Proof.Machine
end

