-- ==== Sys2Proof/Machine/Notation.lean ====
section
/-! DEFINITION. Machine/Notation.lean: the spec's written forms (spec/30_encoding.md R103 to R105): the trace abbreviations CMD and
DATA, the traces of the block's sequences, the two pseudo-requests, and a request as its assembler line. -/

namespace Sys2Proof.Machine

/-! ## Traces (R105) -/

/-- `DATA [d0, d1, ...]`. -/
def dataTrace (ds : List Byte) : List Event := ds.flatMap fun d => [.dc .data, .xfer d]

/-- `CMD op [p0, p1, ...]`. -/
def cmdTrace (op : Byte) (ps : List Byte) : List Event := [.dc .cmd, .xfer op] ++ dataTrace ps

/-- The 21 events of a successful INIT (41_display_init_fsm.md R159), with the build's parameters. -/
def initTrace (c : Config) : List Event :=
  [.rst .low, .wait c.tRstLow, .rst .high, .wait c.tRstHigh]
    ++ cmdTrace c.opSwreset [] ++ [.wait c.tSwreset]
    ++ cmdTrace c.opSlpout [] ++ [.wait c.tSlpout]
    ++ cmdTrace c.opColmod [c.pixfmt565]
    ++ cmdTrace c.opMadctl [c.orient]
    ++ cmdTrace c.opDispon [] ++ [.wait c.tDispon]

/-- The 20 events of `set_window` (42_address_window_adder.md R182). -/
def windowTrace (c : Config) (cs ce rs re : Word) : List Event :=
  cmdTrace c.opCaset [hi8 cs, lo8 cs, hi8 ce, lo8 ce] ++ cmdTrace c.opRaset [hi8 rs, lo8 rs, hi8 re, lo8 re]

/-- The data-phase bytes of ColorSamples, high byte first (30_encoding.md R99). -/
def pixelBytes (samples : List ColorSample) : List Byte :=
  samples.flatMap fun c => [hi8 (encodeSample c), lo8 (encodeSample c)]

/-- The `22 + 4 * w * h` events of `draw_frame` (44_frame_streamer.md R222). -/
def drawTrace (c : Config) (f : Frame) (samples : List ColorSample) : List Event :=
  windowTrace c 0 (frameColEnd f) 0 (frameRowEnd f) ++ cmdTrace c.opRamwr [] ++ dataTrace (pixelBytes samples)

/-! ## Pseudo-requests (R104) -/

/-- `SEND_PIXEL p`. -/
def sendPixel (p : Word) : List Instr := [.sendData (hi8 p), .sendData (lo8 p)]

/-- `FILL_WINDOW cs, ce, rs, re, r, g, b`: `(ce - cs + 1) * (re - rs + 1)` pixels. DESIGN CHOICE (log 27): R104 has no check, so for a
reversed range it gives no number (00_scope.md R14); the model counts a reversed range as one column or row. -/
def fillWindow (c : Config) (cs ce rs re : Word) (r g b : Byte) : List Instr :=
  [.setWindow cs ce rs re, .sendCmd c.opRamwr]
    ++ (List.replicate ((ce.toNat - cs.toNat + 1) * (re.toNat - rs.toNat + 1)) (sendPixel (rgb565 r g b))).flatten

/-! ## Assembler lines (R103) -/

/-- A list in brackets. -/
def bracketed (items : List String) : String := "[" ++ ", ".intercalate items ++ "]"

/-- Operands, separated by commas. -/
def numbers (ns : List Nat) : String := ", ".intercalate (ns.map toString)

/-- A ColorSample, `(r,g,b)`. -/
def sampleText (c : ColorSample) : String :=
  "(" ++ toString c.r.toNat ++ "," ++ toString c.g.toNat ++ "," ++ toString c.b.toNat ++ ")"

/-- A frame: `Direct(w, h, [...])` or `Indexed(w, h, [...], [...])`, with `!bad` when it could not be decoded. -/
def frameText (f : Frame) : String :=
  (match f.src with
    | .direct pixels => "Direct(" ++ numbers [f.w, f.h] ++ ", " ++ bracketed (pixels.map sampleText) ++ ")"
    | .indexed indices palette =>
      "Indexed(" ++ numbers [f.w, f.h] ++ ", " ++ bracketed (indices.map toString) ++ ", "
        ++ bracketed (palette.map sampleText) ++ ")")
    ++ (if f.ok then "" else " !bad")

/-- The policy's word. -/
def policyText : Policy → String
  | .once => "ONCE"
  | .repeating => "REPEAT"

/-- The line of a request; a reserved code and a bus command have none. -/
def requestLine : Instr → Option String
  | .init => some "INIT"
  | .sendCmd op => some ("SEND_CMD " ++ numbers [op.toNat])
  | .sendData b => some ("SEND_DATA " ++ numbers [b.toNat])
  | .setWindow cs ce rs re => some ("SET_WINDOW " ++ numbers [cs.toNat, ce.toNat, rs.toNat, re.toNat])
  | .encode r g b => some ("ENCODE " ++ numbers [r.toNat, g.toNat, b.toNat])
  | .drawFrame f => some ("DRAW_FRAME " ++ frameText f)
  | .animate seq policy =>
    some ("ANIMATE " ++ policyText policy ++ ", "
      ++ bracketed (seq.map fun p => "(" ++ frameText p.1 ++ ", " ++ toString p.2 ++ ")"))
  | .readStatus => some "READ_STATUS"
  | .release => some "RELEASE"
  | .reserved0 => none
  | .reservedA => none
  | .reservedB => none
  | .reservedC => none
  | .reservedD => none
  | .reservedE => none
  | .reservedF => none
  | .swreset => none
  | .slpout => none
  | .colmod => none
  | .madctl => none
  | .dispon => none
  | .caset _ _ => none
  | .raset _ _ => none
  | .ramwr => none

end Sys2Proof.Machine
end

