-- ==== Sys2Proof/Safety.lean ====
section
/-! DEFINITION. Safety.lean: what counts as a good state and a quiet run, in the terms the statements use. -/

namespace Sys2Proof.Machine

/-! ## Quiet inputs -/

/-- The next `n` values of a schedule read false. -/
def quiet (n : Nat) (l : List Bool) : Bool := (l.take n).all fun b => !b

/-- No transport failure at the next `fails` events that can fail, and no block reset at the next `resets` points. -/
def State.calm (fails resets : Nat) (s : State) : Prop :=
  quiet fails s.inputs.fail = true ∧ quiet resets s.inputs.rst = true

/-- The inputs after that many readings. -/
def Inputs.after (fails resets : Nat) (i : Inputs) : Inputs :=
  { i with fail := i.fail.drop fails, rst := i.rst.drop resets }

/-- Neither halted nor released: the block takes requests. -/
def State.takes (s : State) : Prop := s.halted = false ∧ s.released = false

/-- Ready for a bus request: the block takes requests, INIT is complete and no command is open. -/
def State.ready (s : State) : Prop := s.takes ∧ s.initState = .on ∧ s.frKind = .idle

/-! ## Frames and sequences -/

/-- The samples a frame shows, in row-major order from the top-left (44_frame_streamer.md R220, R224; 20_memory.md R62). -/
def showsRaster (f : Frame) (samples : List ColorSample) : Prop :=
  samples.length = f.w * f.h ∧ ∀ x y, x < f.w → y < f.h → samples[y * f.w + x]? = resolve f x y

/-- The byte addresses of the pixels of a `w` by `h` frame at the panel's top left. -/
def inFrame (w h a : Nat) : Prop := ∃ x y, x < w ∧ y < h ∧ (a = gramAddr x y ∨ a = gramAddr x y + 1)

/-- What the panel holds once frame `f` is drawn from state `s` (20_memory.md R70): with ORIENT = 0 every pixel of the frame is its
sample, encoded, and every byte outside the frame is as before (or not known, if a half pair stood: log 14); under another
ORIENT nothing is known. -/
def panelShows (s : State) (f : Frame) (p : Panel) : Prop :=
  if s.cfg.orient = 0 then
    p.cursor = some (0, f.h) ∧ p.half = none ∧
    (∀ x y, x < f.w → y < f.h → gramPixel p.gram x y = (resolve f x y).map encodeSample) ∧
    ∀ a, ¬ inFrame f.w f.h a → p.gram.read a = if s.panel.half = none then s.panel.gram.read a else none
  else p = Panel.unknown

/-- The events of one pair of an animation: its frame drawn, its delay waited (45_animation_sequencer.md R252, R259). -/
def pairTrace (c : Config) (p : Frame × Nat) : List Event :=
  match frameSamples p.1 with
  | some samples => drawTrace c p.1 samples ++ [.wait p.2]
  | none => []

/-- The events of a sequence drawn once. -/
def sequenceTrace (c : Config) (seq : List (Frame × Nat)) : List Event := seq.flatMap (pairTrace c)

/-! ## What a fault leaves -/

/-- The state after a request faults before any of its events, from a state that takes requests: the first code recorded, HALTED,
RELEASE emitted, FAULT responded (60_exceptions.md R305), and nothing else changed; EV_PTR keeps the 0 of the acceptance (R305, log 23).
`used` are the inputs read by then. -/
def faulted (code : ErrCode) (value : Word) (used : Inputs) (s : State) : State :=
  { s with
    busy := false
    curReq := none
    evPtr := 0
    err := if s.err = .ok then code else s.err
    halted := true
    released := true
    animActive := false
    log := .release :: s.log
    responses := ⟨.fault, value⟩ :: s.responses
    inputs := { used with rst := used.rst.tail } }

/-- The registers of block reset (70_reset_and_hazards.md R340): everything but the configuration, what the outside has seen
and what it will drive. -/
def State.freshlyReset (t : State) : Prop :=
  t = { State.reset with cfg := t.cfg, log := t.log, responses := t.responses, inputs := t.inputs }

/-! ## Trace discipline -/

/-- Line discipline (40_command_protocol_framer.md R123) of a log, newest event first: every XFER is immediately preceded by a
DC event, and a byte sent at command is one of the eight opcodes (30_encoding.md R95). -/
def disciplined (c : Config) : List Event → Bool
  | [] => true
  | .xfer b :: .dc .cmd :: es => c.opcodes.contains b && disciplined c es
  | .xfer _ :: .dc .data :: es => disciplined c es
  | .xfer _ :: _ => false
  | .dc _ :: es => disciplined c es
  | .rst _ :: es => disciplined c es
  | .wait _ :: es => disciplined c es
  | .release :: es => disciplined c es

/-! ## Good states -/

/-- The framer's two registers agree: "FR_REM = 0 never stands with FR_KIND other than NONE" (10_state.md R29). -/
def State.framerAgrees (s : State) : Prop := s.frKind = .idle ↔ s.frRem = 0

/-- The window registers hold a window inside the panel (10_state.md R32). -/
def State.windowHeld (s : State) : Prop :=
  ∃ cs ce rs re, s.winCs = some cs ∧ s.winCe = some ce ∧ s.winRs = some rs ∧ s.winRe = some re ∧
    windowOk s.cfg cs ce rs re = true

/-- A running ANIMATE that stands at a frame boundary (45_animation_sequencer.md R253). -/
def State.atBoundary (s : State) : Prop :=
  ∃ seq policy, s.curReq = some (.animate seq policy) ∧ s.animActive = true ∧ s.animIdx < seq.length ∧
    0 < s.evPtr ∧ pairOffset seq policy s.animIdx s.evPtr = 0

/-- What holds in every state a run from reset reaches, between two steps of the machine. -/
structure State.Good (s : State) : Prop where
  /-- 10_state.md R29 -/
  framer : s.framerAgrees
  /-- 10_state.md R32 -/
  window : s.winValid = true → s.windowHeld
  /-- only a halted block stands between Unpowered and On (41_display_init_fsm.md R161) -/
  settledInit : s.halted = false → s.initState = .unpowered ∨ s.initState = .on
  /-- no command is open before On but in a halted block -/
  closed : s.halted = false → s.frKind ≠ .idle → s.initState = .on ∧ s.frKind = .stream
  /-- a window is sent only in On -/
  windowOn : s.winValid = true → s.initState = .on
  /-- 10_state.md R30: a code is recorded exactly when halted -/
  errHalted : s.halted = true ↔ s.err ≠ .ok
  /-- 60_exceptions.md R305: a halted block has released the bus -/
  haltedReleased : s.halted = true → s.released = true
  /-- 10_state.md R26, R41: an idle block has no request and no animation -/
  idle : s.busy = false → s.curReq = none ∧ s.animActive = false
  /-- a busy block, between two steps, runs an ANIMATE that stands at a frame boundary -/
  running : s.busy = true → s.atBoundary ∧ s.initState = .on ∧ s.frKind = .idle ∧ s.takes
  /-- the GRAM cells keep their canonical form -/
  gram : s.panel.gram.wf = true
  /-- 40_command_protocol_framer.md R123 -/
  line : disciplined s.cfg s.log = true
  /-- no command is placed at the framer from outside (log 7) -/
  port : s.cmdPort = none

end Sys2Proof.Machine
end

