-- ==== Sys2Proof/Certificates/Slice0/Obligations.lean ====
section
/-! DEFINITION. Certificates/Slice0/Obligations.lean: the statements for the provers. A rule R<n> is spec/'s; a log <n> is
notes/assumptions/<n>.md.

`s.calm a b` says that the next `a` events that can fail do not, and that block reset does not come at the next `b` points where it
is read; without it an event may fail or be the last one before block reset: BlockResetCutsARequestAtAnyEvent,
FailedEventTakesBusError and DisturbedTraceIsACutTrace say what happens then. -/

open Sys2Proof Sys2Proof.Machine

/-! ## Bytes and instructions -/

/-- Words written out from the encoding tables: 30_encoding.md R91, R92 with the byte form of log 4; R95, R97, R98. -/
def Obligations.SampleWordsDecodeToTheirInstructions : Prop :=
  decodeRequest [0x01] = .ok .init ∧
  decodeRequest [0x02, 0x2C] = .ok (.sendCmd 0x2C) ∧
  decodeRequest [0x04, 0x00, 0x0A, 0x01, 0x3F, 0x00, 0x05, 0x00, 0x05] = .ok (.setWindow 10 319 5 5) ∧
  decodeRequest [0x05, 0x12, 0x34, 0x56] = .ok (.encode 0x12 0x34 0x56) ∧
  decodeRequest [0x0F] = .ok .reservedF ∧
  decodeRequest [0x10] = .error (.badHeader 0x10) ∧
  decodeCommand Config.default [0x2A, 0x00, 0x00, 0x00, 0x01] = .ok (.caset 0 1) ∧
  decodeCommand Config.default [0x2B, 0x00, 0x00, 0x01, 0x3F] = .ok (.raset 0 319) ∧
  decodeCommand Config.default [0x3A, 0x55] = .ok .colmod ∧
  decodeCommand Config.default [0x2C] = .ok .ramwr ∧
  decodeCommand Config.default [0x28] = .error (.unknownOpcode 0x28)

/-- In every well-formed build, decoding what `encode` writes gives the instruction back, whatever its operands. -/
def Obligations.DecodeReadsBackEveryEncoding : Prop :=
  ∀ (c : Config) (i : Instr), c.wf = true → decode c i.level (encode c i) = .ok i

/-- Bytes that decode are the encoding of what they decode to; only a reserved request code ignores what follows it (46 R282). -/
def Obligations.DecodedBytesAreTheEncoding : Prop :=
  ∀ (c : Config) (l : EncLevel) (bytes : List Byte) (i : Instr), c.wf = true → decode c l bytes = .ok i →
    i.level = l ∧ (i.reserved = false → encode c i = bytes)

/-! ## What a step runs -/

/-- An idle block accepts the first request presented and runs it (R42); the step reads `rst_in` once and takes the packet off
the list of those presented. -/
def Obligations.StepRunsThePresentedRequest : Prop :=
  ∀ (s : State) (bytes : List Byte) (rest : List (List Byte)) (i : Instr),
    s.cfg.wf = true → s.rstReads = false → s.cmdPort = none → s.busy = false →
    s.inputs.requests = bytes :: rest → decodeRequest bytes = .ok i →
    step s = exec i { s with inputs := { s.inputs with requests := rest, rst := s.inputs.rst.tail } }

/-- A bus command placed at the framer is run by itself (log 7). -/
def Obligations.StepRunsTheCommandAtTheFramer : Prop :=
  ∀ (s : State) (bytes : List Byte) (i : Instr),
    s.cfg.wf = true → s.rstReads = false → s.cmdPort = some bytes → decodeCommand s.cfg bytes = .ok i →
    step s = exec i { s with cmdPort := none, inputs := { s.inputs with rst := s.inputs.rst.tail } }

/-- A word of spec/opcode_table.json placed where the next step fetches is what that step runs. -/
def Obligations.StepRunsThePlacedTableWord : Prop :=
  ∀ (s : State) (nbits w : Nat) (i : Instr), s.cfg.wf = true →
    decode s.cfg (tableLevel nbits w) (tableBytes s.cfg nbits w) = .ok i →
    step (s.withFetchWord nbits w) = exec i { s with busy := false, curReq := none, cmdPort := none }

/-- While a request is being executed no other is accepted: it stays presented (R24, R42). That it stays presented when block reset comes
in that step too, where R341 has the host present it again, is the model's choice (log 10). -/
def Obligations.BusyBlockLeavesRequestsPresented : Prop :=
  ∀ s t : State, s.busy = true → step s = .next t → t.inputs.requests = s.inputs.requests

/-- Where a step does not run anything: with nothing presented the block idles (60 R323; log 19); a build that is ill-formed (R12) or has
a wait below its minimum (93 I4) is refused, and so are bytes that are no instruction, presented or at the framer (log 21). -/
def Obligations.StepIdlesOrRefuses : Prop :=
  ∀ s : State,
    (s.cfg.wf = false → step s = .refused .illFormedConfig) ∧
    (s.cfg.wf = true → s.rstReads = false → s.cmdPort = none → s.busy = false → s.inputs.requests = [] →
      step s = .next { s with inputs := { s.inputs with rst := s.inputs.rst.tail } }) ∧
    (∀ bytes rest e, s.cfg.wf = true → s.rstReads = false → s.cmdPort = none → s.busy = false →
      s.inputs.requests = bytes :: rest → decodeRequest bytes = .error e → step s = .refused (.undecodable e)) ∧
    (∀ bytes e, s.cfg.wf = true → s.rstReads = false → s.cmdPort = some bytes → decodeCommand s.cfg bytes = .error e →
      step s = .refused (.undecodable e))

/-- A step of the machine is a run of the steps of 00_scope.md R9 (an acceptance, one bus event, one stop sample, a block reset), from
a block at rest to the next state at rest, with none at rest between; a stop of the model is reached the same way. ANIMATE is
no exception. That the machine's own step is such a run is the model's choice (log 1). -/
def Obligations.MachineStepIsItsEventSteps : Prop :=
  ∀ s : State, ∃ n,
    (∀ m p, 0 < m → m ≤ n → eventRun m (.closed (.go s)) = .next p → p.atRest = none) ∧
    (∀ t, step s = .next t → ∃ p, eventRun (n + 1) (.closed (.go s)) = .next p ∧ p.atRest = some t) ∧
    (∀ f, step s = .fault f → eventRun (n + 1) (.closed (.go s)) = .fault f) ∧
    (∀ r, step s = .refused r → eventRun (n + 1) (.closed (.go s)) = .refused r)

/-- What one step of 00_scope.md R9 does, wherever a run of such steps has come to: at most one bus event and one response; a request is
taken, and the stop input is read, only by a step without an event. -/
def Obligations.EventStepDoesOneThing : Prop :=
  ∀ (s₀ : State) (n : Nat) (p q : Plan) (s t : State), eventRun n (.closed (.go s₀)) = .next p → eventStep p = .next q →
    p.state = some s → q.state = some t →
    (t.log = s.log ∨ ∃ ev, t.log = ev :: s.log) ∧
    (t.responses = s.responses ∨ ∃ r, t.responses = r :: s.responses) ∧
    (t.inputs.requests = s.inputs.requests ∨
      (p.atRest = some s ∧ (∃ bytes, s.inputs.requests = bytes :: t.inputs.requests) ∧ t.log = s.log ∧
        t.inputs.stop = s.inputs.stop)) ∧
    (t.inputs.stop = s.inputs.stop ∨ (t.inputs.stop = s.inputs.stop.tail ∧ t.log = s.log))

/-- The step pointer names the next event (R25): once a request has emitted an event, what it has still to do is what CUR_REQ and EV_PTR
say (for ANIMATE with ANIM_IDX; the premise says that EV_PTR has counted the pairs before). -/
def Obligations.PointerNamesTheNextEvent : Prop :=
  ∀ (s u v : State) (i : Instr) (todo rest : Program), s.curReq = some i →
    (∀ seq, i = .animate seq .once → s.animActive = true → seqEvents (seq.take s.animIdx) ≤ s.evPtr) →
    (planOf s = .todo u todo ∨ ∃ w stop, planOf s = .sample w stop (.todo u todo)) →
    (Plan.todo u todo).next = .todo v rest → planOf v = .todo v rest

/-! ## Reset -/

/-- R340, whole: block reset, from any state of a well-formed build; also R341's "without a response and without another event". -/
def Obligations.BlockResetSetsEveryRegister : Prop :=
  ∀ s : State, s.cfg.wf = true → s.rstReads = true →
    ∃ t, step s = .next t ∧
      t.initState = .unpowered ∧ t.busy = false ∧ t.curReq = none ∧ t.evPtr = 0 ∧ t.dcLine = .undriven ∧
      t.rstLine = .undriven ∧ t.frKind = .idle ∧ t.frRem = 0 ∧ t.winCs = none ∧ t.winCe = none ∧ t.winRs = none ∧
      t.winRe = none ∧ t.winValid = false ∧ t.err = .ok ∧ t.halted = false ∧ t.released = false ∧ t.animIdx = 0 ∧
      t.animActive = false ∧ statusWord t = 0x0000 ∧ t.cfg = s.cfg ∧ t.log = s.log ∧ t.responses = s.responses

/-- Block reset right after an event of a running request ends it there: the event stands in the trace, there is no response and no
other event, and every register is at its reset value (R341), even if the transport reported a failure of that event (log 12). -/
def Obligations.BlockResetCutsARequestAtAnyEvent : Prop :=
  ∀ (g : EvStep) (s : State), s.rstReads = true →
    ∃ t, perform g s = .ended t ∧ t.freshlyReset ∧ t.cfg = s.cfg ∧ t.log = g.ev :: s.log ∧ t.responses = s.responses

/-- The state after reset is a good state (R21, R340). -/
def Obligations.ResetStateIsGood : Prop := State.reset.Good

/-! ## What every step keeps -/

/-- Every step from a good state is refused or answers a good state. No step from one stops by a fault of the model: no register that
holds none is read (R21), no `requires` of the framer is broken (R124), no subtraction goes below zero (R14), no read falls
outside its list (R62). -/
def Obligations.StepKeepsGoodStates : Prop :=
  ∀ s : State, s.Good → (∃ r, step s = .refused r) ∨ ∃ t, step s = .next t ∧ t.Good

/-- The configuration is constant while the block runs (R36), and the GRAM cells keep their canonical form, whatever runs (log 15). -/
def Obligations.StepKeepsTheConfigurationAndTheCells : Prop :=
  ∀ s t : State, step s = .next t → t.cfg = s.cfg ∧ (s.panel.gram.wf = true → t.panel.gram.wf = true)

/-- "FR_REM = 0 never stands with FR_KIND other than NONE", and FR_KIND = NONE only with FR_REM = 0 (R29). -/
def Obligations.StepKeepsFramerAgreement : Prop :=
  ∀ s t : State, s.framerAgrees → step s = .next t → t.framerAgrees

/-- ERR and HALTED are sticky until block reset (R30, R315), and "after release the block emits no further bus event until block reset"
(R31), whether a fault or RELEASE released it. -/
def Obligations.HaltedOrReleasedBlockStaysSo : Prop :=
  ∀ s t : State, s.Good → s.rstReads = false → step s = .next t →
    (s.halted = true →
      t.halted = true ∧ t.err = s.err ∧ t.released = true ∧ t.log = s.log ∧ t.initState = s.initState) ∧
    (s.released = true → t.released = true ∧ t.log = s.log)

/-- Only INIT moves INIT_STATE, from Unpowered and upwards; block reset alone lowers it (R23, R151): of a request by itself in any state,
and of every step from a good state, the later pairs of an ANIMATE included. -/
def Obligations.OnlyInitMovesInitState : Prop :=
  (∀ (i : Instr) (s t : State), i.level = .request → i ≠ .init → exec i s = .next t →
    t.initState = s.initState ∨ t.freshlyReset) ∧
  (∀ s t : State, s.Good → step s = .next t →
    t.initState = s.initState ∨ t.freshlyReset ∨
      ∃ bytes rest, s.busy = false ∧ s.inputs.requests = bytes :: rest ∧ decodeRequest bytes = .ok .init ∧
        s.initState = .unpowered ∧ s.initState.code.toNat < t.initState.code.toNat)

/-- Line discipline (R123) of the trace: no request breaks it, in any state and whatever fails. -/
def Obligations.RequestsKeepLineDiscipline : Prop :=
  ∀ (i : Instr) (s t : State), i.level = .request → disciplined s.cfg s.log = true →
    exec i s = .next t → disciplined s.cfg t.log = true

/-! ## Faults -/

/-- R305: what the fatal path saves and where it goes. Everything it does not name keeps its value, EV_PTR too (log 23: R305 is
followed where R25 would count the RELEASE); a block that has released the bus emits nothing; and block reset right after the
RELEASE leaves no response (R341). -/
def Obligations.FatalPathRecordsReleasesAndHalts : Prop :=
  ∀ (code : ErrCode) (s : State),
    (s.released = false → s.rstReads = false →
      raise code s = { s with
        err := if s.err = .ok then code else s.err
        halted := true
        animActive := false
        released := true
        log := .release :: s.log
        busy := false
        curReq := none
        responses := ⟨.fault, code.code.zeroExtend 16⟩ :: s.responses
        inputs := { s.inputs with rst := s.inputs.rst.tail } }) ∧
    (s.released = true →
      raise code s = { s with
        err := if s.err = .ok then code else s.err
        halted := true
        animActive := false
        busy := false
        curReq := none
        responses := ⟨.fault, code.code.zeroExtend 16⟩ :: s.responses }) ∧
    (s.released = false → s.rstReads = true →
      (raise code s).freshlyReset ∧ (raise code s).cfg = s.cfg ∧ (raise code s).log = .release :: s.log ∧
        (raise code s).responses = s.responses)

/-- R309: on a failure report of a DC, RST or XFER event the event stands in the trace, its line register is written, and BUS_ERROR is
taken at once; nothing is known of the panel after it (log 14); EV_PTR counts the event and not the RELEASE (R305, log 23). A WAIT is
performed whatever the transport would report. -/
def Obligations.FailedEventTakesBusError : Prop :=
  ∀ (g : EvStep) (s : State),
    (g.ev.canFail = true → s.inputs.fail.headD false = true → s.released = false → s.err = .ok → quiet 2 s.inputs.rst = true →
      perform g s = .ended { s with
        dcLine := dcAfter g.ev s.dcLine
        rstLine := rstAfter g.ev s.rstLine
        evPtr := s.evPtr + 1
        log := .release :: g.ev :: s.log
        err := .busError
        halted := true
        animActive := false
        released := true
        busy := false
        curReq := none
        responses := ⟨.fault, 9⟩ :: s.responses
        panel := Panel.unknown
        inputs := s.inputs.after 1 2 }) ∧
    (∀ ms, g = ⟨.wait ms, []⟩ → quiet 1 s.inputs.rst = true →
      perform g s = .go { s with
        evPtr := s.evPtr + 1
        log := .wait ms :: s.log
        inputs := s.inputs.after 0 1 })

/-- Failures and resets only cut a run (R314, R341): its trace is the undisturbed one up to some event, with at most the fatal path's
RELEASE after it. Of every instruction in any state, and of every step from a good state, the later pairs of an ANIMATE
included. -/
def Obligations.DisturbedTraceIsACutTrace : Prop :=
  ∀ s t u : State,
    (∃ i, exec i s = .next t ∧ exec i { s with inputs := { s.inputs with fail := [], rst := [] } } = .next u) ∨
      (s.Good ∧ step s = .next t ∧ step { s with inputs := { s.inputs with fail := [], rst := [] } } = .next u) →
    ∃ l, l <:+ u.log ∧ s.log <:+ l ∧ (t.log = l ∨ t.log = .release :: l)

/-- A halted or released block answers every request but READ_STATUS by REFUSED, with no event and no register changed (R283); EV_PTR is
0 from the acceptance (R42; log 9). -/
def Obligations.RefusedWhenHaltedOrReleased : Prop :=
  ∀ (i : Instr) (s : State), i.level = .request → i ≠ .readStatus → (s.halted = true ∨ s.released = true) →
    exec i s = .next { s with
      busy := false
      curReq := none
      evPtr := 0
      responses := ⟨.refused, 0⟩ :: s.responses }

/-- A reserved request code takes ILLEGAL_REQUEST (R282). -/
def Obligations.ReservedCodesTakeIllegalRequest : Prop :=
  ∀ (i : Instr) (s : State), i.reserved = true → s.takes → quiet 1 s.inputs.rst = true →
    exec i s = .next (faulted .illegalRequest 6 s.inputs s)

/-- SEND_CMD, SEND_DATA, SET_WINDOW, DRAW_FRAME and ANIMATE before On take NOT_READY (R304). -/
def Obligations.BusRequestBeforeOnTakesNotReady : Prop :=
  ∀ (i : Instr) (s : State), i.needsOn = true → s.takes → s.initState ≠ .on → quiet 1 s.inputs.rst = true →
    exec i s = .next (faulted .notReady 3 s.inputs s)

/-- INIT when not Unpowered takes INIT_ORDER (R311); Unpowered with the transport not ready, TRANSPORT_INIT after one reading (R164,
R302). -/
def Obligations.InitOrderAndTransportFaults : Prop :=
  ∀ s : State, s.takes → quiet 1 s.inputs.rst = true →
    (s.initState ≠ .unpowered → exec .init s = .next (faulted .initOrder 8 s.inputs s)) ∧
    (s.initState = .unpowered → s.transportReads = false →
      exec .init s =
        .next (faulted .transportInit 1 { s.inputs with transportOk := s.inputs.transportOk.tail } s))

/-- The faults of SEND_CMD and SEND_DATA in On, in the order of R125 and R126. -/
def Obligations.RawRequestFaults : Prop :=
  ∀ (op b : Byte) (s : State), s.takes → s.initState = .on → quiet 1 s.inputs.rst = true →
    (op ≠ s.cfg.opRamwr → exec (.sendCmd op) s = .next (faulted .illegalRequest 6 s.inputs s)) ∧
    (op = s.cfg.opRamwr → (s.frKind ≠ .idle ∨ s.winValid = false) →
      exec (.sendCmd op) s = .next (faulted .protocol 5 s.inputs s)) ∧
    (s.frKind = .idle → exec (.sendData b) s = .next (faulted .protocol 5 s.inputs s))

/-- The faults of SET_WINDOW in On, in the order of R185; the window check is R186's, spelled out. -/
def Obligations.SetWindowFaults : Prop :=
  ∀ (cs ce rs re : Word) (s : State), s.takes → s.initState = .on → quiet 1 s.inputs.rst = true →
    (s.frKind ≠ .idle → exec (.setWindow cs ce rs re) s = .next (faulted .protocol 5 s.inputs s)) ∧
    (s.frKind = .idle →
      (ce.toNat < cs.toNat ∨ s.cfg.panelW ≤ ce.toNat ∨ re.toNat < rs.toNat ∨ s.cfg.panelH ≤ re.toNat) →
      exec (.setWindow cs ce rs re) s = .next (faulted .windowRange 4 s.inputs s))

/-- `draw_check`, R221 clause by clause: each code where every clause before it passes, and OK where all do. -/
def Obligations.DrawCheckReportsTheFirstFailure : Prop :=
  ∀ (c : Config) (f : Frame),
    let sized := 1 ≤ f.w ∧ f.w ≤ c.panelW ∧ 1 ≤ f.h ∧ f.h ≤ c.panelH
    let raster := match f.src with
      | .direct pixels => pixels.length
      | .indexed indices _ => indices.length
    let longPalette := ∃ indices palette, f.src = .indexed indices palette ∧ c.palMax < palette.length
    let badIndex := ∃ indices palette, f.src = .indexed indices palette ∧ ∃ i ∈ indices, palette.length ≤ i
    (f.ok = false → drawCheck c f = some .frameSource) ∧
    (f.ok = true → ¬ sized → drawCheck c f = some .windowRange) ∧
    (f.ok = true → sized → raster ≠ f.w * f.h → drawCheck c f = some .frameSource) ∧
    (f.ok = true → sized → raster = f.w * f.h → (longPalette ∨ badIndex) → drawCheck c f = some .paletteRange) ∧
    (f.ok = true → sized → raster = f.w * f.h → ¬ longPalette → ¬ badIndex → drawCheck c f = none)

/-- The faults of DRAW_FRAME in On (R226): an open command, then the code of `draw_check`, before any event of the frame. -/
def Obligations.DrawFrameFaults : Prop :=
  ∀ (f : Frame) (s : State), s.takes → s.initState = .on → quiet 1 s.inputs.rst = true →
    (s.frKind ≠ .idle → exec (.drawFrame f) s = .next (faulted .protocol 5 s.inputs s)) ∧
    (∀ code, s.frKind = .idle → drawCheck s.cfg f = some code →
      exec (.drawFrame f) s = .next (faulted code (code.code.zeroExtend 16) s.inputs s))

/-- The faults of ANIMATE in On (R251): an open command, an empty sequence (R257), and, where stop reads false, the first frame's
`draw_check` (R258). -/
def Obligations.AnimateFaults : Prop :=
  ∀ (seq : List (Frame × Nat)) (policy : Policy) (s : State), s.takes → s.initState = .on → quiet 1 s.inputs.rst = true →
    (s.frKind ≠ .idle → exec (.animate seq policy) s = .next (faulted .protocol 5 s.inputs s)) ∧
    (s.frKind = .idle → seq = [] → exec (.animate seq policy) s = .next (faulted .illegalRequest 6 s.inputs s)) ∧
    (∀ f d rest code, s.frKind = .idle → seq = (f, d) :: rest → s.stopReads = false → drawCheck s.cfg f = some code →
      exec (.animate seq policy) s =
        .next (faulted code (code.code.zeroExtend 16) { s.inputs with stop := s.inputs.stop.tail } { s with animIdx := 0 }))

/-- An INIT that the transport fails after `n` events that can fail have been performed: the events before it stand, and INIT_STATE
names the last transition completed (R152, R161, R309). The table is (n, events in the trace, INIT_STATE). -/
def Obligations.FailedInitNamesTheLastTransition : Prop :=
  ∀ (n events : Nat) (st : InitState) (rest : List Bool) (s : State),
    (n, events, st) ∈ [(0, 1, .unpowered), (1, 3, .unpowered), (2, 5, .resetting), (3, 6, .resetting),
      (4, 8, .softwareReset), (5, 9, .softwareReset), (6, 11, .wakingUp), (7, 12, .wakingUp), (8, 13, .wakingUp),
      (9, 14, .wakingUp), (10, 15, .configuringFormat), (11, 16, .configuringFormat), (12, 17, .configuringFormat),
      (13, 18, .configuringFormat), (14, 19, .configuringOrientation), (15, 20, .configuringOrientation)] →
    s.cfg.wf = true → s.takes → s.initState = .unpowered → s.frKind = .idle → s.err = .ok → s.transportReads = true →
    s.inputs.fail = List.replicate n false ++ true :: rest → quiet (events + 1) s.inputs.rst = true →
    ∃ t, exec .init s = .next t ∧ t.initState = st ∧ t.err = .busError ∧ t.halted = true ∧ t.released = true ∧
      t.log = .release :: (((initTrace s.cfg).take events).reverse ++ s.log) ∧ t.responses = ⟨.fault, 9⟩ :: s.responses

/-! ## Initialization -/

/-- INIT from Unpowered with the transport ready (R152 to R158): its 21 events, 16 of which can fail, and every register after it. The
reset pulse leaves nothing known of the panel (log 14). -/
def Obligations.InitCompletes : Prop :=
  ∀ s : State, s.cfg.wf = true → s.takes → s.initState = .unpowered → s.frKind = .idle → s.transportReads = true →
    s.calm 16 21 →
    exec .init s = .next { s with
      initState := .on
      busy := false
      curReq := none
      evPtr := 21
      dcLine := .cmd
      rstLine := .high
      frKind := .idle
      frRem := 0
      log := (initTrace s.cfg).reverse ++ s.log
      responses := ⟨.ok, 0⟩ :: s.responses
      panel := Panel.unknown
      inputs := { s.inputs.after 16 21 with transportOk := s.inputs.transportOk.tail } }

/-- R159, whole: with the default parameters, exactly these 21 events in this order, and the five registers it names. -/
def Obligations.InitEmitsTheTwentyOneEvents : Prop :=
  ∀ s t : State, s.cfg = Config.default → s.takes → s.initState = .unpowered → s.frKind = .idle →
    exec .init s = .next t → t.responses = ⟨.ok, 0⟩ :: s.responses →
    t.log = [.wait 100, .xfer 0x29, .dc .cmd, .xfer 0x00, .dc .data, .xfer 0x36, .dc .cmd, .xfer 0x55, .dc .data, .xfer 0x3A,
      .dc .cmd, .wait 255, .xfer 0x11, .dc .cmd, .wait 150, .xfer 0x01, .dc .cmd, .wait 100, .rst .high, .wait 100,
      .rst .low] ++ s.log ∧
    t.initState = .on ∧ t.rstLine = .high ∧ t.dcLine = .cmd ∧ t.frKind = .idle ∧ t.frRem = 0

/-! ## The framer's requests -/

/-- `frame(op, payload)`, R127 whole: `send_command(op)` and then each payload byte, nothing left open, `2 + 2 * len` events; and what
else it changes: the control line's record and the panel aid. -/
def Obligations.FrameSendsACommandWhole : Prop :=
  ∀ (op : Byte) (payload : List Byte) (s : State), s.frKind = .idle → op ≠ s.cfg.opRamwr →
    payloadLen s.cfg op = some payload.length → s.calm (2 + 2 * payload.length) (2 + 2 * payload.length) →
    ∃ p, runSteps (frameSteps op payload) s = .go { s with
        dcLine := if payload = [] then .cmd else .data
        evPtr := s.evPtr + (2 + 2 * payload.length)
        log := (.dc .cmd :: .xfer op :: payload.flatMap fun b => [.dc .data, .xfer b]).reverse ++ s.log
        frKind := .idle
        frRem := 0
        panel := p
        inputs := s.inputs.after (2 + 2 * payload.length) (2 + 2 * payload.length) } ∧
      p.cursor = none ∧ p.half = none ∧
      ∀ a, p.gram.read a = if s.panel.half = none ∧ op ≠ s.cfg.opSwreset then s.panel.gram.read a else none

/-- SEND_CMD RAMWR with a window sent (R125, R121): two events, and a data phase of two bytes a pixel is open. The panel's cursor
goes to (WIN_CS, WIN_RS) and no byte of GRAM changes (R70), within the reading of R70. -/
def Obligations.SendCmdOpensTheDataPhase : Prop :=
  ∀ (cs ce rs re : Word) (s : State), s.ready → s.winValid = true →
    s.winCs = some cs → s.winCe = some ce → s.winRs = some rs → s.winRe = some re →
    cs.toNat ≤ ce.toNat → rs.toNat ≤ re.toNat → s.calm 2 2 →
    ∃ p, exec (.sendCmd s.cfg.opRamwr) s = .next { s with
        busy := false
        curReq := none
        evPtr := 2
        dcLine := .cmd
        frKind := .stream
        frRem := 2 * ((ce.toNat - cs.toNat + 1) * (re.toNat - rs.toNat + 1))
        log := .xfer s.cfg.opRamwr :: .dc .cmd :: s.log
        responses := ⟨.ok, 0⟩ :: s.responses
        panel := p
        inputs := s.inputs.after 2 2 } ∧
      (s.cfg.wf = true → s.panel.half = none → s.cfg.orient = 0 → p = ⟨some (cs.toNat, rs.toNat), none, s.panel.gram⟩) ∧
      (s.panel.half ≠ none ∨ s.cfg.orient ≠ 0 → p = Panel.unknown)

/-- SEND_DATA inside an open command (R126, R122): two events, the byte counted off, the command closed by the last one. -/
def Obligations.SendDataCountsTheByteOff : Prop :=
  ∀ (b : Byte) (s : State), s.takes → s.initState = .on → s.frKind ≠ .idle → 0 < s.frRem → s.calm 2 2 →
    ∃ p, exec (.sendData b) s = .next { s with
        busy := false
        curReq := none
        evPtr := 2
        dcLine := .data
        frKind := if s.frRem = 1 then .idle else s.frKind
        frRem := s.frRem - 1
        log := .xfer b :: .dc .data :: s.log
        responses := ⟨.ok, 0⟩ :: s.responses
        panel := p
        inputs := s.inputs.after 2 2 }

/-- What SEND_DATA stores (R70): nothing outside a memory write; the first byte of a pair nothing yet; the second byte both, at the
cursor's pixel, and no other byte of GRAM changes; and the cursor moves on. Past the window's last row, or off the panel, nothing
stays known (log 14). -/
def Obligations.SendDataStoresEachPair : Prop :=
  ∀ (b : Byte) (s t : State), s.takes → s.initState = .on → s.frKind ≠ .idle → 0 < s.frRem → s.calm 2 2 →
    exec (.sendData b) s = .next t →
    (s.panel.cursor = none → t.panel = s.panel) ∧
    (∀ c r, s.panel.cursor = some (c, r) → s.panel.half = none →
      t.panel.cursor = some (c, r) ∧ t.panel.half = some b ∧ ∀ a, t.panel.gram.read a = s.panel.gram.read a) ∧
    (∀ c r hi cs ce re, s.panel.cursor = some (c, r) → s.panel.half = some hi →
      s.winCs = some cs → s.winCe = some ce → s.winRe = some re →
      if c < s.cfg.panelW ∧ r < s.cfg.panelH ∧ r ≤ re.toNat then
        t.panel.cursor = some (if ce.toNat < c + 1 then (cs.toNat, r + 1) else (c + 1, r)) ∧ t.panel.half = none ∧
        t.panel.gram.read (gramAddr c r) = some hi ∧ t.panel.gram.read (gramAddr c r + 1) = some b ∧
        ∀ a, a ≠ gramAddr c r → a ≠ gramAddr c r + 1 → t.panel.gram.read a = s.panel.gram.read a
      else t.panel = Panel.unknown)

/-! ## The window -/

/-- SET_WINDOW in On with a window the check admits (R185, R182): the 20 events, the window registers, nothing left open, no byte of
GRAM changed. -/
def Obligations.SetWindowCompletes : Prop :=
  ∀ (cs ce rs re : Word) (s : State), s.cfg.wf = true → s.ready → cs.toNat ≤ ce.toNat → ce.toNat < s.cfg.panelW →
    rs.toNat ≤ re.toNat → re.toNat < s.cfg.panelH → s.calm 20 20 →
    ∃ p, exec (.setWindow cs ce rs re) s = .next { s with
        busy := false
        curReq := none
        evPtr := 20
        dcLine := .data
        frKind := .idle
        frRem := 0
        winCs := some cs
        winCe := some ce
        winRs := some rs
        winRe := some re
        winValid := true
        log := (cmdTrace s.cfg.opCaset [hi8 cs, lo8 cs, hi8 ce, lo8 ce]
          ++ cmdTrace s.cfg.opRaset [hi8 rs, lo8 rs, hi8 re, lo8 re]).reverse ++ s.log
        responses := ⟨.ok, 0⟩ :: s.responses
        panel := p
        inputs := s.inputs.after 20 20 } ∧
      p.cursor = none ∧ p.half = none ∧
      ∀ a, p.gram.read a = if s.panel.half = none then s.panel.gram.read a else none

/-- R187: WIN_VALID is 1 only after both range commands have been sent in full. A SET_WINDOW or DRAW_FRAME that passes its checks and
leaves WIN_VALID = 1 has every event of the window in its trace, whatever failed or was reset; and a step from a good state (a pair
of an ANIMATE, the first or a later one, included) that leaves it 1 kept an earlier window or sent the one the registers hold. -/
def Obligations.WindowIsValidOnlyWhenSent : Prop :=
  (∀ s t : State, s.cfg.wf = true → s.ready →
    (∀ cs ce rs re, windowOk s.cfg cs ce rs re = true → exec (.setWindow cs ce rs re) s = .next t → t.winValid = true →
      ∃ l, t.log = l ++ (windowTrace s.cfg cs ce rs re).reverse ++ s.log) ∧
    (∀ f, drawCheck s.cfg f = none → exec (.drawFrame f) s = .next t → t.winValid = true →
      ∃ l, t.log =
        l ++ (windowTrace s.cfg 0 (BitVec.ofNat 16 (f.w - 1)) 0 (BitVec.ofNat 16 (f.h - 1))).reverse ++ s.log)) ∧
  (∀ s t : State, s.Good → step s = .next t → t.winValid = true →
    (s.winValid = true ∧ t.winCs = s.winCs ∧ t.winCe = s.winCe ∧ t.winRs = s.winRs ∧ t.winRe = s.winRe) ∨
      ∃ cs ce rs re l, t.winCs = some cs ∧ t.winCe = some ce ∧ t.winRs = some rs ∧ t.winRe = some re ∧
        t.log = l ++ (windowTrace s.cfg cs ce rs re).reverse ++ s.log)

/-! ## The quantizer -/

/-- ENCODE answers the encoded pixel, in any INIT_STATE, and touches nothing else (R203, R200). -/
def Obligations.EncodeAnswersThePixel : Prop :=
  ∀ (r g b : Byte) (s : State), s.takes →
    exec (.encode r g b) s = .next { s with
      busy := false
      curReq := none
      evPtr := 0
      responses := ⟨.ok, BitVec.ofNat 16 ((r.toNat / 8) * 2048 + (g.toNat / 4) * 32 + b.toNat / 8)⟩ :: s.responses }

/-- R201, whole: the top 5, middle 6 and bottom 5 bits. -/
def Obligations.EncodedFieldsAreTheTopBits : Prop :=
  ∀ r g b : Byte,
    (rgb565 r g b).extractLsb' 11 5 = r.extractLsb' 3 5 ∧
    (rgb565 r g b).extractLsb' 5 6 = g.extractLsb' 2 6 ∧
    (rgb565 r g b).extractLsb' 0 5 = b.extractLsb' 3 5

/-- R204: `encode` reads no low bit it discards, samples that differ only there encode alike, and each of the 2^16 encodings has
exactly 256 preimages. -/
def Obligations.EncodeTruncatesOntoEveryPixel : Prop :=
  (∀ r g b : Byte, rgb565 r g b = rgb565 (r &&& 0xF8) (g &&& 0xFC) (b &&& 0xF8)) ∧
  (∀ r g b r' g' b' : Byte, rgb565 r g b = rgb565 r' g' b' ↔
    r >>> 3 = r' >>> 3 ∧ g >>> 2 = g' >>> 2 ∧ b >>> 3 = b' >>> 3) ∧
  (∀ p : Word, ∃ pre : List (Byte × Byte × Byte), pre.Nodup ∧ pre.length = 256 ∧
    ∀ r g b, (r, g, b) ∈ pre ↔ rgb565 r g b = p)

/-! ## Drawing -/

/-- DRAW_FRAME in On (R226, R222, R227): the window (0, w-1, 0, h-1), the memory-write opcode and the pixels in row-major order, high
byte first, `22 + 4 * w * h` events; the registers after it; and what the panel then holds (R70). -/
def Obligations.DrawFrameDrawsTheFrame : Prop :=
  ∀ (f : Frame) (samples : List ColorSample) (s : State), s.cfg.wf = true → s.ready → drawCheck s.cfg f = none →
    showsRaster f samples → s.calm (22 + 4 * f.w * f.h) (22 + 4 * f.w * f.h) →
    ∃ p, panelShows s f p ∧ exec (.drawFrame f) s = .next { s with
        busy := false
        curReq := none
        evPtr := 22 + 4 * f.w * f.h
        dcLine := .data
        frKind := .idle
        frRem := 0
        winCs := some 0
        winCe := some (BitVec.ofNat 16 (f.w - 1))
        winRs := some 0
        winRe := some (BitVec.ofNat 16 (f.h - 1))
        winValid := true
        log := (cmdTrace s.cfg.opCaset [0, 0, hi8 (BitVec.ofNat 16 (f.w - 1)), lo8 (BitVec.ofNat 16 (f.w - 1))]
          ++ cmdTrace s.cfg.opRaset [0, 0, hi8 (BitVec.ofNat 16 (f.h - 1)), lo8 (BitVec.ofNat 16 (f.h - 1))]
          ++ cmdTrace s.cfg.opRamwr []
          ++ dataTrace (samples.flatMap fun c => [hi8 (encodeSample c), lo8 (encodeSample c)])).reverse ++ s.log
        responses := ⟨.ok, 0⟩ :: s.responses
        panel := p
        inputs := s.inputs.after (22 + 4 * f.w * f.h) (22 + 4 * f.w * f.h) }

/-- R229, whole: between the `XFER(OP_RAMWR)` of a DRAW_FRAME that answers OK and its end there are exactly `2 * w * h` XFER events, each
preceded by DC(DATA), and nothing else. -/
def Obligations.DrawFrameSendsTwoBytesAPixel : Prop :=
  ∀ (f : Frame) (s t : State), exec (.drawFrame f) s = .next t → t.responses = ⟨.ok, 0⟩ :: s.responses →
    ∃ (bytes : List Byte) (before : List Event), bytes.length = 2 * f.w * f.h ∧
      t.log = (bytes.flatMap fun b => [.dc .data, .xfer b]).reverse ++ .xfer s.cfg.opRamwr :: .dc .cmd :: before

/-- R220: a direct frame and an indexed frame that resolve to the same samples run the same, in every state and whatever fails. -/
def Obligations.SameSamplesRunTheSame : Prop :=
  ∀ (f g : Frame) (s : State), drawCheck s.cfg f = none → drawCheck s.cfg g = none → f.w = g.w → f.h = g.h →
    (∀ x y, x < f.w → y < f.h → resolve f x y = resolve g x y) → exec (.drawFrame f) s = exec (.drawFrame g) s

/-! ## Animation -/

/-- ANIMATE in On, up to the end of its first pair (R251, R252, R254, R255, R259): the frame drawn, the delay waited; then the answer if
that was the last pair under ONCE, else a running request at its next frame boundary. -/
def Obligations.AnimateDrawsItsFirstPair : Prop :=
  ∀ (f : Frame) (d : Nat) (rest : List (Frame × Nat)) (policy : Policy) (samples : List ColorSample) (s : State),
    s.cfg.wf = true → s.ready → s.stopReads = false → drawCheck s.cfg f = none → showsRaster f samples →
    s.calm (22 + 4 * f.w * f.h) (23 + 4 * f.w * f.h) →
    ∃ p, panelShows s f p ∧
      let drawn : State := { s with
        evPtr := 23 + 4 * f.w * f.h
        dcLine := .data
        frKind := .idle
        frRem := 0
        winCs := some 0
        winCe := some (BitVec.ofNat 16 (f.w - 1))
        winRs := some 0
        winRe := some (BitVec.ofNat 16 (f.h - 1))
        winValid := true
        log := .wait d :: ((drawTrace s.cfg f samples).reverse ++ s.log)
        panel := p
        inputs := { s.inputs.after (22 + 4 * f.w * f.h) (23 + 4 * f.w * f.h) with stop := s.inputs.stop.tail } }
      exec (.animate ((f, d) :: rest) policy) s = .next (
        if rest = [] ∧ policy = .once then
          { drawn with busy := false, curReq := none, animIdx := 1, animActive := false,
                       responses := ⟨.ok, 0⟩ :: s.responses }
        else
          { drawn with busy := true, curReq := some (.animate ((f, d) :: rest) policy),
                       animIdx := if rest = [] then 0 else 1, animActive := true })

/-- A running ANIMATE at a frame boundary where stop reads false draws its next pair in one step of the machine, and ends, goes on, or
starts again as its policy says (R251 to R255). -/
def Obligations.AnimateDrawsItsNextPair : Prop :=
  ∀ (seq : List (Frame × Nat)) (policy : Policy) (f : Frame) (d : Nat) (samples : List ColorSample) (s : State),
    s.cfg.wf = true → s.cmdPort = none → s.busy = true → s.curReq = some (.animate seq policy) → s.animActive = true →
    0 < s.evPtr → pairOffset seq policy s.animIdx s.evPtr = 0 → seq[s.animIdx]? = some (f, d) → s.frKind = .idle →
    s.stopReads = false → drawCheck s.cfg f = none → showsRaster f samples →
    s.calm (22 + 4 * f.w * f.h) (24 + 4 * f.w * f.h) →
    ∃ p, panelShows s f p ∧
      let drawn : State := { s with
        evPtr := s.evPtr + (23 + 4 * f.w * f.h)
        dcLine := .data
        frKind := .idle
        frRem := 0
        winCs := some 0
        winCe := some (BitVec.ofNat 16 (f.w - 1))
        winRs := some 0
        winRe := some (BitVec.ofNat 16 (f.h - 1))
        winValid := true
        log := .wait d :: ((drawTrace s.cfg f samples).reverse ++ s.log)
        panel := p
        inputs := { s.inputs.after (22 + 4 * f.w * f.h) (24 + 4 * f.w * f.h) with stop := s.inputs.stop.tail } }
      step s = .next (
        if s.animIdx + 1 < seq.length then { drawn with animIdx := s.animIdx + 1 }
        else if policy = .once then
          { drawn with busy := false, curReq := none, animIdx := s.animIdx + 1, animActive := false,
                       responses := ⟨.ok, 0⟩ :: s.responses }
        else { drawn with animIdx := 0 })

/-- R256: where stop reads true at a frame boundary, the first one or a later one, ANIMATE emits nothing more and answers STOPPED; ERR,
HALTED and the window registers stay; and R258: where it reads false and the pair's frame fails its check, the fatal path. -/
def Obligations.AnimateEndsAtABoundary : Prop :=
  ∀ (seq : List (Frame × Nat)) (policy : Policy) (s : State),
    (s.ready → seq ≠ [] → s.stopReads = true →
      exec (.animate seq policy) s = .next { s with
        busy := false
        curReq := none
        evPtr := 0
        animIdx := 0
        animActive := false
        responses := ⟨.stopped, 0⟩ :: s.responses
        inputs := { s.inputs with stop := s.inputs.stop.tail } }) ∧
    (s.cfg.wf = true → s.cmdPort = none → s.busy = true → s.curReq = some (.animate seq policy) → s.animActive = true →
      0 < s.evPtr → pairOffset seq policy s.animIdx s.evPtr = 0 →
      (s.rstReads = false → s.stopReads = true →
        step s = .next { s with
          busy := false
          curReq := none
          animActive := false
          responses := ⟨.stopped, 0⟩ :: s.responses
          inputs := { s.inputs with stop := s.inputs.stop.tail, rst := s.inputs.rst.tail } }) ∧
      (∀ f d code, quiet 2 s.inputs.rst = true → s.stopReads = false → s.takes → seq[s.animIdx]? = some (f, d) →
        drawCheck s.cfg f = some code →
        step s = .next { faulted code (code.code.zeroExtend 16)
          { s.inputs with stop := s.inputs.stop.tail, rst := s.inputs.rst.tail } s with evPtr := s.evPtr }))

/-- An undisturbed ANIMATE under ONCE ends (R254, R261): from its acceptance, one step of the machine a pair, all its frames drawn and
waited in order, and the answer OK. -/
def Obligations.AnimateOnceRunsToItsEnd : Prop :=
  ∀ (seq : List (Frame × Nat)) (bytes : List Byte) (rest : List (List Byte)) (s : State),
    s.cfg.wf = true → s.busy = false → s.cmdPort = none → s.ready → seq ≠ [] →
    s.inputs.requests = bytes :: rest → decodeRequest bytes = .ok (.animate seq .once) →
    (∀ p ∈ seq, drawCheck s.cfg p.1 = none) → quiet seq.length s.inputs.stop = true →
    s.calm (seqEvents seq) (seqEvents seq + seq.length) →
    ∃ t : State, Sys2Proof.core.run seq.length s = .next t ∧ t.busy = false ∧ t.curReq = none ∧ t.animActive = false ∧
      t.responses = ⟨.ok, 0⟩ :: s.responses ∧ t.log = (sequenceTrace s.cfg seq).reverse ++ s.log ∧
      t.evPtr = seqEvents seq ∧ t.inputs.requests = rest ∧ t.halted = false ∧ t.err = s.err

/-- Under REPEAT with the stop input never read true and nothing failing, ANIMATE never answers, its trace and EV_PTR grow without bound,
and no other request is accepted (R260). -/
def Obligations.UnstoppedRepeatNeverAnswers : Prop :=
  ∀ (seq : List (Frame × Nat)) (bytes : List Byte) (rest : List (List Byte)) (s : State),
    s.cfg.wf = true → s.busy = false → s.cmdPort = none → s.ready → seq ≠ [] →
    s.inputs.requests = bytes :: rest → decodeRequest bytes = .ok (.animate seq .repeating) →
    (∀ p ∈ seq, drawCheck s.cfg p.1 = none) → (∀ n, quiet n s.inputs.stop = true ∧ s.calm n n) →
    ∀ n, ∃ t : State, Sys2Proof.core.run (n + 1) s = .next t ∧ t.busy = true ∧
      t.curReq = some (.animate seq .repeating) ∧ t.responses = s.responses ∧ t.inputs.requests = rest ∧
      27 * (n + 1) ≤ t.evPtr ∧ t.log.length = s.log.length + t.evPtr

/-! ## System requests -/

/-- R34: every field of STATUS in every state, ERR's ten codes of 60_exceptions.md R301 among them; STATUS after block reset; and READ_STATUS
answers it in every state. -/
def Obligations.StatusWordShowsTheRegisters : Prop :=
  (∀ s : State,
    ((statusWord s).extractLsb' 0 3).toNat =
      (match s.initState with
        | .unpowered => 0
        | .resetting => 1
        | .softwareReset => 2
        | .wakingUp => 3
        | .configuringFormat => 4
        | .configuringOrientation => 5
        | .on => 6) ∧
    (statusWord s).getLsbD 3 = s.halted ∧
    (statusWord s).getLsbD 4 = s.released ∧
    (statusWord s).getLsbD 5 = s.winValid ∧
    ((statusWord s).extractLsb' 6 2).toNat =
      (match s.frKind with
        | .idle => 0
        | .fixed => 1
        | .stream => 2) ∧
    ((statusWord s).extractLsb' 8 4).toNat =
      (match s.err with
        | .ok => 0
        | .transportInit => 1
        | .frameSource => 2
        | .notReady => 3
        | .windowRange => 4
        | .protocol => 5
        | .illegalRequest => 6
        | .paletteRange => 7
        | .initOrder => 8
        | .busError => 9) ∧
    (statusWord s).extractLsb' 8 4 = s.err.code ∧
    (statusWord s).extractLsb' 12 4 = 0) ∧
  (∀ s : State, statusWord (blockReset s) = 0x0000) ∧
  (∀ s : State, ∃ t, exec .readStatus s = .next t ∧ t.responses = ⟨.ok, statusWord s⟩ :: s.responses)

/-- READ_STATUS completes in every state, halted and released too (R280), and changes nothing but EV_PTR, which is 0 from the acceptance
(R42; log 9). -/
def Obligations.ReadStatusCompletes : Prop :=
  ∀ s : State, exec .readStatus s = .next { s with
    busy := false
    curReq := none
    evPtr := 0
    responses := ⟨.ok, statusWord s⟩ :: s.responses }

/-- RELEASE (R281): one RELEASE event, RELEASED set, the answer OK; accepted in every INIT_STATE and with a command open. -/
def Obligations.ReleaseCompletes : Prop :=
  ∀ s : State, s.takes → quiet 1 s.inputs.rst = true →
    exec .release s = .next { s with
      busy := false
      curReq := none
      evPtr := 1
      released := true
      log := .release :: s.log
      responses := ⟨.ok, 0⟩ :: s.responses
      inputs := s.inputs.after 0 1 }

/-! ## Bus commands by themselves -/

/-- SWRESET, SLPOUT and DISPON (R154, R155, R158): the opcode, the wait, the transition. SWRESET leaves nothing known of the panel
(log 14). -/
def Obligations.CommandsWithAWaitComplete : Prop :=
  ∀ s : State, s.cfg.wf = true → s.frKind = .idle → s.calm 2 3 →
    let sent (op : Byte) (ms : Nat) (st : InitState) (p : Panel) : State :=
      { s with
        dcLine := .cmd
        evPtr := s.evPtr + 3
        log := .wait ms :: .xfer op :: .dc .cmd :: s.log
        frRem := 0
        initState := st
        panel := p
        inputs := s.inputs.after 2 3 }
    let closed := if s.panel.half = none then ⟨none, none, s.panel.gram⟩ else Panel.unknown
    exec .swreset s = .next (sent s.cfg.opSwreset s.cfg.tSwreset .softwareReset Panel.unknown) ∧
    exec .slpout s = .next (sent s.cfg.opSlpout s.cfg.tSlpout .wakingUp closed) ∧
    exec .dispon s = .next (sent s.cfg.opDispon s.cfg.tDispon .on closed)

/-- COLMOD and MADCTL (R156, R157): the opcode, the payload byte, the transition; no wait follows. -/
def Obligations.CommandsWithAPayloadByteComplete : Prop :=
  ∀ s : State, s.cfg.wf = true → s.frKind = .idle → s.calm 4 4 →
    let sent (op b : Byte) (st : InitState) : State :=
      { s with
        dcLine := .data
        evPtr := s.evPtr + 4
        log := .xfer b :: .dc .data :: .xfer op :: .dc .cmd :: s.log
        frRem := 0
        initState := st
        panel := if s.panel.half = none then ⟨none, none, s.panel.gram⟩ else Panel.unknown
        inputs := s.inputs.after 4 4 }
    exec .colmod s = .next (sent s.cfg.opColmod s.cfg.pixfmt565 .configuringFormat) ∧
    exec .madctl s = .next (sent s.cfg.opMadctl s.cfg.orient .configuringOrientation)

/-- CASET and RASET (R183, R184): the opcode and the range, each value high byte first. By themselves they write no window register
(R182: `set_window` is the only writer). -/
def Obligations.RangeCommandsComplete : Prop :=
  ∀ (lo hi : Word) (s : State), s.cfg.wf = true → s.frKind = .idle → s.calm 10 10 →
    let sent (op : Byte) : State :=
      { s with
        dcLine := .data
        evPtr := s.evPtr + 10
        log := (cmdTrace op [hi8 lo, lo8 lo, hi8 hi, lo8 hi]).reverse ++ s.log
        frRem := 0
        panel := if s.panel.half = none then ⟨none, none, s.panel.gram⟩ else Panel.unknown
        inputs := s.inputs.after 10 10 }
    exec (.caset lo hi) s = .next (sent s.cfg.opCaset) ∧ exec (.raset lo hi) s = .next (sent s.cfg.opRaset)

/-- RAMWR (R223): the opcode, and a data phase of two bytes a pixel of the window. -/
def Obligations.MemoryWriteCommandCompletes : Prop :=
  ∀ (cs ce rs re : Word) (s : State), s.cfg.wf = true → s.frKind = .idle → s.winValid = true →
    s.winCs = some cs → s.winCe = some ce → s.winRs = some rs → s.winRe = some re →
    cs.toNat ≤ ce.toNat → rs.toNat ≤ re.toNat → s.calm 2 2 →
    exec .ramwr s = .next { s with
      dcLine := .cmd
      evPtr := s.evPtr + 2
      frKind := .stream
      frRem := 2 * ((ce.toNat - cs.toNat + 1) * (re.toNat - rs.toNat + 1))
      log := .xfer s.cfg.opRamwr :: .dc .cmd :: s.log
      panel :=
        if s.panel.half = none ∧ s.cfg.orient = 0 then ⟨some (cs.toNat, rs.toNat), none, s.panel.gram⟩ else Panel.unknown
      inputs := s.inputs.after 2 2 }

/-- No instruction stops the model, request or bus command, whatever fails and wherever it is run: it needs a build the model takes,
framer registers that agree (R29), and no command open before INIT. A bus command by itself that would break the framer's
discipline, with a command open, or RAMWR with no window (WIN_VALID = 0, or registers that hold none or a reversed range), takes PROTOCOL before any event, as R307 says of requests: that a
bus command by itself does so is the model's choice (log 28). -/
def Obligations.EveryInstructionAnswersANextState : Prop :=
  (∀ (i : Instr) (s : State), s.cfg.wf = true → s.framerAgrees → (s.initState = .unpowered → s.frKind = .idle) →
    ∃ t, exec i s = .next t) ∧
  (∀ (i : Instr) (s : State), i.level = .command → s.released = false → quiet 1 s.inputs.rst = true →
    (s.frKind ≠ .idle ∨
      (i = .ramwr ∧ (s.winValid = false ∨
        ∀ cs ce rs re, s.winCs = some cs → s.winCe = some ce → s.winRs = some rs → s.winRe = some re →
          ce.toNat < cs.toNat ∨ re.toNat < rs.toNat))) →
    exec i s = .next { faulted .protocol 5 s.inputs s with evPtr := s.evPtr })
end

