-- ==== Sys2Proof/Laws/State.lean ====
section
/-! SUPPORT. Laws/State.lean: each field of State after each named update, so that no proof unfolds a record update. -/

namespace Sys2Proof.Machine

variable (s : State)

/-! ### `record`: one bus event stands in the trace -/

@[simp] theorem record_cfg (ev : Event) : (record ev s).cfg = s.cfg := rfl
@[simp] theorem record_initState (ev : Event) : (record ev s).initState = s.initState := rfl
@[simp] theorem record_busy (ev : Event) : (record ev s).busy = s.busy := rfl
@[simp] theorem record_curReq (ev : Event) : (record ev s).curReq = s.curReq := rfl
@[simp] theorem record_evPtr (ev : Event) : (record ev s).evPtr = s.evPtr + 1 := rfl
@[simp] theorem record_dcLine (ev : Event) : (record ev s).dcLine = dcAfter ev s.dcLine := rfl
@[simp] theorem record_rstLine (ev : Event) : (record ev s).rstLine = rstAfter ev s.rstLine := rfl
@[simp] theorem record_frKind (ev : Event) : (record ev s).frKind = s.frKind := rfl
@[simp] theorem record_frRem (ev : Event) : (record ev s).frRem = s.frRem := rfl
@[simp] theorem record_winCs (ev : Event) : (record ev s).winCs = s.winCs := rfl
@[simp] theorem record_winCe (ev : Event) : (record ev s).winCe = s.winCe := rfl
@[simp] theorem record_winRs (ev : Event) : (record ev s).winRs = s.winRs := rfl
@[simp] theorem record_winRe (ev : Event) : (record ev s).winRe = s.winRe := rfl
@[simp] theorem record_winValid (ev : Event) : (record ev s).winValid = s.winValid := rfl
@[simp] theorem record_err (ev : Event) : (record ev s).err = s.err := rfl
@[simp] theorem record_halted (ev : Event) : (record ev s).halted = s.halted := rfl
@[simp] theorem record_released (ev : Event) : (record ev s).released = releasedAfter ev s.released := rfl
@[simp] theorem record_animIdx (ev : Event) : (record ev s).animIdx = s.animIdx := rfl
@[simp] theorem record_animActive (ev : Event) : (record ev s).animActive = s.animActive := rfl
@[simp] theorem record_log (ev : Event) : (record ev s).log = ev :: s.log := rfl
@[simp] theorem record_responses (ev : Event) : (record ev s).responses = s.responses := rfl
@[simp] theorem record_panel (ev : Event) : (record ev s).panel = if eventFails ev s then Panel.unknown else observe ev s := rfl
@[simp] theorem record_inputs (ev : Event) : (record ev s).inputs = inputsAfter ev s.inputs := rfl
@[simp] theorem record_cmdPort (ev : Event) : (record ev s).cmdPort = s.cmdPort := rfl

/-! ### `popTransport`: `transport_ok` read once -/

@[simp] theorem popTransport_cfg : s.popTransport.cfg = s.cfg := rfl
@[simp] theorem popTransport_initState : s.popTransport.initState = s.initState := rfl
@[simp] theorem popTransport_busy : s.popTransport.busy = s.busy := rfl
@[simp] theorem popTransport_curReq : s.popTransport.curReq = s.curReq := rfl
@[simp] theorem popTransport_evPtr : s.popTransport.evPtr = s.evPtr := rfl
@[simp] theorem popTransport_dcLine : s.popTransport.dcLine = s.dcLine := rfl
@[simp] theorem popTransport_rstLine : s.popTransport.rstLine = s.rstLine := rfl
@[simp] theorem popTransport_frKind : s.popTransport.frKind = s.frKind := rfl
@[simp] theorem popTransport_frRem : s.popTransport.frRem = s.frRem := rfl
@[simp] theorem popTransport_winCs : s.popTransport.winCs = s.winCs := rfl
@[simp] theorem popTransport_winCe : s.popTransport.winCe = s.winCe := rfl
@[simp] theorem popTransport_winRs : s.popTransport.winRs = s.winRs := rfl
@[simp] theorem popTransport_winRe : s.popTransport.winRe = s.winRe := rfl
@[simp] theorem popTransport_winValid : s.popTransport.winValid = s.winValid := rfl
@[simp] theorem popTransport_err : s.popTransport.err = s.err := rfl
@[simp] theorem popTransport_halted : s.popTransport.halted = s.halted := rfl
@[simp] theorem popTransport_released : s.popTransport.released = s.released := rfl
@[simp] theorem popTransport_animIdx : s.popTransport.animIdx = s.animIdx := rfl
@[simp] theorem popTransport_animActive : s.popTransport.animActive = s.animActive := rfl
@[simp] theorem popTransport_log : s.popTransport.log = s.log := rfl
@[simp] theorem popTransport_responses : s.popTransport.responses = s.responses := rfl
@[simp] theorem popTransport_panel : s.popTransport.panel = s.panel := rfl
@[simp] theorem popTransport_inputs : s.popTransport.inputs = { s.inputs with transportOk := s.inputs.transportOk.tail } := rfl
@[simp] theorem popTransport_cmdPort : s.popTransport.cmdPort = s.cmdPort := rfl

/-! ### `popStop`: `stop` sampled once -/

@[simp] theorem popStop_cfg : s.popStop.cfg = s.cfg := rfl
@[simp] theorem popStop_initState : s.popStop.initState = s.initState := rfl
@[simp] theorem popStop_busy : s.popStop.busy = s.busy := rfl
@[simp] theorem popStop_curReq : s.popStop.curReq = s.curReq := rfl
@[simp] theorem popStop_evPtr : s.popStop.evPtr = s.evPtr := rfl
@[simp] theorem popStop_dcLine : s.popStop.dcLine = s.dcLine := rfl
@[simp] theorem popStop_rstLine : s.popStop.rstLine = s.rstLine := rfl
@[simp] theorem popStop_frKind : s.popStop.frKind = s.frKind := rfl
@[simp] theorem popStop_frRem : s.popStop.frRem = s.frRem := rfl
@[simp] theorem popStop_winCs : s.popStop.winCs = s.winCs := rfl
@[simp] theorem popStop_winCe : s.popStop.winCe = s.winCe := rfl
@[simp] theorem popStop_winRs : s.popStop.winRs = s.winRs := rfl
@[simp] theorem popStop_winRe : s.popStop.winRe = s.winRe := rfl
@[simp] theorem popStop_winValid : s.popStop.winValid = s.winValid := rfl
@[simp] theorem popStop_err : s.popStop.err = s.err := rfl
@[simp] theorem popStop_halted : s.popStop.halted = s.halted := rfl
@[simp] theorem popStop_released : s.popStop.released = s.released := rfl
@[simp] theorem popStop_animIdx : s.popStop.animIdx = s.animIdx := rfl
@[simp] theorem popStop_animActive : s.popStop.animActive = s.animActive := rfl
@[simp] theorem popStop_log : s.popStop.log = s.log := rfl
@[simp] theorem popStop_responses : s.popStop.responses = s.responses := rfl
@[simp] theorem popStop_panel : s.popStop.panel = s.panel := rfl
@[simp] theorem popStop_inputs : s.popStop.inputs = { s.inputs with stop := s.inputs.stop.tail } := rfl
@[simp] theorem popStop_cmdPort : s.popStop.cmdPort = s.cmdPort := rfl

/-! ### `popRst`: `rst_in` read once -/

@[simp] theorem popRst_cfg : s.popRst.cfg = s.cfg := rfl
@[simp] theorem popRst_initState : s.popRst.initState = s.initState := rfl
@[simp] theorem popRst_busy : s.popRst.busy = s.busy := rfl
@[simp] theorem popRst_curReq : s.popRst.curReq = s.curReq := rfl
@[simp] theorem popRst_evPtr : s.popRst.evPtr = s.evPtr := rfl
@[simp] theorem popRst_dcLine : s.popRst.dcLine = s.dcLine := rfl
@[simp] theorem popRst_rstLine : s.popRst.rstLine = s.rstLine := rfl
@[simp] theorem popRst_frKind : s.popRst.frKind = s.frKind := rfl
@[simp] theorem popRst_frRem : s.popRst.frRem = s.frRem := rfl
@[simp] theorem popRst_winCs : s.popRst.winCs = s.winCs := rfl
@[simp] theorem popRst_winCe : s.popRst.winCe = s.winCe := rfl
@[simp] theorem popRst_winRs : s.popRst.winRs = s.winRs := rfl
@[simp] theorem popRst_winRe : s.popRst.winRe = s.winRe := rfl
@[simp] theorem popRst_winValid : s.popRst.winValid = s.winValid := rfl
@[simp] theorem popRst_err : s.popRst.err = s.err := rfl
@[simp] theorem popRst_halted : s.popRst.halted = s.halted := rfl
@[simp] theorem popRst_released : s.popRst.released = s.released := rfl
@[simp] theorem popRst_animIdx : s.popRst.animIdx = s.animIdx := rfl
@[simp] theorem popRst_animActive : s.popRst.animActive = s.animActive := rfl
@[simp] theorem popRst_log : s.popRst.log = s.log := rfl
@[simp] theorem popRst_responses : s.popRst.responses = s.responses := rfl
@[simp] theorem popRst_panel : s.popRst.panel = s.panel := rfl
@[simp] theorem popRst_inputs : s.popRst.inputs = { s.inputs with rst := s.inputs.rst.tail } := rfl
@[simp] theorem popRst_cmdPort : s.popRst.cmdPort = s.cmdPort := rfl

/-! ### `blockReset`: block reset -/

@[simp] theorem blockReset_cfg : (blockReset s).cfg = s.cfg := rfl
@[simp] theorem blockReset_initState : (blockReset s).initState = .unpowered := rfl
@[simp] theorem blockReset_busy : (blockReset s).busy = false := rfl
@[simp] theorem blockReset_curReq : (blockReset s).curReq = none := rfl
@[simp] theorem blockReset_evPtr : (blockReset s).evPtr = 0 := rfl
@[simp] theorem blockReset_dcLine : (blockReset s).dcLine = .undriven := rfl
@[simp] theorem blockReset_rstLine : (blockReset s).rstLine = .undriven := rfl
@[simp] theorem blockReset_frKind : (blockReset s).frKind = .idle := rfl
@[simp] theorem blockReset_frRem : (blockReset s).frRem = 0 := rfl
@[simp] theorem blockReset_winCs : (blockReset s).winCs = none := rfl
@[simp] theorem blockReset_winCe : (blockReset s).winCe = none := rfl
@[simp] theorem blockReset_winRs : (blockReset s).winRs = none := rfl
@[simp] theorem blockReset_winRe : (blockReset s).winRe = none := rfl
@[simp] theorem blockReset_winValid : (blockReset s).winValid = false := rfl
@[simp] theorem blockReset_err : (blockReset s).err = .ok := rfl
@[simp] theorem blockReset_halted : (blockReset s).halted = false := rfl
@[simp] theorem blockReset_released : (blockReset s).released = false := rfl
@[simp] theorem blockReset_animIdx : (blockReset s).animIdx = 0 := rfl
@[simp] theorem blockReset_animActive : (blockReset s).animActive = false := rfl
@[simp] theorem blockReset_log : (blockReset s).log = s.log := rfl
@[simp] theorem blockReset_responses : (blockReset s).responses = s.responses := rfl
@[simp] theorem blockReset_panel : (blockReset s).panel = Panel.unknown := rfl
@[simp] theorem blockReset_inputs : (blockReset s).inputs = s.inputs := rfl
@[simp] theorem blockReset_cmdPort : (blockReset s).cmdPort = none := rfl

/-! ### `accept`: acceptance -/

@[simp] theorem accept_cfg (i : Instr) : (accept i s).cfg = s.cfg := rfl
@[simp] theorem accept_initState (i : Instr) : (accept i s).initState = s.initState := rfl
@[simp] theorem accept_busy (i : Instr) : (accept i s).busy = true := rfl
@[simp] theorem accept_curReq (i : Instr) : (accept i s).curReq = some i := rfl
@[simp] theorem accept_evPtr (i : Instr) : (accept i s).evPtr = 0 := rfl
@[simp] theorem accept_dcLine (i : Instr) : (accept i s).dcLine = s.dcLine := rfl
@[simp] theorem accept_rstLine (i : Instr) : (accept i s).rstLine = s.rstLine := rfl
@[simp] theorem accept_frKind (i : Instr) : (accept i s).frKind = s.frKind := rfl
@[simp] theorem accept_frRem (i : Instr) : (accept i s).frRem = s.frRem := rfl
@[simp] theorem accept_winCs (i : Instr) : (accept i s).winCs = s.winCs := rfl
@[simp] theorem accept_winCe (i : Instr) : (accept i s).winCe = s.winCe := rfl
@[simp] theorem accept_winRs (i : Instr) : (accept i s).winRs = s.winRs := rfl
@[simp] theorem accept_winRe (i : Instr) : (accept i s).winRe = s.winRe := rfl
@[simp] theorem accept_winValid (i : Instr) : (accept i s).winValid = s.winValid := rfl
@[simp] theorem accept_err (i : Instr) : (accept i s).err = s.err := rfl
@[simp] theorem accept_halted (i : Instr) : (accept i s).halted = s.halted := rfl
@[simp] theorem accept_released (i : Instr) : (accept i s).released = s.released := rfl
@[simp] theorem accept_animIdx (i : Instr) : (accept i s).animIdx = s.animIdx := rfl
@[simp] theorem accept_animActive (i : Instr) : (accept i s).animActive = s.animActive := rfl
@[simp] theorem accept_log (i : Instr) : (accept i s).log = s.log := rfl
@[simp] theorem accept_responses (i : Instr) : (accept i s).responses = s.responses := rfl
@[simp] theorem accept_panel (i : Instr) : (accept i s).panel = s.panel := rfl
@[simp] theorem accept_inputs (i : Instr) : (accept i s).inputs = s.inputs := rfl
@[simp] theorem accept_cmdPort (i : Instr) : (accept i s).cmdPort = s.cmdPort := rfl

/-! ### `respond`: the response -/

@[simp] theorem respond_cfg (st : Status) (v : Word) : (respond st v s).cfg = s.cfg := rfl
@[simp] theorem respond_initState (st : Status) (v : Word) : (respond st v s).initState = s.initState := rfl
@[simp] theorem respond_busy (st : Status) (v : Word) : (respond st v s).busy = false := rfl
@[simp] theorem respond_curReq (st : Status) (v : Word) : (respond st v s).curReq = none := rfl
@[simp] theorem respond_evPtr (st : Status) (v : Word) : (respond st v s).evPtr = s.evPtr := rfl
@[simp] theorem respond_dcLine (st : Status) (v : Word) : (respond st v s).dcLine = s.dcLine := rfl
@[simp] theorem respond_rstLine (st : Status) (v : Word) : (respond st v s).rstLine = s.rstLine := rfl
@[simp] theorem respond_frKind (st : Status) (v : Word) : (respond st v s).frKind = s.frKind := rfl
@[simp] theorem respond_frRem (st : Status) (v : Word) : (respond st v s).frRem = s.frRem := rfl
@[simp] theorem respond_winCs (st : Status) (v : Word) : (respond st v s).winCs = s.winCs := rfl
@[simp] theorem respond_winCe (st : Status) (v : Word) : (respond st v s).winCe = s.winCe := rfl
@[simp] theorem respond_winRs (st : Status) (v : Word) : (respond st v s).winRs = s.winRs := rfl
@[simp] theorem respond_winRe (st : Status) (v : Word) : (respond st v s).winRe = s.winRe := rfl
@[simp] theorem respond_winValid (st : Status) (v : Word) : (respond st v s).winValid = s.winValid := rfl
@[simp] theorem respond_err (st : Status) (v : Word) : (respond st v s).err = s.err := rfl
@[simp] theorem respond_halted (st : Status) (v : Word) : (respond st v s).halted = s.halted := rfl
@[simp] theorem respond_released (st : Status) (v : Word) : (respond st v s).released = s.released := rfl
@[simp] theorem respond_animIdx (st : Status) (v : Word) : (respond st v s).animIdx = s.animIdx := rfl
@[simp] theorem respond_animActive (st : Status) (v : Word) : (respond st v s).animActive = s.animActive := rfl
@[simp] theorem respond_log (st : Status) (v : Word) : (respond st v s).log = s.log := rfl
@[simp] theorem respond_responses (st : Status) (v : Word) : (respond st v s).responses = ⟨st, v⟩ :: s.responses := rfl
@[simp] theorem respond_panel (st : Status) (v : Word) : (respond st v s).panel = s.panel := rfl
@[simp] theorem respond_inputs (st : Status) (v : Word) : (respond st v s).inputs = s.inputs := rfl
@[simp] theorem respond_cmdPort (st : Status) (v : Word) : (respond st v s).cmdPort = s.cmdPort := rfl

/-! ### `markFatal`: the registers of the fatal path -/

@[simp] theorem markFatal_cfg (code : ErrCode) : (markFatal code s).cfg = s.cfg := rfl
@[simp] theorem markFatal_initState (code : ErrCode) : (markFatal code s).initState = s.initState := rfl
@[simp] theorem markFatal_busy (code : ErrCode) : (markFatal code s).busy = s.busy := rfl
@[simp] theorem markFatal_curReq (code : ErrCode) : (markFatal code s).curReq = s.curReq := rfl
@[simp] theorem markFatal_evPtr (code : ErrCode) : (markFatal code s).evPtr = s.evPtr := rfl
@[simp] theorem markFatal_dcLine (code : ErrCode) : (markFatal code s).dcLine = s.dcLine := rfl
@[simp] theorem markFatal_rstLine (code : ErrCode) : (markFatal code s).rstLine = s.rstLine := rfl
@[simp] theorem markFatal_frKind (code : ErrCode) : (markFatal code s).frKind = s.frKind := rfl
@[simp] theorem markFatal_frRem (code : ErrCode) : (markFatal code s).frRem = s.frRem := rfl
@[simp] theorem markFatal_winCs (code : ErrCode) : (markFatal code s).winCs = s.winCs := rfl
@[simp] theorem markFatal_winCe (code : ErrCode) : (markFatal code s).winCe = s.winCe := rfl
@[simp] theorem markFatal_winRs (code : ErrCode) : (markFatal code s).winRs = s.winRs := rfl
@[simp] theorem markFatal_winRe (code : ErrCode) : (markFatal code s).winRe = s.winRe := rfl
@[simp] theorem markFatal_winValid (code : ErrCode) : (markFatal code s).winValid = s.winValid := rfl
@[simp] theorem markFatal_err (code : ErrCode) : (markFatal code s).err = if s.err = .ok then code else s.err := rfl
@[simp] theorem markFatal_halted (code : ErrCode) : (markFatal code s).halted = true := rfl
@[simp] theorem markFatal_released (code : ErrCode) : (markFatal code s).released = s.released := rfl
@[simp] theorem markFatal_animIdx (code : ErrCode) : (markFatal code s).animIdx = s.animIdx := rfl
@[simp] theorem markFatal_animActive (code : ErrCode) : (markFatal code s).animActive = false := rfl
@[simp] theorem markFatal_log (code : ErrCode) : (markFatal code s).log = s.log := rfl
@[simp] theorem markFatal_responses (code : ErrCode) : (markFatal code s).responses = s.responses := rfl
@[simp] theorem markFatal_panel (code : ErrCode) : (markFatal code s).panel = s.panel := rfl
@[simp] theorem markFatal_inputs (code : ErrCode) : (markFatal code s).inputs = s.inputs := rfl
@[simp] theorem markFatal_cmdPort (code : ErrCode) : (markFatal code s).cmdPort = s.cmdPort := rfl

/-! ### `loadWindow`: the window registers loaded -/

@[simp] theorem loadWindow_cfg (cs ce rs re : Word) : (loadWindow cs ce rs re s).cfg = s.cfg := rfl
@[simp] theorem loadWindow_initState (cs ce rs re : Word) : (loadWindow cs ce rs re s).initState = s.initState := rfl
@[simp] theorem loadWindow_busy (cs ce rs re : Word) : (loadWindow cs ce rs re s).busy = s.busy := rfl
@[simp] theorem loadWindow_curReq (cs ce rs re : Word) : (loadWindow cs ce rs re s).curReq = s.curReq := rfl
@[simp] theorem loadWindow_evPtr (cs ce rs re : Word) : (loadWindow cs ce rs re s).evPtr = s.evPtr := rfl
@[simp] theorem loadWindow_dcLine (cs ce rs re : Word) : (loadWindow cs ce rs re s).dcLine = s.dcLine := rfl
@[simp] theorem loadWindow_rstLine (cs ce rs re : Word) : (loadWindow cs ce rs re s).rstLine = s.rstLine := rfl
@[simp] theorem loadWindow_frKind (cs ce rs re : Word) : (loadWindow cs ce rs re s).frKind = s.frKind := rfl
@[simp] theorem loadWindow_frRem (cs ce rs re : Word) : (loadWindow cs ce rs re s).frRem = s.frRem := rfl
@[simp] theorem loadWindow_winCs (cs ce rs re : Word) : (loadWindow cs ce rs re s).winCs = some cs := rfl
@[simp] theorem loadWindow_winCe (cs ce rs re : Word) : (loadWindow cs ce rs re s).winCe = some ce := rfl
@[simp] theorem loadWindow_winRs (cs ce rs re : Word) : (loadWindow cs ce rs re s).winRs = some rs := rfl
@[simp] theorem loadWindow_winRe (cs ce rs re : Word) : (loadWindow cs ce rs re s).winRe = some re := rfl
@[simp] theorem loadWindow_winValid (cs ce rs re : Word) : (loadWindow cs ce rs re s).winValid = false := rfl
@[simp] theorem loadWindow_err (cs ce rs re : Word) : (loadWindow cs ce rs re s).err = s.err := rfl
@[simp] theorem loadWindow_halted (cs ce rs re : Word) : (loadWindow cs ce rs re s).halted = s.halted := rfl
@[simp] theorem loadWindow_released (cs ce rs re : Word) : (loadWindow cs ce rs re s).released = s.released := rfl
@[simp] theorem loadWindow_animIdx (cs ce rs re : Word) : (loadWindow cs ce rs re s).animIdx = s.animIdx := rfl
@[simp] theorem loadWindow_animActive (cs ce rs re : Word) : (loadWindow cs ce rs re s).animActive = s.animActive := rfl
@[simp] theorem loadWindow_log (cs ce rs re : Word) : (loadWindow cs ce rs re s).log = s.log := rfl
@[simp] theorem loadWindow_responses (cs ce rs re : Word) : (loadWindow cs ce rs re s).responses = s.responses := rfl
@[simp] theorem loadWindow_panel (cs ce rs re : Word) : (loadWindow cs ce rs re s).panel = s.panel := rfl
@[simp] theorem loadWindow_inputs (cs ce rs re : Word) : (loadWindow cs ce rs re s).inputs = s.inputs := rfl
@[simp] theorem loadWindow_cmdPort (cs ce rs re : Word) : (loadWindow cs ce rs re s).cmdPort = s.cmdPort := rfl

/-! ### `withRequests`: what the host presents -/

@[simp] theorem withRequests_cfg (l : List (List Byte)) : (s.withRequests l).cfg = s.cfg := rfl
@[simp] theorem withRequests_initState (l : List (List Byte)) : (s.withRequests l).initState = s.initState := rfl
@[simp] theorem withRequests_busy (l : List (List Byte)) : (s.withRequests l).busy = s.busy := rfl
@[simp] theorem withRequests_curReq (l : List (List Byte)) : (s.withRequests l).curReq = s.curReq := rfl
@[simp] theorem withRequests_evPtr (l : List (List Byte)) : (s.withRequests l).evPtr = s.evPtr := rfl
@[simp] theorem withRequests_dcLine (l : List (List Byte)) : (s.withRequests l).dcLine = s.dcLine := rfl
@[simp] theorem withRequests_rstLine (l : List (List Byte)) : (s.withRequests l).rstLine = s.rstLine := rfl
@[simp] theorem withRequests_frKind (l : List (List Byte)) : (s.withRequests l).frKind = s.frKind := rfl
@[simp] theorem withRequests_frRem (l : List (List Byte)) : (s.withRequests l).frRem = s.frRem := rfl
@[simp] theorem withRequests_winCs (l : List (List Byte)) : (s.withRequests l).winCs = s.winCs := rfl
@[simp] theorem withRequests_winCe (l : List (List Byte)) : (s.withRequests l).winCe = s.winCe := rfl
@[simp] theorem withRequests_winRs (l : List (List Byte)) : (s.withRequests l).winRs = s.winRs := rfl
@[simp] theorem withRequests_winRe (l : List (List Byte)) : (s.withRequests l).winRe = s.winRe := rfl
@[simp] theorem withRequests_winValid (l : List (List Byte)) : (s.withRequests l).winValid = s.winValid := rfl
@[simp] theorem withRequests_err (l : List (List Byte)) : (s.withRequests l).err = s.err := rfl
@[simp] theorem withRequests_halted (l : List (List Byte)) : (s.withRequests l).halted = s.halted := rfl
@[simp] theorem withRequests_released (l : List (List Byte)) : (s.withRequests l).released = s.released := rfl
@[simp] theorem withRequests_animIdx (l : List (List Byte)) : (s.withRequests l).animIdx = s.animIdx := rfl
@[simp] theorem withRequests_animActive (l : List (List Byte)) : (s.withRequests l).animActive = s.animActive := rfl
@[simp] theorem withRequests_log (l : List (List Byte)) : (s.withRequests l).log = s.log := rfl
@[simp] theorem withRequests_responses (l : List (List Byte)) : (s.withRequests l).responses = s.responses := rfl
@[simp] theorem withRequests_panel (l : List (List Byte)) : (s.withRequests l).panel = s.panel := rfl
@[simp] theorem withRequests_inputs (l : List (List Byte)) : (s.withRequests l).inputs = { s.inputs with requests := l } := rfl
@[simp] theorem withRequests_cmdPort (l : List (List Byte)) : (s.withRequests l).cmdPort = s.cmdPort := rfl

/-! ### `portTaken`: the framer's command taken -/

@[simp] theorem portTaken_cfg : s.portTaken.cfg = s.cfg := rfl
@[simp] theorem portTaken_initState : s.portTaken.initState = s.initState := rfl
@[simp] theorem portTaken_busy : s.portTaken.busy = s.busy := rfl
@[simp] theorem portTaken_curReq : s.portTaken.curReq = s.curReq := rfl
@[simp] theorem portTaken_evPtr : s.portTaken.evPtr = s.evPtr := rfl
@[simp] theorem portTaken_dcLine : s.portTaken.dcLine = s.dcLine := rfl
@[simp] theorem portTaken_rstLine : s.portTaken.rstLine = s.rstLine := rfl
@[simp] theorem portTaken_frKind : s.portTaken.frKind = s.frKind := rfl
@[simp] theorem portTaken_frRem : s.portTaken.frRem = s.frRem := rfl
@[simp] theorem portTaken_winCs : s.portTaken.winCs = s.winCs := rfl
@[simp] theorem portTaken_winCe : s.portTaken.winCe = s.winCe := rfl
@[simp] theorem portTaken_winRs : s.portTaken.winRs = s.winRs := rfl
@[simp] theorem portTaken_winRe : s.portTaken.winRe = s.winRe := rfl
@[simp] theorem portTaken_winValid : s.portTaken.winValid = s.winValid := rfl
@[simp] theorem portTaken_err : s.portTaken.err = s.err := rfl
@[simp] theorem portTaken_halted : s.portTaken.halted = s.halted := rfl
@[simp] theorem portTaken_released : s.portTaken.released = s.released := rfl
@[simp] theorem portTaken_animIdx : s.portTaken.animIdx = s.animIdx := rfl
@[simp] theorem portTaken_animActive : s.portTaken.animActive = s.animActive := rfl
@[simp] theorem portTaken_log : s.portTaken.log = s.log := rfl
@[simp] theorem portTaken_responses : s.portTaken.responses = s.responses := rfl
@[simp] theorem portTaken_panel : s.portTaken.panel = s.panel := rfl
@[simp] theorem portTaken_inputs : s.portTaken.inputs = s.inputs := rfl
@[simp] theorem portTaken_cmdPort : s.portTaken.cmdPort = none := rfl

/-! ### `withPtr`: EV_PTR on the fatal path -/

@[simp] theorem withPtr_cfg (n : Nat) : (s.withPtr n).cfg = s.cfg := rfl
@[simp] theorem withPtr_initState (n : Nat) : (s.withPtr n).initState = s.initState := rfl
@[simp] theorem withPtr_busy (n : Nat) : (s.withPtr n).busy = s.busy := rfl
@[simp] theorem withPtr_curReq (n : Nat) : (s.withPtr n).curReq = s.curReq := rfl
@[simp] theorem withPtr_evPtr (n : Nat) : (s.withPtr n).evPtr = n := rfl
@[simp] theorem withPtr_dcLine (n : Nat) : (s.withPtr n).dcLine = s.dcLine := rfl
@[simp] theorem withPtr_rstLine (n : Nat) : (s.withPtr n).rstLine = s.rstLine := rfl
@[simp] theorem withPtr_frKind (n : Nat) : (s.withPtr n).frKind = s.frKind := rfl
@[simp] theorem withPtr_frRem (n : Nat) : (s.withPtr n).frRem = s.frRem := rfl
@[simp] theorem withPtr_winCs (n : Nat) : (s.withPtr n).winCs = s.winCs := rfl
@[simp] theorem withPtr_winCe (n : Nat) : (s.withPtr n).winCe = s.winCe := rfl
@[simp] theorem withPtr_winRs (n : Nat) : (s.withPtr n).winRs = s.winRs := rfl
@[simp] theorem withPtr_winRe (n : Nat) : (s.withPtr n).winRe = s.winRe := rfl
@[simp] theorem withPtr_winValid (n : Nat) : (s.withPtr n).winValid = s.winValid := rfl
@[simp] theorem withPtr_err (n : Nat) : (s.withPtr n).err = s.err := rfl
@[simp] theorem withPtr_halted (n : Nat) : (s.withPtr n).halted = s.halted := rfl
@[simp] theorem withPtr_released (n : Nat) : (s.withPtr n).released = s.released := rfl
@[simp] theorem withPtr_animIdx (n : Nat) : (s.withPtr n).animIdx = s.animIdx := rfl
@[simp] theorem withPtr_animActive (n : Nat) : (s.withPtr n).animActive = s.animActive := rfl
@[simp] theorem withPtr_log (n : Nat) : (s.withPtr n).log = s.log := rfl
@[simp] theorem withPtr_responses (n : Nat) : (s.withPtr n).responses = s.responses := rfl
@[simp] theorem withPtr_panel (n : Nat) : (s.withPtr n).panel = s.panel := rfl
@[simp] theorem withPtr_inputs (n : Nat) : (s.withPtr n).inputs = s.inputs := rfl
@[simp] theorem withPtr_cmdPort (n : Nat) : (s.withPtr n).cmdPort = s.cmdPort := rfl

end Sys2Proof.Machine
end

