-- ==== Sys2Proof/Laws/Flow.lean ====
section
/-! SUPPORT. Laws/Flow.lean: how pieces of a request compose, and the one lemma by which a property of State that every single
update keeps is kept by exec and by step. -/

namespace Sys2Proof.Machine

/-! ## Composition -/

@[simp] theorem Flow.go_andThen (s : State) (k : State → Flow) : (Flow.go s).andThen k = k s := rfl

@[simp] theorem Flow.ended_andThen (s : State) (k : State → Flow) : (Flow.ended s).andThen k = .ended s := rfl

@[simp] theorem Flow.stuck_andThen (f : Fault) (k : State → Flow) : (Flow.stuck f).andThen k = .stuck f := rfl

@[simp] theorem Flow.andThen_go (f : Flow) : f.andThen .go = f := by cases f <;> rfl

theorem Flow.andThen_assoc (f : Flow) (k l : State → Flow) :
    (f.andThen k).andThen l = f.andThen fun s => (k s).andThen l := by
  cases f <;> rfl

@[simp] theorem runSteps_nil (s : State) : runSteps [] s = .go s := rfl

@[simp] theorem runSteps_cons (g : EvStep) (gs : List EvStep) (s : State) :
    runSteps (g :: gs) s = (perform g s).andThen (runSteps gs) := rfl

theorem runSteps_append (gs hs : List EvStep) (s : State) :
    runSteps (gs ++ hs) s = (runSteps gs s).andThen (runSteps hs) := by
  induction gs generalizing s with
  | nil => rfl
  | cons g gs ih =>
    simp only [List.cons_append, runSteps_cons, Flow.andThen_assoc]
    congr 1; funext t; exact ih t

@[simp] theorem runActs_nil (s : State) : runActs [] s = .go s := rfl

@[simp] theorem runActs_cons (a : Act) (as : List Act) (s : State) :
    runActs (a :: as) s = (act a s).andThen (runActs as) := rfl

theorem runActs_append (as bs : List Act) (s : State) :
    runActs (as ++ bs) s = (runActs as s).andThen (runActs bs) := by
  induction as generalizing s with
  | nil => rfl
  | cons a as ih =>
    simp only [List.cons_append, runActs_cons, Flow.andThen_assoc]
    congr 1; funext t; exact ih t

theorem perform_append (ev : Event) (as bs : List Act) (s : State) :
    perform ⟨ev, as ++ bs⟩ s = (perform ⟨ev, as⟩ s).andThen (runActs bs) := by
  unfold perform
  cases emit ev s <;> simp [runActs_append]

/-- Actions appended to the last event step run after all of them. -/
theorem runSteps_thenDo (gs : List EvStep) (as : List Act) (s : State) (h : gs ≠ []) :
    runSteps (thenDo gs as) s = (runSteps gs s).andThen (runActs as) := by
  induction gs generalizing s with
  | nil => exact absurd rfl h
  | cons g gs ih =>
    cases gs with
    | nil =>
      simp only [thenDo, runSteps_cons, perform_append, Flow.andThen_assoc]
      congr 1; funext t; simp only [runSteps_nil, Flow.go_andThen]
      exact Flow.andThen_go _
    | cons g' gs =>
      simp only [thenDo, runSteps_cons g, Flow.andThen_assoc]
      congr 1; funext t; exact ih t (by simp)

/-! ## The framer's bookkeeping -/

/-- Everything opening a payload obligation can do: stop, or write the framer's two registers so that they agree. -/
theorem openPayload_cases (op : Byte) (s : State) :
    (∃ f, openPayload op s = .stuck f) ∨
      ∃ k n, openPayload op s = .go { s with frKind := k, frRem := n } ∧ s.frKind = .idle ∧
        ((op = s.cfg.opRamwr ∧ k = .stream ∧ 0 < n) ∨ (k = .fixed ∧ payloadLen s.cfg op = some n ∧ 0 < n) ∨
          (k = .idle ∧ n = 0)) := by
  unfold openPayload openDataPhase
  split
  · exact .inl ⟨_, rfl⟩
  · rename_i hk
    have hk' : s.frKind = .idle := by simpa using hk
    split
    · rename_i ho
      split
      · split
        · refine .inr ⟨_, _, rfl, hk', .inl ⟨ho, rfl, ?_⟩⟩
          simp only [dataPhase]
          exact Nat.mul_pos (by omega) (by omega)
        · exact .inl ⟨_, rfl⟩
      · exact .inl ⟨_, rfl⟩
    · split
      · exact .inl ⟨_, rfl⟩
      · exact .inr ⟨_, _, rfl, hk', .inr (.inr ⟨rfl, rfl⟩)⟩
      · rename_i n hn
        exact .inr ⟨_, _, rfl, hk', .inr (.inl ⟨rfl, hn, Nat.succ_pos n⟩)⟩

/-- Everything counting a byte off can do. -/
theorem countOff_cases (s : State) :
    (countOff s = .stuck .framerContract ∧ s.frKind = .idle) ∨
      (countOff s = .stuck .belowZero ∧ s.frKind ≠ .idle ∧ s.frRem = 0) ∨
      (s.frKind ≠ .idle ∧ 0 < s.frRem ∧
        countOff s = .go { s with frKind := if s.frRem = 1 then .idle else s.frKind, frRem := s.frRem - 1 }) := by
  unfold countOff
  split
  · rename_i h; exact .inl ⟨rfl, h⟩
  · rename_i h
    split
    · rename_i h0; exact .inr (.inl ⟨rfl, h, h0⟩)
    · rename_i h1; exact .inr (.inr ⟨h, by omega, by simp [h1]⟩)
    · rename_i n hn; exact .inr (.inr ⟨h, by omega, by simp [hn]⟩)

/-! ## Bus commands by themselves -/

/-- There is a window exactly when WIN_VALID = 1 stands over a range of columns and one of rows. -/
theorem hasWindow_iff (s : State) : s.hasWindow = true ↔ s.winValid = true ∧ ∃ cs ce rs re, s.winCs = some cs ∧
    s.winCe = some ce ∧ s.winRs = some rs ∧ s.winRe = some re ∧ cs.toNat ≤ ce.toNat ∧ rs.toNat ≤ re.toNat := by
  unfold State.hasWindow
  cases s.winCs <;> cases s.winCe <;> cases s.winRs <;> cases s.winRe <;> simp [and_assoc]

/-- In a good state there is a window exactly when WIN_VALID = 1. -/
theorem State.Good.hasWindow {s : State} (g : s.Good) : s.hasWindow = s.winValid := by
  rw [Bool.eq_iff_iff, hasWindow_iff]
  refine ⟨And.left, fun h => ⟨h, ?_⟩⟩
  obtain ⟨cs, ce, rs, re, h1, h2, h3, h4, hw⟩ := g.window h
  simp only [windowOk, rangeOk, Bool.and_eq_true, decide_eq_true_eq] at hw
  exact ⟨cs, ce, rs, re, h1, h2, h3, h4, by omega, by omega⟩

/-- Everything a bus command by itself can do: PROTOCOL before its first event, or its events. -/
theorem planCommand_run (gs : List EvStep) (s : State) : (planCommand gs s).run =
    if s.frKind ≠ .idle then .ended (raise .protocol s) else runSteps gs s := by
  unfold planCommand
  split
  · rfl
  · exact Flow.andThen_go _

/-- The same of RAMWR. -/
theorem planRamwr_run (s : State) : (planRamwr s).run =
    if s.hasWindow = false ∨ s.frKind ≠ .idle then .ended (raise .protocol s) else runSteps (ramwrSteps s.cfg) s := by
  unfold planRamwr
  cases h : s.hasWindow
  · simp [fatal, raise, Plan.run]
  · simp only [Bool.not_true, Bool.false_eq_true, if_false, planCommand_run, Bool.true_eq_false, false_or]

/-! ## Properties that every update keeps -/

/-- `P` holds in the state this comes to, if it comes to one. -/
def Flow.Keeps (P : State → Prop) : Flow → Prop
  | .go s => P s
  | .ended s => P s
  | .stuck _ => True

theorem Flow.Keeps.andThen {P : State → Prop} {f : Flow} {k : State → Flow} (hf : f.Keeps P)
    (hk : ∀ s, P s → (k s).Keeps P) : (f.andThen k).Keeps P := by
  cases f with
  | go s => exact hk s hf
  | ended s => exact hf
  | stuck _ => trivial

/-- A register action keeps `P` if each write it can make does; the framer's two registers always come to agree. -/
theorem keeps_act {P : State → Prop} {s : State} (a : Act)
    (fr : ∀ k n, (k = .idle ↔ n = 0) → P { s with frKind := k, frRem := n })
    (init : ∀ st, P { s with initState := st }) (win : P { s with winValid := true })
    (pair : ∀ len policy, P (pairDone len policy s)) (ans : ∀ st v, P (respond st v s)) : (act a s).Keeps P := by
  cases a with
  | openPayload op =>
    obtain ⟨f, e⟩ | ⟨k, n, e, -, h⟩ := openPayload_cases op s
    · rw [act, e]; trivial
    · rw [act, e]
      refine fr k n ?_
      rcases h with ⟨-, rfl, h⟩ | ⟨rfl, -, h⟩ | ⟨rfl, rfl⟩
      · simp; omega
      · simp; omega
      · simp
  | countOff =>
    obtain ⟨e, -⟩ | ⟨e, -⟩ | ⟨hk, h0, e⟩ := countOff_cases s
    · rw [act, e]; trivial
    · rw [act, e]; trivial
    · rw [act, e]
      refine fr _ _ ?_
      split
      · simp_all
      · simp only [hk, false_iff]; omega
  | setInit st => exact init st
  | windowSent => exact win
  | pairDone len policy => exact pair len policy
  | answer st v => exact ans st v

/-- Every update a running request makes keeps `P`. -/
structure Kept (P : State → Prop) : Prop where
  record : ∀ ev s, P s → P (record ev s)
  act : ∀ a s, P s → (act a s).Keeps P
  mark : ∀ c s, P s → P (markFatal c s)
  respond : ∀ st v s, P s → P (respond st v s)
  ptr : ∀ n s, P s → P (s.withPtr n)
  reset : ∀ s, P s → P (blockReset s)

/-- The end of the fatal path keeps what its updates keep. -/
theorem Kept.releaseAndRespond {P : State → Prop} (k : Kept P) (c : ErrCode) (s : State) (h : P s) :
    P (releaseAndRespond c s) := by
  unfold Machine.releaseAndRespond
  split
  · exact k.respond _ _ _ h
  · have hr := k.record .release _ h
    unfold emit
    split_ifs
    · exact k.reset _ hr
    · exact k.respond _ _ _ (k.ptr _ _ hr)
    · exact k.respond _ _ _ (k.ptr _ _ hr)

/-- The fatal path keeps what its updates keep. -/
theorem Kept.raise {P : State → Prop} (k : Kept P) (c : ErrCode) (s : State) (h : P s) : P (raise c s) := by
  exact k.releaseAndRespond c _ (k.mark c s h)

theorem Kept.runActs {P : State → Prop} (k : Kept P) (as : List Act) (s : State) (h : P s) :
    (runActs as s).Keeps P := by
  induction as generalizing s with
  | nil => exact h
  | cons a as ih => exact (k.act a s h).andThen ih

theorem Kept.perform {P : State → Prop} (k : Kept P) (g : EvStep) (s : State) (h : P s) : (perform g s).Keeps P := by
  have hr := k.record g.ev s h
  unfold Machine.perform emit
  split_ifs
  · exact k.reset _ hr
  · exact k.raise _ _ hr
  · exact k.runActs _ _ hr

theorem Kept.runSteps {P : State → Prop} (k : Kept P) (gs : List EvStep) (s : State) (h : P s) :
    (runSteps gs s).Keeps P := by
  induction gs generalizing s with
  | nil => exact h
  | cons g gs ih => exact (k.perform g s h).andThen ih

/-- `P` holds where a plan stands. -/
def Plan.Keeps (P : State → Prop) : Plan → Prop
  | .todo s _ => P s
  | .sample _ stop go => stop.Keeps P ∧ go.Keeps P
  | .trap _ s => P s
  | .reset s => P s
  | .closed f => f.Keeps P

theorem Kept.run {P : State → Prop} (k : Kept P) (p : Plan) (h : p.Keeps P) : p.run.Keeps P := by
  induction p with
  | todo s p => exact (k.runSteps _ _ h).andThen fun t ht => k.runActs _ _ ht
  | sample s stop go ihs ihg =>
    unfold Plan.run
    split
    · exact ihs h.1
    · exact ihg h.2
  | trap code s => exact k.releaseAndRespond code s h
  | reset s => exact k.reset s h
  | closed f => exact h

/-- Every update of the machine, inside a request and around it, keeps `P`. -/
structure KeptByAll (P : State → Prop) : Prop extends Kept P where
  accept : ∀ i s, P s → P (accept i s)
  popTransport : ∀ s, P s → P s.popTransport
  popStop : ∀ s, P s → P s.popStop
  popRst : ∀ s, P s → P s.popRst
  loadWindow : ∀ cs ce rs re s, P s → P (loadWindow cs ce rs re s)
  active : ∀ s b, P s → P { s with animActive := b }
  index : ∀ s n, P s → P { s with animIdx := n }

theorem KeptByAll.refuse {P : State → Prop} (k : KeptByAll P) {s : State} (h : P s) : (refuse s).Keeps P :=
  k.respond _ _ _ h

theorem KeptByAll.fatal {P : State → Prop} (k : KeptByAll P) {s : State} (c : ErrCode) (h : P s) :
    (fatal c s).Keeps P :=
  k.mark c _ h

theorem KeptByAll.planFrame {P : State → Prop} (k : KeptByAll P) (f : Frame) (mk : List ColorSample → Program)
    {s : State} (h : P s) : (planFrame f mk s).Keeps P := by
  unfold Machine.planFrame
  split
  · exact k.fatal _ h
  · split
    · trivial
    · exact k.loadWindow _ _ _ _ _ h

theorem KeptByAll.planBoundary {P : State → Prop} (k : KeptByAll P) (seq : List (Frame × Nat)) (policy : Policy)
    {s : State} (h : P s) : (planBoundary seq policy s).Keeps P := by
  refine ⟨k.respond _ _ _ (k.active _ _ (k.popStop _ h)), ?_⟩
  unfold planPairStart
  split
  · trivial
  · exact k.planFrame _ _ (k.popStop _ h)

theorem KeptByAll.planStart {P : State → Prop} (k : KeptByAll P) (i : Instr) {s : State} (h : P s) :
    (planStart i s).Keeps P := by
  cases i <;>
    simp only [Machine.planStart, planInit, planSendCmd, planSendData, planSetWindow, planEncode, planDrawFrame, planAnimate,
      planReadStatus, planRelease, planReserved]
  case drawFrame => split_ifs <;> first | exact k.refuse h | exact k.fatal _ h | exact k.planFrame _ _ h
  case animate =>
    split_ifs <;> first | exact k.refuse h | exact k.fatal _ h | exact k.planBoundary _ _ (k.index _ _ (k.active _ true h))
  all_goals
    (try split_ifs) <;> first
      | exact k.refuse h
      | exact k.fatal _ h
      | exact k.fatal _ (k.popTransport _ h)
      | exact k.popTransport _ h
      | exact k.loadWindow _ _ _ _ _ h
      | exact k.respond _ _ _ h
      | exact h
      | trivial

theorem Plan.keeps_drop {P : State → Prop} (n : Nat) (p : Program) {s : State} (h : P s) : (planDrop n p s).Keeps P := by
  unfold planDrop; split
  · exact h
  · trivial

theorem Plan.keeps_dropFrame {P : State → Prop} (n : Nat) (f : Frame) (mk : List ColorSample → Program) {s : State}
    (h : P s) : (planDropFrame n f mk s).Keeps P := by
  unfold planDropFrame; split
  · trivial
  · exact Plan.keeps_drop _ _ h

theorem KeptByAll.planRest {P : State → Prop} (k : KeptByAll P) (i : Instr) {s : State} (h : P s) :
    (planRest i s).Keeps P := by
  cases i <;> simp only [Machine.planRest]
  case animate =>
    split
    · unfold planPair
      split
      · exact k.planBoundary _ _ h
      · split
        · trivial
        · exact Plan.keeps_dropFrame _ _ _ h
    · trivial
  all_goals first | exact Plan.keeps_drop _ _ h | exact Plan.keeps_dropFrame _ _ _ h | trivial

theorem KeptByAll.planOf {P : State → Prop} (k : KeptByAll P) {s : State} (h : P s) : (planOf s).Keeps P := by
  unfold Machine.planOf
  split
  · trivial
  · split
    · exact k.planStart _ h
    · exact k.planRest _ h

/-- Going on with a request keeps what every update keeps. -/
theorem KeptByAll.resume {P : State → Prop} (k : KeptByAll P) {s : State} (h : P s) : (resume s).Keeps P :=
  k.run _ (k.planOf h)

/-- An outcome's next state has what the flow keeps. -/
theorem Flow.Keeps.next {P : State → Prop} {f : Flow} {t : State} (h : f.Keeps P) (e : f.toOutcome = .next t) : P t := by
  cases f with
  | go s => injection e with e; exact e ▸ h
  | ended s => injection e with e; exact e ▸ h
  | stuck _ => simp [Flow.toOutcome] at e

/-- exec of a request is its plan from acceptance, run. -/
theorem exec_request (i : Instr) (s : State) (h : i.level = .request) :
    exec i s = (planStart i (accept i s)).run.toOutcome := by
  cases i <;> first | rfl | simp [Instr.level] at h

theorem KeptByAll.planCommand {P : State → Prop} (k : KeptByAll P) (gs : List EvStep) {s : State} (h : P s) :
    (planCommand gs s).Keeps P := by
  unfold Machine.planCommand
  split
  · exact k.fatal _ h
  · exact h

theorem KeptByAll.planRamwr {P : State → Prop} (k : KeptByAll P) {s : State} (h : P s) : (planRamwr s).Keeps P := by
  unfold Machine.planRamwr
  split
  · exact k.fatal _ h
  · exact k.planCommand _ h

/-- exec keeps what every update keeps. -/
theorem KeptByAll.exec {P : State → Prop} (k : KeptByAll P) {i : Instr} {s t : State} (h : P s)
    (e : exec i s = .next t) : P t := by
  cases hl : i.level with
  | request =>
    rw [exec_request i s hl] at e
    exact (k.run _ (k.planStart i (k.accept i s h))).next e
  | command =>
    cases i <;> first
      | exact (k.run _ (k.planCommand _ h)).next e
      | exact (k.run _ (k.planRamwr h)).next e
      | simp [Instr.level] at hl

/-- Everything a step can do when it answers a next state. -/
theorem step_next_cases {s t : State} (e : step s = .next t) :
    s.cfg.wf = true ∧
      ((s.rstReads = true ∧ t = blockReset s.popRst) ∨
        (s.rstReads = false ∧
          ((s.cmdPort = none ∧ s.busy = false ∧ s.inputs.requests = [] ∧ t = s.popRst) ∨
            (s.cmdPort = none ∧ s.busy = true ∧ (resume s.popRst).toOutcome = .next t) ∨
            (∃ bytes i, s.cmdPort = some bytes ∧ decodeCommand s.cfg bytes = .ok i ∧
              exec i s.popRst.portTaken = .next t) ∨
            (∃ bytes rest i, s.cmdPort = none ∧ s.busy = false ∧ s.inputs.requests = bytes :: rest ∧
              decodeRequest bytes = .ok i ∧ exec i (s.popRst.withRequests rest) = .next t)))) := by
  unfold Machine.step fetch at e
  cases hw : s.cfg.wf with
  | false => simp [hw] at e
  | true =>
    refine ⟨rfl, ?_⟩
    cases hr : s.rstReads with
    | true =>
      simp only [hw, hr, Bool.not_true, Bool.false_eq_true, if_false, if_true] at e
      injection e with e; exact .inl ⟨rfl, e.symm⟩
    | false =>
      refine .inr ⟨rfl, ?_⟩
      simp only [hw, hr, Bool.not_true, Bool.false_eq_true, if_false] at e
      cases hc : s.cmdPort with
      | some bytes =>
        simp only [fetchRun, fetchCommand, popRst_cmdPort, hc, popRst_cfg] at e
        cases hd : decodeCommand s.cfg bytes with
        | error x => simp [hd] at e
        | ok i => exact .inr (.inr (.inl ⟨bytes, i, rfl, hd, by simpa [hd] using e⟩))
      | none =>
        cases hb : s.busy with
        | true => exact .inr (.inl ⟨rfl, rfl, by simpa [fetchRun, hc, hb] using e⟩)
        | false =>
          cases hq : s.inputs.requests with
          | nil => exact .inl ⟨rfl, rfl, rfl, by simpa [fetchRun, fetchRequest, hc, hb, hq, eq_comm] using e⟩
          | cons bytes rest =>
            simp only [fetchRun, fetchRequest, popRst_cmdPort, hc, popRst_busy, hb, popRst_inputs, hq, Bool.false_eq_true,
              if_false] at e
            cases hd : decodeRequest bytes with
            | error x => simp [hd] at e
            | ok i => exact .inr (.inr (.inr ⟨bytes, rest, i, rfl, rfl, rfl, hd, by simpa [hd] using e⟩))

/-- step keeps what every update keeps, if taking an instruction from where it stands keeps it. -/
theorem KeptByAll.step {P : State → Prop} (k : KeptByAll P) (hport : ∀ s, P s → P s.portTaken)
    (hreq : ∀ s l, P s → P (s.withRequests l)) {s t : State} (h : P s) (e : step s = .next t) : P t := by
  have hp := k.popRst s h
  obtain ⟨-, ⟨-, rfl⟩ | ⟨-, ⟨-, -, -, rfl⟩ | ⟨-, -, e⟩ | ⟨_, _, -, -, e⟩ | ⟨_, _, _, -, -, -, -, e⟩⟩⟩ :=
    step_next_cases e
  · exact k.reset _ hp
  · exact hp
  · exact (k.resume hp).next e
  · exact k.exec (hport _ hp) e
  · exact k.exec (hreq _ _ hp) e

end Sys2Proof.Machine
end

