-- ==== Sys2Proof/Laws/Calm.lean ====
section
/-! SUPPORT. Laws/Calm.lean: what the shared event sequences do when no event fails and no block reset comes: one lemma for each
of send_command, send_data, frame and a run of data bytes (spec/40_command_protocol_framer.md R121, R122, R127). -/

namespace Sys2Proof.Machine

/-! ## Quiet schedules -/

theorem quiet_succ {n : Nat} {l : List Bool} (h : quiet (n + 1) l = true) :
    l.headD false = false ∧ quiet n l.tail = true := by
  cases l with
  | nil => simp [quiet]
  | cons b l => simpa [quiet] using h

theorem quiet_drop {n m : Nat} {l : List Bool} (h : quiet (n + m) l = true) : quiet m (l.drop n) = true := by
  induction n generalizing l with
  | zero => simpa using h
  | succ n ih =>
    cases l with
    | nil => simp [quiet]
    | cons b l =>
      have h' : quiet (n + m + 1) (b :: l) = true := by rwa [show n + m + 1 = n + 1 + m by omega]
      simpa using ih (quiet_succ h').2

theorem quiet_take {n m : Nat} {l : List Bool} (h : quiet n l = true) (hm : m ≤ n) : quiet m l = true := by
  unfold quiet at *
  simp only [List.all_eq_true] at *
  intro b hb
  exact h b ((List.take_sublist_take_left hm).subset hb)

theorem State.calm.mono {a b a' b' : Nat} {s : State} (h : s.calm a b) (ha : a' ≤ a) (hb : b' ≤ b) : s.calm a' b' :=
  ⟨quiet_take h.1 ha, quiet_take h.2 hb⟩

@[simp] theorem Inputs.after_zero (i : Inputs) : i.after 0 0 = i := by simp [Inputs.after]

@[simp] theorem Inputs.after_after (i : Inputs) (a b c d : Nat) : (i.after a b).after c d = i.after (a + c) (b + d) := by
  simp [Inputs.after]

@[simp] theorem Inputs.after_requests (i : Inputs) (a b : Nat) : (i.after a b).requests = i.requests := rfl

@[simp] theorem Inputs.after_transportOk (i : Inputs) (a b : Nat) : (i.after a b).transportOk = i.transportOk := rfl

@[simp] theorem Inputs.after_stop (i : Inputs) (a b : Nat) : (i.after a b).stop = i.stop := rfl

/-- A state whose inputs are those of a calm state some readings later is calm for what is left. -/
theorem State.calm.later {a b c d : Nat} {s t : State} (h : s.calm (a + c) (b + d)) (e : t.inputs = s.inputs.after a b) :
    t.calm c d := by
  constructor
  · rw [e]; exact quiet_drop h.1
  · rw [e]; exact quiet_drop h.2

/-! ## One event -/

/-- How many failure reports an event reads. -/
def Event.cost (ev : Event) : Nat := if ev.canFail then 1 else 0

@[simp] theorem Event.cost_dc (l : DcLevel) : (Event.dc l).cost = 1 := rfl
@[simp] theorem Event.cost_rst (v : Level) : (Event.rst v).cost = 1 := rfl
@[simp] theorem Event.cost_xfer (b : Byte) : (Event.xfer b).cost = 1 := rfl
@[simp] theorem Event.cost_wait (m : Nat) : (Event.wait m).cost = 0 := rfl
@[simp] theorem Event.cost_release : Event.release.cost = 0 := rfl

theorem inputsAfter_eq (ev : Event) (i : Inputs) : inputsAfter ev i = i.after ev.cost 1 := by
  cases ev <;> simp [inputsAfter, Inputs.after, Event.cost, Event.canFail]

theorem eventFails_calm {ev : Event} {s : State} {b : Nat} (h : s.calm ev.cost b) : eventFails ev s = false := by
  unfold eventFails
  cases hc : ev.canFail with
  | false => rfl
  | true =>
    have h1 := h.1
    simp only [Event.cost, hc, if_true] at h1
    simpa using (quiet_succ h1).1

theorem rstReads_calm {s : State} {a b : Nat} (h : s.calm a (b + 1)) : s.rstReads = false := (quiet_succ h.2).1

/-- One calm event: it is recorded, and the actions after it are made. -/
theorem perform_calm {g : EvStep} {s : State} (h : s.calm g.ev.cost 1) :
    perform g s = runActs g.after (record g.ev s) := by
  unfold perform emit
  rw [rstReads_calm h, eventFails_calm h]
  rfl

/-- The panel after a calm event. -/
theorem record_panel_calm {ev : Event} {s : State} {b : Nat} (h : s.calm ev.cost b) :
    (record ev s).panel = observe ev s := by
  rw [record_panel, eventFails_calm h]; rfl

/-! ## The two primitives -/

/-- The state after `DC(l), XFER(b)` performed calmly, the panel aid left to be said. -/
def pairSent (l : DcLevel) (b : Byte) (p : Panel) (s : State) : State :=
  { s with
    dcLine := dcAfter (.dc l) s.dcLine
    evPtr := s.evPtr + 2
    log := .xfer b :: .dc l :: s.log
    panel := p
    inputs := s.inputs.after 2 2 }

/-- `send_command(op)`: the two events, then the obligation is opened (40_command_protocol_framer.md R121). -/
theorem runSteps_commandSteps {op : Byte} {s : State} (h : s.calm 2 2) :
    runSteps (commandSteps op) s = openPayload op (pairSent .cmd op (panelOpcode s op) s) := by
  have h1 : s.calm (Event.dc .cmd).cost 1 := h.mono (by simp) (by omega)
  have e1 : (record (.dc .cmd) s).inputs = s.inputs.after 1 1 := inputsAfter_eq _ _
  have h2 : (record (.dc .cmd) s).calm (Event.xfer op).cost 1 := State.calm.later (a := 1) (b := 1) h e1
  simp only [commandSteps, runSteps_cons, perform_calm (g := ⟨.dc .cmd, []⟩) h1, runActs_nil, Flow.go_andThen,
    perform_calm (g := ⟨.xfer op, [.openPayload op]⟩) h2, runActs_cons, Flow.andThen_assoc]
  have : record (.xfer op) (record (.dc .cmd) s) = pairSent .cmd op (panelOpcode s op) s := by
    apply State.ext <;> try rfl
    · rw [record_panel_calm h2]
      simp [observe, dcAfter, panelOpcode, eventFails_calm h1, pairSent]
    · simp [inputsAfter_eq, pairSent]
  rw [this]
  simp only [act, runSteps_nil]
  exact Flow.andThen_go _

/-- `send_data(b)`: the two events, then the byte is counted off (40_command_protocol_framer.md R122). -/
theorem runSteps_dataSteps {b : Byte} {s : State} (h : s.calm 2 2) :
    runSteps (dataSteps b) s = countOff (pairSent .data b (panelData s b) s) := by
  have h1 : s.calm (Event.dc .data).cost 1 := h.mono (by simp) (by omega)
  have e1 : (record (.dc .data) s).inputs = s.inputs.after 1 1 := inputsAfter_eq _ _
  have h2 : (record (.dc .data) s).calm (Event.xfer b).cost 1 := State.calm.later (a := 1) (b := 1) h e1
  simp only [dataSteps, runSteps_cons, perform_calm (g := ⟨.dc .data, []⟩) h1, runActs_nil, Flow.go_andThen,
    perform_calm (g := ⟨.xfer b, [.countOff]⟩) h2, runActs_cons, Flow.andThen_assoc]
  have : record (.xfer b) (record (.dc .data) s) = pairSent .data b (panelData s b) s := by
    apply State.ext <;> try rfl
    · rw [record_panel_calm h2]
      simp [observe, dcAfter, panelData, panelPair, eventFails_calm h1, pairSent]
    · simp [inputsAfter_eq, pairSent]
  rw [this]
  simp only [act, runSteps_nil]
  exact Flow.andThen_go _

/-! ## A run of data bytes -/

/-- The panel after data bytes: each as `panelData` says, the rest of the state as it is. -/
def panelRun (s : State) (ds : List Byte) : Panel := ds.foldl (fun p b => panelData { s with panel := p } b) s.panel

@[simp] theorem panelRun_nil (s : State) : panelRun s [] = s.panel := rfl

/-- Outside a memory write data bytes are payload bytes and the panel aid stays as it is. -/
theorem panelRun_closed {s : State} (h : s.panel.cursor = none) (ds : List Byte) : panelRun s ds = s.panel := by
  suffices ∀ p : Panel, p.cursor = none → ds.foldl (fun p b => panelData { s with panel := p } b) p = p from this _ h
  induction ds with
  | nil => intro p _; rfl
  | cons d ds ih => intro p hp; simp only [List.foldl_cons, panelData, hp]; exact ih p hp

/-- The panel run reads only the configuration, the window registers and the panel. -/
theorem panelRun_congr {s t : State} (hc : t.cfg = s.cfg) (h1 : t.winCs = s.winCs) (h2 : t.winCe = s.winCe)
    (h3 : t.winRe = s.winRe) (hp : t.panel = s.panel) (ds : List Byte) : panelRun t ds = panelRun s ds := by
  have : (fun p b => panelData { t with panel := p } b) = fun p b => panelData { s with panel := p } b := by
    funext p b; simp [panelData, panelPair, hc, h1, h2, h3]
  simp [panelRun, this, hp]

theorem panelRun_cons (s : State) (d : Byte) (ds : List Byte) :
    panelRun s (d :: ds) = panelRun { s with panel := panelData s d } ds := rfl

/-- The state after data bytes sent calmly under an obligation of at least as many. -/
def dataSent (ds : List Byte) (s : State) : State :=
  { s with
    dcLine := if ds = [] then s.dcLine else .data
    evPtr := s.evPtr + 2 * ds.length
    log := (dataTrace ds).reverse ++ s.log
    frKind := if s.frRem = ds.length then .idle else s.frKind
    frRem := s.frRem - ds.length
    panel := panelRun s ds
    inputs := s.inputs.after (2 * ds.length) (2 * ds.length) }

/-- `send_data` for each of `ds` in order, with at least that many bytes still owed. -/
theorem runSteps_payload {ds : List Byte} {s : State} (hk : s.frKind ≠ .idle) (hr : ds.length ≤ s.frRem)
    (hr0 : 0 < s.frRem) (h : s.calm (2 * ds.length) (2 * ds.length)) :
    runSteps (ds.flatMap dataSteps) s = .go (dataSent ds s) := by
  induction ds generalizing s with
  | nil =>
    simp only [List.flatMap_nil, runSteps_nil, Flow.go.injEq]
    apply State.ext <;> simp [dataSent, dataTrace]
    omega
  | cons d ds ih =>
    simp only [List.length_cons] at hr h
    have h2 : s.calm 2 2 := h.mono (by omega) (by omega)
    rw [List.flatMap_cons, runSteps_append, runSteps_dataSteps h2]
    have hk' : (pairSent .data d (panelData s d) s).frKind ≠ .idle := hk
    have hr' : (pairSent .data d (panelData s d) s).frRem = s.frRem := rfl
    unfold countOff
    rw [if_neg hk', hr']
    obtain ⟨n, hn⟩ : ∃ n, s.frRem = n + 1 := ⟨s.frRem - 1, by omega⟩
    rw [hn]
    cases n with
    | zero =>
      have hd : ds = [] := by
        cases ds with
        | nil => rfl
        | cons _ _ => simp only [List.length_cons] at hr; omega
      subst hd
      simp only [Flow.go_andThen, List.flatMap_nil, runSteps_nil, Flow.go.injEq]
      apply State.ext <;> try simp [dataSent, pairSent, dataTrace, hn, dcAfter]
      rfl
    | succ n =>
      simp only [Flow.go_andThen]
      rw [ih (s := { pairSent .data d (panelData s d) s with frRem := n + 1 }) hk (by simp; omega) (by simp)
        ((h.mono (a' := 2 + 2 * ds.length) (b' := 2 + 2 * ds.length) (by omega) (by omega)).later rfl)]
      · simp only [Flow.go.injEq]
        apply State.ext <;> simp [dataSent, pairSent, dataTrace, hn, dcAfter]
        all_goals try omega
        · rw [panelRun_cons]; exact panelRun_congr rfl rfl rfl rfl rfl _
        · congr 1 <;> omega

/-! ## Payload lengths -/

/-- A well-formed build's opcodes differ (00_scope.md R12), so each has the payload length of 30_encoding.md R96. -/
theorem payloadLen_wf {c : Config} (h : c.wf = true) :
    payloadLen c c.opSwreset = some 0 ∧ payloadLen c c.opSlpout = some 0 ∧ payloadLen c c.opColmod = some 1 ∧
      payloadLen c c.opMadctl = some 1 ∧ payloadLen c c.opDispon = some 0 ∧ payloadLen c c.opCaset = some 4 ∧
        payloadLen c c.opRaset = some 4 ∧ payloadLen c c.opRamwr = some 0 := by
  simp only [Config.wf, Config.opcodes, distinct, List.contains_cons, List.contains_nil, Bool.and_eq_true, Bool.not_eq_true',
    Bool.or_eq_false_iff, beq_eq_false_iff_ne, ne_eq] at h
  obtain ⟨-, -, -, -, -, ⟨h12, h13, h14, h15, h16, h17, h18, -⟩, ⟨h23, h24, h25, h26, h27, h28, -⟩, ⟨h34, h35, h36, h37, h38, -⟩,
    ⟨h45, h46, h47, h48, -⟩, ⟨h56, h57, h58, -⟩, ⟨h67, h68, -⟩, ⟨h78, -⟩, -⟩ := h
  simp only [payloadLen]
  refine ⟨?_, ?_, ?_, ?_, ?_, ?_, ?_, ?_⟩ <;> simp [*, Ne.symm, eq_comm]

/-- In a well-formed build RAMWR is no other opcode, and SWRESET none of those that may follow it. -/
theorem opcodes_ne {c : Config} (h : c.wf = true) :
    c.opSwreset ≠ c.opRamwr ∧ c.opSlpout ≠ c.opRamwr ∧ c.opColmod ≠ c.opRamwr ∧ c.opMadctl ≠ c.opRamwr ∧
      c.opDispon ≠ c.opRamwr ∧ c.opCaset ≠ c.opRamwr ∧ c.opRaset ≠ c.opRamwr ∧ c.opCaset ≠ c.opSwreset ∧
        c.opRaset ≠ c.opSwreset := by
  simp only [Config.wf, Config.opcodes, distinct, List.contains_cons, List.contains_nil, Bool.and_eq_true, Bool.not_eq_true',
    Bool.or_eq_false_iff, beq_eq_false_iff_ne, ne_eq] at h
  obtain ⟨-, -, -, -, -, ⟨h12, h13, h14, h15, h16, h17, h18, -⟩, ⟨h23, h24, h25, h26, h27, h28, -⟩, ⟨h34, h35, h36, h37, h38, -⟩,
    ⟨h45, h46, h47, h48, -⟩, ⟨h56, h57, h58, -⟩, ⟨h67, h68, -⟩, ⟨h78, -⟩, -⟩ := h
  exact ⟨h18, h28, h38, h48, h58, h68, h78, Ne.symm h16, Ne.symm h17⟩

/-! ## A whole command -/

/-- The state after an opcode with its whole payload sent calmly: no obligation is left open. -/
def commandSent (op : Byte) (ps : List Byte) (s : State) : State :=
  { s with
    dcLine := if ps = [] then .cmd else .data
    evPtr := s.evPtr + (2 + 2 * ps.length)
    log := (cmdTrace op ps).reverse ++ s.log
    frKind := .idle
    frRem := 0
    panel := panelOpcode s op
    inputs := s.inputs.after (2 + 2 * ps.length) (2 + 2 * ps.length) }

theorem panelOpcode_closes {s : State} {op : Byte} (h : op ≠ s.cfg.opRamwr) : (panelOpcode s op).cursor = none := by
  unfold panelOpcode
  rw [if_neg h]
  split <;> rfl

/-- `frame(op, payload)`, the payload of the opcode's own length (40_command_protocol_framer.md R127). -/
theorem runSteps_frameSteps {op : Byte} {ps : List Byte} {s : State} (hk : s.frKind = .idle) (hm : op ≠ s.cfg.opRamwr)
    (hl : payloadLen s.cfg op = some ps.length) (h : s.calm (2 + 2 * ps.length) (2 + 2 * ps.length)) :
    runSteps (frameSteps op ps) s = .go (commandSent op ps s) := by
  rw [frameSteps, runSteps_append, runSteps_commandSteps (h.mono (by omega) (by omega))]
  unfold openPayload
  simp only [pairSent, hk, ne_eq, not_true_eq_false, if_false, hm, hl]
  cases ps with
  | nil =>
    simp only [List.length_nil, Flow.go_andThen, List.flatMap_nil, runSteps_nil, Flow.go.injEq]
    apply State.ext <;> simp [commandSent, cmdTrace, dataTrace, dcAfter]
  | cons p ps =>
    simp only [List.length_cons, Flow.go_andThen]
    rw [runSteps_payload (by simp) (by simp) (by simp) (h.later rfl)]
    simp only [Flow.go.injEq]
    apply State.ext <;> try simp [dataSent, commandSent, cmdTrace, dataTrace]
    · omega
    · exact panelRun_closed (panelOpcode_closes hm) _

end Sys2Proof.Machine
end

