-- ==== Sys2Proof/Laws/Decode.lean ====
section
/-! SUPPORT. Laws/Decode.lean: each field's reader reads back what its writer wrote, and reads only what its writer could have
written (the byte form of log 4). -/

namespace Sys2Proof

/-! ## A reader and a writer -/

/-- The reader reads back whatever the writer writes, and leaves what follows. -/
def ReadsBack {α : Type} (read : List Byte → Read α) (write : α → List Byte) : Prop :=
  ∀ a rest, read (write a ++ rest) = .ok (a, rest)

/-- What the reader accepts is what the writer writes. -/
def ReadsOnly {α : Type} (read : List Byte → Read α) (write : α → List Byte) : Prop :=
  ∀ bs a rest, read bs = .ok (a, rest) → bs = write a ++ rest

/-! ## Bytes and words -/

theorem hi8_be16 (hi lo : Byte) : hi8 (be16 hi lo) = hi := by
  apply BitVec.eq_of_toNat_eq
  have h := hi.isLt; have l := lo.isLt
  simp only [hi8, be16, BitVec.extractLsb'_toNat, BitVec.toNat_append]
  rw [← Nat.shiftLeft_add_eq_or_of_lt (by omega), Nat.shiftLeft_eq, Nat.shiftRight_eq_div_pow]
  omega

theorem lo8_be16 (hi lo : Byte) : lo8 (be16 hi lo) = lo := by
  apply BitVec.eq_of_toNat_eq
  have h := hi.isLt; have l := lo.isLt
  simp only [lo8, be16, BitVec.extractLsb'_toNat, BitVec.toNat_append, Nat.shiftRight_zero]
  rw [← Nat.shiftLeft_add_eq_or_of_lt (by omega), Nat.shiftLeft_eq]
  omega

theorem be16_hi8_lo8 (v : Word) : be16 (hi8 v) (lo8 v) = v := by
  apply BitVec.eq_of_toNat_eq
  have hv := v.isLt
  simp only [be16, hi8, lo8, BitVec.toNat_append, BitVec.extractLsb'_toNat, Nat.shiftRight_zero]
  rw [← Nat.shiftLeft_add_eq_or_of_lt (by omega), Nat.shiftLeft_eq, Nat.shiftRight_eq_div_pow]
  omega

theorem readWord_back : ReadsBack readWord wordBytes := fun v rest => by
  simp [wordBytes, readWord, be16_hi8_lo8]

theorem readWord_only : ReadsOnly readWord wordBytes := fun bs v rest h => by
  unfold readWord at h
  split at h
  · simp only [Except.ok.injEq, Prod.mk.injEq] at h
    obtain ⟨rfl, rfl⟩ := h
    simp [wordBytes, hi8_be16, lo8_be16]
  · cases h

theorem readFlag_back (b : Bool) (rest : List Byte) : readFlag (flagByte b :: rest) = .ok (b, rest) := by
  cases b <;> simp [flagByte, readFlag]

theorem readFlag_only {bs : List Byte} {b : Bool} {rest : List Byte} (h : readFlag bs = .ok (b, rest)) :
    bs = flagByte b :: rest := by
  unfold readFlag at h
  split at h
  · cases h
  · split at h
    · simp only [Except.ok.injEq, Prod.mk.injEq] at h; obtain ⟨rfl, rfl⟩ := h; simp_all [flagByte]
    · split at h
      · simp only [Except.ok.injEq, Prod.mk.injEq] at h; obtain ⟨rfl, rfl⟩ := h; simp_all [flagByte]
      · cases h

theorem readSample_back : ReadsBack readSample sampleBytes := fun c rest => by simp [sampleBytes, readSample]

theorem readSample_only : ReadsOnly readSample sampleBytes := fun bs c rest h => by
  unfold readSample at h
  split at h
  · simp only [Except.ok.injEq, Prod.mk.injEq] at h
    obtain ⟨rfl, rfl⟩ := h
    simp [sampleBytes]
  · cases h

/-! ## Natural numbers -/

theorem readNat_natBytesFuel {fuel n : Nat} (h : n ≤ fuel) (rest : List Byte) :
    readNat (natBytesFuel fuel n ++ rest) = .ok (n, rest) := by
  induction fuel generalizing n with
  | zero =>
    have : n = 0 := by omega
    subst this
    simp [natBytesFuel, readNat]
  | succ fuel ih =>
    unfold natBytesFuel
    split
    · rename_i hn
      have e : (BitVec.ofNat 8 n).toNat = n := by simp; omega
      simp only [List.cons_append, List.nil_append, readNat, e, hn, if_true]
    · rename_i hn
      have e : (BitVec.ofNat 8 (128 + n % 128)).toNat = 128 + n % 128 := by simp; omega
      simp only [List.cons_append, readNat, e]
      rw [if_neg (by omega), ih (by omega)]
      have h1 : n / 128 ≠ 0 := by omega
      obtain ⟨m, hm⟩ : ∃ m, n / 128 = m + 1 := ⟨n / 128 - 1, by omega⟩
      rw [hm]
      simp only [Except.ok.injEq, Prod.mk.injEq, and_true]
      omega

theorem readNat_back : ReadsBack readNat natBytes := fun n rest => readNat_natBytesFuel (Nat.le_refl n) rest

/-- More fuel than the number needs changes no digit. -/
theorem natBytesFuel_mono {f g n : Nat} (hf : n ≤ f) (hg : n ≤ g) : natBytesFuel f n = natBytesFuel g n := by
  induction f generalizing g n with
  | zero =>
    have : n = 0 := by omega
    subst this
    cases g <;> simp [natBytesFuel]
  | succ f ih =>
    cases g with
    | zero =>
      have : n = 0 := by omega
      subst this
      simp [natBytesFuel]
    | succ g =>
      unfold natBytesFuel
      split
      · rfl
      · rw [ih (g := g) (by omega) (by omega)]

theorem natBytes_of_lt {n : Nat} (h : n < 128) : natBytes n = [BitVec.ofNat 8 n] := by
  unfold natBytes
  cases n with
  | zero => rfl
  | succ n => unfold natBytesFuel; rw [if_pos h]

theorem natBytes_of_ge {n : Nat} (h : 128 ≤ n) : natBytes n = BitVec.ofNat 8 (128 + n % 128) :: natBytes (n / 128) := by
  unfold natBytes
  cases n with
  | zero => omega
  | succ n =>
    rw [natBytesFuel, if_neg (by omega)]
    rw [natBytesFuel_mono (g := (n + 1) / 128) (by omega) (Nat.le_refl _)]

theorem readNat_only : ReadsOnly readNat natBytes := by
  intro bs
  induction bs with
  | nil => intro n rest h; simp [readNat] at h
  | cons b bs ih =>
    intro n rest h
    unfold readNat at h
    split at h
    · rename_i hb
      simp only [Except.ok.injEq, Prod.mk.injEq] at h
      obtain ⟨rfl, rfl⟩ := h
      simp [natBytes_of_lt hb]
    · rename_i hb
      split at h
      · cases h
      · cases h
      · rename_i m rest' hm
        simp only [Except.ok.injEq, Prod.mk.injEq] at h
        obtain ⟨rfl, rfl⟩ := h
        have hb8 := b.isLt
        rw [natBytes_of_ge (by omega)]
        have e1 : (b.toNat - 128 + 128 * (m + 1)) / 128 = m + 1 := by omega
        have e2 : 128 + (b.toNat - 128 + 128 * (m + 1)) % 128 = b.toNat := by omega
        rw [e1, e2]
        simp [ih _ _ hm]

/-! ## Lists and frames -/

theorem readMany_back {α : Type} {read : List Byte → Read α} {write : α → List Byte} (h : ReadsBack read write)
    (l : List α) (rest : List Byte) : readMany read l.length (l.flatMap write ++ rest) = .ok (l, rest) := by
  induction l with
  | nil => rfl
  | cons a l ih => simp [readMany, h a, ih]

theorem readList_back {α : Type} {read : List Byte → Read α} {write : α → List Byte} (h : ReadsBack read write) :
    ReadsBack (readList read) (listBytes write) := fun l rest => by
  simp [readList, listBytes, readNat_back l.length, readMany_back h]

theorem readMany_only {α : Type} {read : List Byte → Read α} {write : α → List Byte} (h : ReadsOnly read write)
    {n : Nat} {bs : List Byte} {l : List α} {rest : List Byte} (e : readMany read n bs = .ok (l, rest)) :
    l.length = n ∧ bs = l.flatMap write ++ rest := by
  induction n generalizing bs l with
  | zero => simp only [readMany, Except.ok.injEq, Prod.mk.injEq] at e; obtain ⟨rfl, rfl⟩ := e; simp
  | succ n ih =>
    unfold readMany at e
    split at e
    · cases e
    · rename_i a bs1 h1
      split at e
      · cases e
      · rename_i as bs2 h2
        simp only [Except.ok.injEq, Prod.mk.injEq] at e
        obtain ⟨rfl, rfl⟩ := e
        obtain ⟨i1, i2⟩ := ih h2
        refine ⟨by simp [i1], ?_⟩
        rw [h _ _ _ h1, i2]; simp

theorem readList_only {α : Type} {read : List Byte → Read α} {write : α → List Byte} (h : ReadsOnly read write) :
    ReadsOnly (readList read) (listBytes write) := fun bs l rest e => by
  unfold readList at e
  split at e
  · cases e
  · rename_i n bs1 h1
    obtain ⟨i1, i2⟩ := readMany_only h e
    rw [readNat_only _ _ _ h1, i2, ← i1]; simp [listBytes]

theorem readSource_back : ReadsBack readSource sourceBytes := fun src rest => by
  cases src with
  | direct pixels => simp [sourceBytes, readSource, readFlag_back, readList_back readSample_back pixels]
  | indexed indices palette =>
    simp [sourceBytes, readSource, readFlag_back, readList_back readNat_back indices, readList_back readSample_back palette]

theorem readSource_only : ReadsOnly readSource sourceBytes := fun bs src rest h => by
  unfold readSource at h
  split at h
  · cases h
  · rename_i bs1 h1
    split at h
    · cases h
    · rename_i px bs2 h2
      simp only [Except.ok.injEq, Prod.mk.injEq] at h
      obtain ⟨rfl, rfl⟩ := h
      rw [readFlag_only h1, readList_only readSample_only _ _ _ h2]; simp [sourceBytes]
  · rename_i bs1 h1
    split at h
    · cases h
    · rename_i ix bs2 h2
      split at h
      · cases h
      · rename_i pal bs3 h3
        simp only [Except.ok.injEq, Prod.mk.injEq] at h
        obtain ⟨rfl, rfl⟩ := h
        rw [readFlag_only h1, readList_only readNat_only _ _ _ h2, readList_only readSample_only _ _ _ h3]
        simp [sourceBytes]

theorem readFrame_back : ReadsBack readFrame frameBytes := fun f rest => by
  simp [frameBytes, readFrame, readNat_back f.w, readNat_back f.h, readFlag_back, readSource_back f.src]

theorem readFrame_only : ReadsOnly readFrame frameBytes := fun bs f rest h => by
  unfold readFrame at h
  split at h
  · cases h
  · rename_i w bs1 h1
    split at h
    · cases h
    · rename_i hh bs2 h2
      split at h
      · cases h
      · rename_i ok bs3 h3
        split at h
        · cases h
        · rename_i src bs4 h4
          simp only [Except.ok.injEq, Prod.mk.injEq] at h
          obtain ⟨rfl, rfl⟩ := h
          rw [readNat_only _ _ _ h1, readNat_only _ _ _ h2, readFlag_only h3, readSource_only _ _ _ h4]
          simp [frameBytes]

theorem readPair_back : ReadsBack readPair pairBytes := fun p rest => by
  simp [pairBytes, readPair, readFrame_back p.1, readNat_back p.2]

theorem readPair_only : ReadsOnly readPair pairBytes := fun bs p rest h => by
  unfold readPair at h
  split at h
  · cases h
  · rename_i f bs1 h1
    split at h
    · cases h
    · rename_i d bs2 h2
      simp only [Except.ok.injEq, Prod.mk.injEq] at h
      obtain ⟨rfl, rfl⟩ := h
      rw [readFrame_only _ _ _ h1, readNat_only _ _ _ h2]; simp [pairBytes]

theorem readPolicy_back (p : Policy) (rest : List Byte) : readPolicy (policyByte p :: rest) = .ok (p, rest) := by
  cases p <;> simp [policyByte, readPolicy, readFlag]

theorem readPolicy_only {bs : List Byte} {p : Policy} {rest : List Byte} (h : readPolicy bs = .ok (p, rest)) :
    bs = policyByte p :: rest := by
  unfold readPolicy at h
  split at h
  · cases h
  · rename_i h1; simp only [Except.ok.injEq, Prod.mk.injEq] at h; obtain ⟨rfl, rfl⟩ := h; simpa [policyByte, flagByte] using readFlag_only h1
  · rename_i h1; simp only [Except.ok.injEq, Prod.mk.injEq] at h; obtain ⟨rfl, rfl⟩ := h; simpa [policyByte, flagByte] using readFlag_only h1

theorem finish_ok {i j : Instr} {bs : List Byte} (h : finish i bs = .ok j) : bs = [] ∧ j = i := by
  cases bs with
  | nil => simp only [finish, Except.ok.injEq] at h; exact ⟨rfl, h.symm⟩
  | cons b bs => simp [finish] at h

end Sys2Proof
end

