-- ==== Sys2Proof/Laws/Memory.lean ====
section
/-! SUPPORT. Laws/Memory.lean: reads and writes of GRAM cells, and that every operation on them keeps the canonical form
(spec/20_memory.md R70; log 15). -/

namespace Sys2Proof.Machine

@[simp] theorem Memory.read_nil (a : Nat) : Memory.read [] a = none := rfl

theorem Memory.read_write_same (m : Memory) (a : Nat) (b : Byte) : (m.write a b).read a = some b := by
  induction m with
  | nil => simp [Memory.write, Memory.read]
  | cons c m ih =>
    obtain ⟨k, v⟩ := c
    unfold Memory.write
    split
    · simp [Memory.read]
    · split
      · simp [Memory.read]
      · rename_i h
        simp [Memory.read, Ne.symm h, ih]

theorem Memory.read_write_other (m : Memory) (a a' : Nat) (b : Byte) (h : a' ≠ a) :
    (m.write a b).read a' = m.read a' := by
  induction m with
  | nil => simp [Memory.write, Memory.read, Ne.symm h]
  | cons c m ih =>
    obtain ⟨k, v⟩ := c
    unfold Memory.write
    split
    · simp [Memory.read, Ne.symm h]
    · split
      · subst_vars; simp [Memory.read, Ne.symm h]
      · simp only [Memory.read, ih]

theorem Memory.risingFrom_write (m : Memory) (k a : Nat) (b : Byte) (hk : k < a)
    (h : Memory.risingFrom k m = true) : Memory.risingFrom k (m.write a b) = true := by
  induction m generalizing k with
  | nil => simp [Memory.write, Memory.risingFrom, hk]
  | cons c m ih =>
    obtain ⟨j, v⟩ := c
    simp only [Memory.risingFrom, Bool.and_eq_true, decide_eq_true_eq] at h
    unfold Memory.write
    split
    · simp_all [Memory.risingFrom]
    · split
      · subst_vars; simp_all [Memory.risingFrom]
      · simp only [Memory.risingFrom, Bool.and_eq_true, decide_eq_true_eq]
        exact ⟨h.1, ih j (by omega) h.2⟩

/-- A write keeps the canonical form. -/
theorem Memory.wf_write (m : Memory) (a : Nat) (b : Byte) (h : m.wf = true) : (m.write a b).wf = true := by
  cases m with
  | nil => rfl
  | cons c m =>
    obtain ⟨k, v⟩ := c
    simp only [Memory.wf] at h
    unfold Memory.write
    split
    · simp_all [Memory.wf, Memory.risingFrom]
    · split
      · subst_vars; exact h
      · exact Memory.risingFrom_write m k a b (by omega) h

/-- Storing a pixel keeps the canonical form. -/
theorem gramWrite_wf (m : Memory) (col row : Nat) (hi lo : Byte) (h : m.wf = true) :
    (gramWrite m col row hi lo).wf = true :=
  Memory.wf_write _ _ _ (Memory.wf_write _ _ _ h)

/-- A byte outside the stored pixel reads as before. -/
theorem gramWrite_read_other (m : Memory) (col row a : Nat) (hi lo : Byte) (h : a ≠ gramAddr col row)
    (h' : a ≠ gramAddr col row + 1) : (gramWrite m col row hi lo).read a = m.read a := by
  rw [gramWrite, Memory.read_write_other _ _ _ _ h', Memory.read_write_other _ _ _ _ h]

theorem gramWrite_read_hi (m : Memory) (col row : Nat) (hi lo : Byte) :
    (gramWrite m col row hi lo).read (gramAddr col row) = some hi := by
  rw [gramWrite, Memory.read_write_other _ _ _ _ (by omega), Memory.read_write_same]

theorem gramWrite_read_lo (m : Memory) (col row : Nat) (hi lo : Byte) :
    (gramWrite m col row hi lo).read (gramAddr col row + 1) = some lo := by
  rw [gramWrite, Memory.read_write_same]

/-- The stored pixel reads back. -/
theorem gramPixel_gramWrite_same (m : Memory) (col row : Nat) (hi lo : Byte) :
    gramPixel (gramWrite m col row hi lo) col row = some (be16 hi lo) := by
  simp [gramPixel, gramWrite_read_hi, gramWrite_read_lo]

/-- Different pixels of the coordinate space have different cells (20_memory.md R71: columns below 65536). -/
theorem gramAddr_injective {c r c' r' : Nat} (hc : c < 65536) (hc' : c' < 65536)
    (h : gramAddr c r = gramAddr c' r') : c = c' ∧ r = r' := by
  simp only [gramAddr] at h; omega

/-- Another pixel reads as before. -/
theorem gramPixel_gramWrite_other (m : Memory) {c r c' r' : Nat} (hi lo : Byte) (hc : c < 65536) (hc' : c' < 65536)
    (h : ¬ (c' = c ∧ r' = r)) : gramPixel (gramWrite m c r hi lo) c' r' = gramPixel m c' r' := by
  have hne : gramAddr c' r' ≠ gramAddr c r := fun e => h (gramAddr_injective hc' hc e)
  have h1 : gramAddr c' r' ≠ gramAddr c r + 1 := by simp only [gramAddr]; omega
  have h2 : gramAddr c' r' + 1 ≠ gramAddr c r := by simp only [gramAddr]; omega
  simp only [gramPixel, gramWrite_read_other _ _ _ _ _ _ hne h1,
    gramWrite_read_other _ _ _ (gramAddr c' r' + 1) _ _ h2 (by omega)]

/-- The panel aid's cells stay canonical whatever event it observes. -/
theorem observe_gram_wf (ev : Event) (s : State) (h : s.panel.gram.wf = true) : (observe ev s).gram.wf = true := by
  unfold observe panelOpcode panelData panelPair
  repeat' split
  all_goals first | exact h | rfl | exact gramWrite_wf _ _ _ _ _ h

end Sys2Proof.Machine
end

