-- ==== Sys2Proof/Laws/Draw.lean ====
section
/-! SUPPORT. Laws/Draw.lean: what the window commands and a frame's pixels do when no event fails and no block reset comes
(spec/42_address_window_adder.md R182, spec/44_frame_streamer.md R222), and what they leave in the panel's GRAM
(spec/20_memory.md R70). -/

namespace Sys2Proof.Machine

/-! ## The window -/

/-- The state after the 20 events of `set_window` performed calmly. -/
def windowSentState (cs ce rs re : Word) (s : State) : State :=
  { s with
    dcLine := .data
    evPtr := s.evPtr + 20
    log := (windowTrace s.cfg cs ce rs re).reverse ++ s.log
    frKind := .idle
    frRem := 0
    winValid := true
    panel := panelOpcode s s.cfg.opCaset
    inputs := s.inputs.after 20 20 }

theorem setWindowSteps_run {cs ce rs re : Word} {s : State} (hw : s.cfg.wf = true) (hk : s.frKind = .idle)
    (h : s.calm 20 20) :
    runSteps (setWindowSteps s.cfg cs ce rs re) s = .go (windowSentState cs ce rs re s) := by
  obtain ⟨-, -, -, -, -, hlc, hlr, -⟩ := payloadLen_wf hw
  obtain ⟨-, -, -, -, -, hc, hr, hcs, hrs⟩ := opcodes_ne hw
  have hne : rasetSteps s.cfg rs re ≠ [] := by simp [rasetSteps, frameSteps, commandSteps]
  rw [setWindowSteps, runSteps_append, casetSteps,
    runSteps_frameSteps hk hc (by simpa [rangePayload] using hlc) (by exact h.mono (by simp [rangePayload]) (by simp [rangePayload]))]
  simp only [Flow.go_andThen]
  rw [runSteps_thenDo _ _ _ hne, rasetSteps,
    runSteps_frameSteps (by rfl) (by exact hr) (by simpa [rangePayload, commandSent] using hlr)
      (h.later (a := 10) (b := 10) (by simp [commandSent, rangePayload]))]
  simp only [Flow.go_andThen, runActs_cons, act, runActs_nil, Flow.go.injEq]
  apply State.ext <;> try simp [windowSentState, commandSent, rangePayload, windowTrace]
  simp [panelOpcode, hc, hr, hcs, hrs]
  split <;> simp [Panel.unknown]

/-! ## The pixels -/

/-- GRAM after pixels are stored from raster position `k` on, `w` to a row. -/
def pixelsPut (w : Nat) : Nat → Memory → List ColorSample → Memory
  | _, m, [] => m
  | k, m, c :: cs =>
    pixelsPut w (k + 1) (gramWrite m (k % w) (k / w) (hi8 (encodeSample c)) (lo8 (encodeSample c))) cs

theorem pixelBytes_cons (c : ColorSample) (cs : List ColorSample) :
    pixelBytes (c :: cs) = hi8 (encodeSample c) :: lo8 (encodeSample c) :: pixelBytes cs := rfl

theorem pixelBytes_length (cs : List ColorSample) : (pixelBytes cs).length = 2 * cs.length := by
  induction cs with
  | nil => rfl
  | cons c cs ih => rw [pixelBytes_cons]; simp only [List.length_cons, ih]; omega

theorem pixelSteps_flatMap (cs : List ColorSample) : cs.flatMap pixelSteps = (pixelBytes cs).flatMap dataSteps := by
  induction cs with
  | nil => rfl
  | cons c cs ih => simp [pixelBytes_cons, pixelSteps, ih]

/-- The cursor moves in raster order. -/
theorem advance_raster {ce : Word} {w k : Nat} (hw : 0 < w) (hce : ce.toNat = w - 1) :
    advance 0 ce (k % w) (k / w) = ((k + 1) % w, (k + 1) / w) := by
  have hlt := Nat.mod_lt k hw
  have hk := Nat.div_add_mod k w
  unfold advance
  rw [hce]
  split
  · have e : k + 1 = w * (k / w + 1) := by rw [Nat.mul_add]; omega
    rw [e, Nat.mul_mod_right, Nat.mul_div_cancel_left _ hw]; rfl
  · have e : k + 1 = k % w + 1 + w * (k / w) := by omega
    have e1 : (k + 1) % w = k % w + 1 := by
      rw [e, Nat.add_mul_mod_self_left]; exact Nat.mod_eq_of_lt (by omega)
    have e2 : (k + 1) / w = k / w := by
      rw [e, Nat.add_mul_div_left _ _ hw, Nat.div_eq_of_lt (by omega : k % w + 1 < w)]; omega
    rw [e1, e2]

/-- The panel after pixels sent into an open memory write over a window that starts at (0, 0). -/
theorem panelRun_pixels {cs : List ColorSample} {s : State} {ce re : Word} {w h k : Nat} {m : Memory}
    (h1 : s.winCs = some 0) (h2 : s.winCe = some ce) (h3 : s.winRe = some re) (hw : 0 < w)
    (hce : ce.toNat = w - 1) (hre : re.toNat = h - 1) (hW : w ≤ s.cfg.panelW) (hH : h ≤ s.cfg.panelH)
    (hp : s.panel = ⟨some (k % w, k / w), none, m⟩) (hk : k + cs.length ≤ w * h) :
    panelRun s (pixelBytes cs) = ⟨some ((k + cs.length) % w, (k + cs.length) / w), none, pixelsPut w k m cs⟩ := by
  induction cs generalizing s k m with
  | nil => simp [pixelBytes, hp, pixelsPut]
  | cons c cs ih =>
    simp only [List.length_cons] at hk
    have hcol : k % w < w := Nat.mod_lt _ hw
    have hrow : k / w < h := Nat.div_lt_of_lt_mul (by omega)
    rw [pixelBytes_cons, panelRun_cons, panelRun_cons]
    have e : panelData { s with panel := panelData s (hi8 (encodeSample c)) } (lo8 (encodeSample c)) =
        ⟨some ((k + 1) % w, (k + 1) / w), none,
          gramWrite m (k % w) (k / w) (hi8 (encodeSample c)) (lo8 (encodeSample c))⟩ := by
      have hcond : k % w < s.cfg.panelW ∧ k / w < s.cfg.panelH ∧ k / w ≤ re.toNat := by
        rw [hre]; exact ⟨by omega, by omega, by omega⟩
      simp only [panelData, hp, panelPair, h1, h2, h3, if_pos hcond, advance_raster hw hce]
    rw [e, ih (k := k + 1) (by exact h1) (by exact h2) (by exact h3) (by exact hW) (by exact hH) rfl (by omega)]
    simp only [List.length_cons, pixelsPut, Nat.add_assoc, Nat.add_comm 1]

/-- A pixel whose raster position is not stored reads as before. -/
theorem gramPixel_pixelsPut_other {cs : List ColorSample} {w k : Nat} {m : Memory} {x y : Nat} (hw : 0 < w)
    (hw' : w ≤ 65536) (hx : x < 65536) (h : ∀ j, k ≤ j → j < k + cs.length → ¬ (x = j % w ∧ y = j / w)) :
    gramPixel (pixelsPut w k m cs) x y = gramPixel m x y := by
  induction cs generalizing k m with
  | nil => rfl
  | cons c cs ih =>
    simp only [List.length_cons] at h
    have hm := Nat.mod_lt k hw
    rw [pixelsPut, ih fun j a b => h j (by omega) (by omega),
      gramPixel_gramWrite_other _ _ _ (by omega) hx (h k (Nat.le_refl k) (by omega))]

/-- A byte of GRAM that belongs to no stored raster position reads as before. -/
theorem read_pixelsPut_other {cs : List ColorSample} {w k : Nat} {m : Memory} {a : Nat}
    (h : ∀ j, k ≤ j → j < k + cs.length → a ≠ gramAddr (j % w) (j / w) ∧ a ≠ gramAddr (j % w) (j / w) + 1) :
    (pixelsPut w k m cs).read a = m.read a := by
  induction cs generalizing k m with
  | nil => rfl
  | cons c cs ih =>
    simp only [List.length_cons] at h
    obtain ⟨h1, h2⟩ := h k (Nat.le_refl k) (by omega)
    rw [pixelsPut, ih fun j x y => h j (by omega) (by omega), gramWrite_read_other _ _ _ _ _ _ h1 h2]

/-- Two raster positions in one pixel are one. -/
theorem raster_injective {w i j : Nat} (h1 : i % w = j % w) (h2 : i / w = j / w) : i = j := by
  rw [← Nat.div_add_mod i w, ← Nat.div_add_mod j w, h1, h2]

/-- A stored raster position reads back its sample, encoded. -/
theorem gramPixel_pixelsPut {cs : List ColorSample} {w k i : Nat} {m : Memory} (hw : 0 < w) (hw' : w ≤ 65536)
    (hi : i < cs.length) :
    gramPixel (pixelsPut w k m cs) ((k + i) % w) ((k + i) / w) = some (encodeSample cs[i]) := by
  induction cs generalizing k m i with
  | nil => simp at hi
  | cons c cs ih =>
    cases i with
    | zero =>
      have hm := Nat.mod_lt k hw
      simp only [Nat.add_zero, pixelsPut]
      rw [gramPixel_pixelsPut_other hw hw' (by omega)]
      · rw [gramPixel_gramWrite_same, be16_hi8_lo8]; rfl
      · intro j h1 _ ⟨h2, h3⟩
        have := raster_injective h2 h3
        omega
    | succ i =>
      simp only [pixelsPut]
      have := @ih (k + 1) i (gramWrite m (k % w) (k / w) (hi8 (encodeSample c)) (lo8 (encodeSample c)))
        (by simpa using hi)
      rw [show k + (i + 1) = k + 1 + i by omega]
      simpa using this

/-! ## Frames -/

theorem resolveAll_spec {f : Frame} {ps : List (Nat × Nat)} {cs : List ColorSample} (h : resolveAll f ps = some cs) :
    cs.length = ps.length ∧ ∀ (i : Nat) (hi : i < ps.length), cs[i]? = resolve f ps[i].1 ps[i].2 := by
  induction ps generalizing cs with
  | nil => simp only [resolveAll, Option.some.injEq] at h; subst h; simp
  | cons p ps ih =>
    obtain ⟨x, y⟩ := p
    simp only [resolveAll] at h
    split at h
    · simp at h
    · rename_i c hc
      split at h
      · simp at h
      · rename_i cs' hcs
        simp only [Option.some.injEq] at h
        subst h
        obtain ⟨h1, h2⟩ := ih hcs
        refine ⟨by simp [h1], fun i hi => ?_⟩
        cases i with
        | zero => simp [hc]
        | succ i => simpa using h2 i (by simpa using hi)

theorem resolveAll_some {f : Frame} {ps : List (Nat × Nat)} (h : ∀ p ∈ ps, (resolve f p.1 p.2).isSome = true) :
    ∃ cs, resolveAll f ps = some cs := by
  induction ps with
  | nil => exact ⟨[], rfl⟩
  | cons p ps ih =>
    obtain ⟨x, y⟩ := p
    obtain ⟨cs, hcs⟩ := ih fun q hq => h q (List.mem_cons_of_mem _ hq)
    obtain ⟨c, hc⟩ := Option.isSome_iff_exists.mp (h (x, y) (List.mem_cons_self))
    exact ⟨c :: cs, by simp only [resolveAll]; rw [hc, hcs]⟩

theorem rasterOrder_length (w h : Nat) : (rasterOrder w h).length = w * h := by
  simp [rasterOrder, List.length_flatMap, Nat.mul_comm]

theorem rasterOrder_succ (w h : Nat) :
    rasterOrder w (h + 1) = rasterOrder w h ++ (List.range w).map fun x => (x, h) := by
  simp [rasterOrder, List.range_succ]

/-- Position `y * w + x` of the order of the loops is (x, y) (20_memory.md R62). -/
theorem rasterOrder_getElem {w h x y : Nat} (hx : x < w) (hy : y < h) :
    (rasterOrder w h)[y * w + x]? = some (x, y) := by
  induction h with
  | zero => omega
  | succ h ih =>
    rw [rasterOrder_succ]
    by_cases e : y < h
    · have hlt : y * w + x < (rasterOrder w h).length := by
        rw [rasterOrder_length]
        have : (y + 1) * w ≤ h * w := Nat.mul_le_mul_right w e
        rw [Nat.add_mul] at this; rw [Nat.mul_comm w h]; omega
      rw [List.getElem?_append_left hlt, ih e]
    · have : y = h := by omega
      subst this
      rw [List.getElem?_append_right (by rw [rasterOrder_length, Nat.mul_comm]; omega), rasterOrder_length, Nat.mul_comm w y]
      simp [hx]

theorem mem_rasterOrder {w h : Nat} {p : Nat × Nat} : p ∈ rasterOrder w h ↔ p.1 < w ∧ p.2 < h := by
  obtain ⟨x, y⟩ := p
  simp only [rasterOrder, List.mem_flatMap, List.mem_range, List.mem_map, Prod.mk.injEq]
  constructor
  · rintro ⟨b, hb, a, ha, rfl, rfl⟩; exact ⟨ha, hb⟩
  · rintro ⟨ha, hb⟩; exact ⟨y, hb, x, ha, rfl, rfl⟩

/-- A frame's samples: `w * h` of them. -/
theorem frameSamples_length {f : Frame} {cs : List ColorSample} (h : frameSamples f = some cs) :
    cs.length = f.w * f.h := by
  rw [(resolveAll_spec h).1, rasterOrder_length]

theorem frameSamples_getElem {f : Frame} {cs : List ColorSample} (h : frameSamples f = some cs) {x y : Nat}
    (hx : x < f.w) (hy : y < f.h) : cs[y * f.w + x]? = resolve f x y := by
  have hr := rasterOrder_getElem hx hy
  obtain ⟨hi, e⟩ := List.getElem?_eq_some_iff.mp hr
  have := (resolveAll_spec h).2 _ hi
  rw [this, e]

/-- What an OK of `draw_check` says (44_frame_streamer.md R221). -/
theorem drawCheck_none {c : Config} {f : Frame} (h : drawCheck c f = none) :
    f.ok = true ∧ (1 ≤ f.w ∧ f.w ≤ c.panelW ∧ 1 ≤ f.h ∧ f.h ≤ c.panelH) ∧ rasterLength f.src = f.w * f.h ∧
      paletteOk c f.src = true := by
  unfold drawCheck at h
  split_ifs at h with h1 h2 h3 h4
  refine ⟨by simpa using h1, ?_, by simpa using h3, by simpa using h4⟩
  simp only [sizeOk, Bool.not_eq_true', Bool.not_eq_false, Bool.and_eq_true, decide_eq_true_eq, and_assoc] at h2
  exact h2

/-- After an OK of `draw_check` every read has its element. -/
theorem frameSamples_some {c : Config} {f : Frame} (h : drawCheck c f = none) : ∃ cs, frameSamples f = some cs := by
  obtain ⟨-, ⟨-, -, -, -⟩, hl, hp⟩ := drawCheck_none h
  refine resolveAll_some fun p hp' => ?_
  obtain ⟨x, y⟩ := p
  obtain ⟨hx, hy⟩ := mem_rasterOrder.mp hp'
  have hlt : y * f.w + x < f.w * f.h := by
    have : (y + 1) * f.w ≤ f.h * f.w := Nat.mul_le_mul_right _ hy
    rw [Nat.add_mul] at this; rw [Nat.mul_comm f.w f.h]; omega
  cases hs : f.src with
  | direct pixels =>
    have : y * f.w + x < pixels.length := by rw [hs] at hl; simp only [rasterLength] at hl; omega
    simp [resolve, hs, this]
  | indexed indices palette =>
    have hi : y * f.w + x < indices.length := by rw [hs] at hl; simp only [rasterLength] at hl; omega
    rw [hs] at hp
    simp only [paletteOk, Bool.and_eq_true, List.all_eq_true, decide_eq_true_eq] at hp
    have := hp.2 indices[y * f.w + x] (List.getElem_mem hi)
    simp [resolve, hs, hi, this]

/-! ## A whole frame -/

/-- The panel after a frame: nothing known under a non-zero ORIENT (log 14). -/
def drawnPanel (f : Frame) (samples : List ColorSample) (s : State) : Panel :=
  if s.cfg.orient = 0 then
    ⟨some (0, f.h), none, pixelsPut f.w 0 (panelOpcode s s.cfg.opCaset).gram samples⟩
  else Panel.unknown

/-- The state after the `22 + 4 * w * h` events of `draw_frame` performed calmly. -/
def frameDrawn (f : Frame) (samples : List ColorSample) (s : State) : State :=
  { s with
    dcLine := .data
    evPtr := s.evPtr + (22 + 4 * f.w * f.h)
    log := (drawTrace s.cfg f samples).reverse ++ s.log
    frKind := .idle
    frRem := 0
    winValid := true
    panel := drawnPanel f samples s
    inputs := s.inputs.after (22 + 4 * f.w * f.h) (22 + 4 * f.w * f.h) }

theorem frameColEnd_toNat {c : Config} {f : Frame} (hw : c.wf = true) (h : drawCheck c f = none) :
    (frameColEnd f).toNat = f.w - 1 := by
  obtain ⟨-, ⟨h1, h2, -, -⟩, -, -⟩ := drawCheck_none h
  simp only [Config.wf, Bool.and_eq_true, decide_eq_true_eq] at hw
  obtain ⟨-, -, hw2, -⟩ := hw
  simp only [frameColEnd, winEnd, BitVec.toNat_ofNat]
  omega

theorem frameRowEnd_toNat {c : Config} {f : Frame} (hw : c.wf = true) (h : drawCheck c f = none) :
    (frameRowEnd f).toNat = f.h - 1 := by
  obtain ⟨-, ⟨-, -, h1, h2⟩, -, -⟩ := drawCheck_none h
  simp only [Config.wf, Bool.and_eq_true, decide_eq_true_eq] at hw
  obtain ⟨-, -, -, -, hw2, -⟩ := hw
  simp only [frameRowEnd, winEnd, BitVec.toNat_ofNat]
  omega

/-- The panel once the memory write of a window at (0, 0) is open. -/
theorem panelOpcode_ramwr_windowSent {ce re : Word} {s : State} (hw : s.cfg.wf = true) (h1 : s.winCs = some 0)
    (h3 : s.winRs = some 0) :
    panelOpcode (windowSentState 0 ce 0 re s) s.cfg.opRamwr =
      if s.cfg.orient = 0 then ⟨some (0, 0), none, (panelOpcode s s.cfg.opCaset).gram⟩ else Panel.unknown := by
  obtain ⟨hrs, -, -, -, -, hc, -, -, -⟩ := opcodes_ne hw
  have hhalf : (panelOpcode s s.cfg.opCaset).half = none := by
    unfold panelOpcode; rw [if_neg hc]; split <;> rfl
  generalize hP : panelOpcode s s.cfg.opCaset = P at *
  unfold panelOpcode
  simp [windowSentState, h1, h3, Ne.symm hrs, hP, hhalf]

/-- `draw_frame`'s events after its window registers are loaded (44_frame_streamer.md R222). -/
theorem drawSteps_run {f : Frame} {samples : List ColorSample} {s : State} (hw : s.cfg.wf = true)
    (hk : s.frKind = .idle) (hd : drawCheck s.cfg f = none) (hs : frameSamples f = some samples)
    (h1 : s.winCs = some 0) (h2 : s.winCe = some (frameColEnd f)) (h3 : s.winRs = some 0)
    (h4 : s.winRe = some (frameRowEnd f)) (h : s.calm (22 + 4 * f.w * f.h) (22 + 4 * f.w * f.h)) :
    runSteps (drawSteps s.cfg f samples) s = .go (frameDrawn f samples s) := by
  obtain ⟨-, ⟨hw1, hw2, hh1, hh2⟩, -, -⟩ := drawCheck_none hd
  have hce := frameColEnd_toNat hw hd
  have hre := frameRowEnd_toNat hw hd
  have hn := frameSamples_length hs
  have hb : (pixelBytes samples).length = 2 * (f.w * f.h) := by rw [pixelBytes_length, hn]
  have hpos : 0 < f.w * f.h := Nat.mul_pos hw1 hh1
  have harea : 4 * f.w * f.h = 4 * (f.w * f.h) := Nat.mul_assoc _ _ _
  rw [harea] at h
  have hph : dataPhase 0 (frameColEnd f) 0 (frameRowEnd f) = 2 * (f.w * f.h) := by
    have a : f.w - 1 + 1 = f.w := by omega
    have b : f.h - 1 + 1 = f.h := by omega
    simp [dataPhase, hce, hre, a, b, Nat.mul_assoc]
  rw [drawSteps, runSteps_append, runSteps_append, setWindowSteps_run hw hk (h.mono (by omega) (by omega))]
  simp only [Flow.go_andThen]
  have c1 : (windowSentState 0 (frameColEnd f) 0 (frameRowEnd f) s).calm (2 + 4 * (f.w * f.h)) (2 + 4 * (f.w * f.h)) :=
    State.calm.later (a := 20) (b := 20) (h.mono (by omega) (by omega)) rfl
  rw [show ramwrSteps s.cfg = commandSteps s.cfg.opRamwr from rfl, runSteps_commandSteps (c1.mono (by omega) (by omega)),
    panelOpcode_ramwr_windowSent hw h1 h3]
  generalize hP : (if s.cfg.orient = 0 then
    (⟨some (0, 0), none, (panelOpcode s s.cfg.opCaset).gram⟩ : Panel) else Panel.unknown) = P
  have e : openPayload s.cfg.opRamwr (pairSent .cmd s.cfg.opRamwr P
      (windowSentState 0 (frameColEnd f) 0 (frameRowEnd f) s)) =
      .go { pairSent .cmd s.cfg.opRamwr P (windowSentState 0 (frameColEnd f) 0 (frameRowEnd f) s) with
        frKind := .stream, frRem := 2 * (f.w * f.h) } := by
    simp [openPayload, openDataPhase, pairSent, windowSentState, h1, h2, h3, h4]
    exact hph
  rw [e]
  simp only [Flow.go_andThen]
  rw [pixelSteps_flatMap, runSteps_payload (by simp) (by rw [hb]) (by simpa using hpos)
    (by rw [hb]; exact (c1.mono (a' := 2 + 2 * (2 * (f.w * f.h))) (b' := 2 + 2 * (2 * (f.w * f.h))) (by omega) (by omega)).later rfl)]
  simp only [Flow.go.injEq]
  have hne : pixelBytes samples ≠ [] := by
    intro e0; rw [e0] at hb; simp at hb; omega
  apply State.ext <;> try simp [dataSent, frameDrawn, pairSent, windowSentState, drawTrace, cmdTrace, hb, hne]
  · omega
  · simp [dataTrace]
  · subst hP
    by_cases ho : s.cfg.orient = 0
    · rw [if_pos ho, panelRun_pixels (w := f.w) (h := f.h) (k := 0) (ce := frameColEnd f) (re := frameRowEnd f)
        (m := (panelOpcode s s.cfg.opCaset).gram) (by exact h1) (by exact h2) (by exact h4) hw1 hce hre (by exact hw2)
        (by exact hh2) (by rw [Nat.zero_mod, Nat.zero_div]) (by omega)]
      rw [drawnPanel, if_pos ho, hn, Nat.zero_add, Nat.mul_mod_right, Nat.mul_div_cancel_left _ hw1]
    · rw [if_neg ho, panelRun_closed (by rfl), drawnPanel, if_neg ho]
  · congr 1 <;> omega

end Sys2Proof.Machine
end

