-- ==== Sys2Proof/Laws/Events.lean ====
section
/-! SUPPORT. Laws/Events.lean: one step of spec/00_scope.md R9 of a plan leaves what the plan comes to, and exec is a plan run to its end. -/

namespace Sys2Proof.Machine

@[simp] theorem Plan.run_todo (s : State) (p : Program) :
    (Plan.todo s p).run = (runSteps p.steps s).andThen (runActs p.final) := rfl

@[simp] theorem Plan.run_trap (code : ErrCode) (s : State) : (Plan.trap code s).run = .ended (releaseAndRespond code s) := rfl

@[simp] theorem Plan.run_reset (s : State) : (Plan.reset s).run = .ended (blockReset s) := rfl

@[simp] theorem Plan.run_closed (f : Flow) : (Plan.closed f).run = f := rfl

/-- Taking a fault and then running the rest of the fatal path is `raise`. -/
@[simp] theorem fatal_run (code : ErrCode) (s : State) : (fatal code s).run = .ended (raise code s) := rfl

/-- What is left after an event's register actions comes to the rest of the program and its last actions. -/
theorem Plan.run_goOn (rest : List EvStep) (final : List Act) (f : Flow) :
    (Plan.goOn rest final f).run = (f.andThen (runSteps rest)).andThen (runActs final) := by
  cases f with
  | go s => cases rest <;> rfl
  | ended s => rfl
  | stuck f => rfl

/-- One step of R9 does not change what a plan comes to: running a plan is taking its steps to the end. -/
theorem Plan.next_run (p : Plan) : p.next.run = p.run := by
  cases p with
  | todo s p =>
    obtain ⟨steps, final⟩ := p
    cases steps with
    | nil => rfl
    | cons g gs =>
      simp only [Plan.next, Plan.run_todo, runSteps_cons, perform]
      cases emit g.ev s with
      | reset s' => rfl
      | failed s' => rfl
      | performed s' => exact Plan.run_goOn _ _ _
  | sample s stop go => simp only [Plan.next, Plan.run]; split <;> rfl
  | trap code s =>
    simp only [Plan.next, Plan.run_trap, releaseAndRespond]
    split
    · rfl
    · cases emit .release s <;> rfl
  | reset s => rfl
  | closed f => rfl

/-- A plan that is not closed takes its next step. -/
theorem eventStep_eq_next {p : Plan} (h : ∀ f, p ≠ .closed f) : eventStep p = .next p.next := by
  cases p with
  | closed f => exact absurd rfl (h f)
  | todo s p => rfl
  | sample s stop go => rfl
  | trap code s => rfl
  | reset s => rfl

/-- exec of an instruction is its plan, run to its end. -/
theorem exec_planned (i : Instr) (s : State) : exec i s = (planned i s).run.toOutcome := by
  cases i <;> rfl

end Sys2Proof.Machine
end

