-- ==== Sys2Proof/Laws/PerInstr.lean ====
section
/-! SUPPORT. Laws/PerInstr.lean: the family `Bytes` over every constructor of Instr: in every build an instruction's bytes begin
with its code, a request's below 16 (spec/30_encoding.md R91) and a bus command's one of the eight opcodes (R95). -/

namespace Sys2Proof.Laws.Bytes

/-- How an instruction's bytes begin. -/
def Statement (i : Instr) : Prop :=
  ∀ cfg : Config, ∃ b bs, encode cfg i = b :: bs ∧
    (i.level = .request → b.toNat < 16) ∧ (i.level = .command → cfg.opcodes.contains b = true)

/-- A request's first byte is below 16. -/
theorem of_request {i : Instr} (hl : i.level = .request) {b : Byte} {mk : Config → List Byte}
    (e : ∀ cfg, encode cfg i = b :: mk cfg) (hb : b.toNat < 16) : Statement i :=
  fun cfg => ⟨b, mk cfg, e cfg, fun _ => hb, fun h => (by rw [hl] at h; cases h)⟩

/-- A command's first byte is an opcode. -/
theorem of_command {i : Instr} (hl : i.level = .command) {op : Config → Byte} {mk : Config → List Byte}
    (e : ∀ cfg, encode cfg i = op cfg :: mk cfg) (hb : ∀ cfg : Config, cfg.opcodes.contains (op cfg) = true) : Statement i :=
  fun cfg => ⟨op cfg, mk cfg, e cfg, fun h => (by rw [hl] at h; cases h), fun _ => hb cfg⟩

theorem init : Statement .init :=
  of_request rfl (fun _ => rfl) (by decide)

theorem sendCmd (op : Byte) : Statement (.sendCmd op) :=
  of_request rfl (fun _ => rfl) (by decide)

theorem sendData (b : Byte) : Statement (.sendData b) :=
  of_request rfl (fun _ => rfl) (by decide)

theorem setWindow (cs ce rs re : Word) : Statement (.setWindow cs ce rs re) :=
  of_request rfl (fun _ => rfl) (by decide)

theorem encode (r g b : Byte) : Statement (.encode r g b) :=
  of_request rfl (fun _ => rfl) (by decide)

theorem drawFrame (f : Frame) : Statement (.drawFrame f) :=
  of_request rfl (fun _ => rfl) (by decide)

theorem animate (seq : List (Frame × Nat)) (policy : Policy) : Statement (.animate seq policy) :=
  of_request rfl (fun _ => rfl) (by decide)

theorem readStatus : Statement .readStatus :=
  of_request rfl (fun _ => rfl) (by decide)

theorem release : Statement .release :=
  of_request rfl (fun _ => rfl) (by decide)

theorem reserved0 : Statement .reserved0 :=
  of_request rfl (fun _ => rfl) (by decide)

theorem reservedA : Statement .reservedA :=
  of_request rfl (fun _ => rfl) (by decide)

theorem reservedB : Statement .reservedB :=
  of_request rfl (fun _ => rfl) (by decide)

theorem reservedC : Statement .reservedC :=
  of_request rfl (fun _ => rfl) (by decide)

theorem reservedD : Statement .reservedD :=
  of_request rfl (fun _ => rfl) (by decide)

theorem reservedE : Statement .reservedE :=
  of_request rfl (fun _ => rfl) (by decide)

theorem reservedF : Statement .reservedF :=
  of_request rfl (fun _ => rfl) (by decide)

theorem swreset : Statement .swreset :=
  of_command rfl (fun _ => rfl) (fun _ => by simp [Config.opcodes])

theorem slpout : Statement .slpout :=
  of_command rfl (fun _ => rfl) (fun _ => by simp [Config.opcodes])

theorem colmod : Statement .colmod :=
  of_command rfl (fun _ => rfl) (fun _ => by simp [Config.opcodes])

theorem madctl : Statement .madctl :=
  of_command rfl (fun _ => rfl) (fun _ => by simp [Config.opcodes])

theorem dispon : Statement .dispon :=
  of_command rfl (fun _ => rfl) (fun _ => by simp [Config.opcodes])

theorem caset (cs ce : Word) : Statement (.caset cs ce) :=
  of_command rfl (fun _ => rfl) (fun _ => by simp [Config.opcodes])

theorem raset (rs re : Word) : Statement (.raset rs re) :=
  of_command rfl (fun _ => rfl) (fun _ => by simp [Config.opcodes])

theorem ramwr : Statement .ramwr :=
  of_command rfl (fun _ => rfl) (fun _ => by simp [Config.opcodes])

end Sys2Proof.Laws.Bytes
end

