-- ==== Sys2Proof/Laws/Run.lean ====
section
/-! SUPPORT. Laws/Run.lean: how a run of event steps can come out: it went through, so nothing failed; it was cut by a failure or a
block reset after some of its events; or the model stopped it, as it would have without any disturbance
(spec/60_exceptions.md R309, R314; spec/70_reset_and_hazards.md R341). -/

namespace Sys2Proof.Machine

/-! ## What register actions leave alone -/

/-- Nothing the bus sees differs, nor anything a register action never writes. -/
structure SameBus (s t : State) : Prop where
  cfg : t.cfg = s.cfg
  evPtr : t.evPtr = s.evPtr
  dcLine : t.dcLine = s.dcLine
  rstLine : t.rstLine = s.rstLine
  winCs : t.winCs = s.winCs
  winCe : t.winCe = s.winCe
  winRs : t.winRs = s.winRs
  winRe : t.winRe = s.winRe
  err : t.err = s.err
  halted : t.halted = s.halted
  released : t.released = s.released
  log : t.log = s.log
  panel : t.panel = s.panel
  inputs : t.inputs = s.inputs
  cmdPort : t.cmdPort = s.cmdPort

theorem SameBus.refl (s : State) : SameBus s s := ⟨rfl, rfl, rfl, rfl, rfl, rfl, rfl, rfl, rfl, rfl, rfl, rfl, rfl, rfl, rfl⟩

theorem SameBus.trans {s t u : State} (h : SameBus s t) (k : SameBus t u) : SameBus s u :=
  ⟨k.cfg.trans h.cfg, k.evPtr.trans h.evPtr, k.dcLine.trans h.dcLine, k.rstLine.trans h.rstLine, k.winCs.trans h.winCs,
    k.winCe.trans h.winCe, k.winRs.trans h.winRs, k.winRe.trans h.winRe, k.err.trans h.err, k.halted.trans h.halted,
    k.released.trans h.released, k.log.trans h.log, k.panel.trans h.panel, k.inputs.trans h.inputs,
    k.cmdPort.trans h.cmdPort⟩

/-- A register action ends no request, and writes only its own registers. -/
theorem act_keepsBus (a : Act) (s : State) : (∃ t, act a s = .go t ∧ SameBus s t) ∨ ∃ f, act a s = .stuck f := by
  cases a with
  | openPayload op =>
    obtain ⟨f, e⟩ | ⟨k, n, e, -⟩ := openPayload_cases op s
    · exact .inr ⟨f, e⟩
    · exact .inl ⟨_, e, by constructor <;> rfl⟩
  | countOff =>
    obtain ⟨e, -⟩ | ⟨e, -⟩ | ⟨-, -, e⟩ := countOff_cases s
    · exact .inr ⟨_, e⟩
    · exact .inr ⟨_, e⟩
    · exact .inl ⟨_, e, by constructor <;> rfl⟩
  | setInit st => exact .inl ⟨_, rfl, by constructor <;> rfl⟩
  | windowSent => exact .inl ⟨_, rfl, by constructor <;> rfl⟩
  | pairDone len policy =>
    refine .inl ⟨_, rfl, ?_⟩
    unfold pairDone
    repeat' split
    all_goals constructor <;> rfl
  | answer st v => exact .inl ⟨_, rfl, by constructor <;> rfl⟩

theorem runActs_keepsBus (as : List Act) (s : State) :
    (∃ t, runActs as s = .go t ∧ SameBus s t) ∨ ∃ f, runActs as s = .stuck f := by
  induction as generalizing s with
  | nil => exact .inl ⟨s, rfl, SameBus.refl s⟩
  | cons a as ih =>
    obtain ⟨t, e, h⟩ | ⟨f, e⟩ := act_keepsBus a s
    · rw [runActs_cons, e]
      obtain ⟨u, e', h'⟩ | ⟨f, e'⟩ := ih t
      · exact .inl ⟨u, e', h.trans h'⟩
      · exact .inr ⟨f, e'⟩
    · exact .inr ⟨f, by rw [runActs_cons, e]; rfl⟩

theorem runActs_go {as : List Act} {s t : State} (h : runActs as s = .go t) : SameBus s t := by
  obtain ⟨u, e, k⟩ | ⟨f, e⟩ := runActs_keepsBus as s
  · rw [h] at e; injection e with e; exact e ▸ k
  · rw [h] at e; cases e

theorem runActs_not_ended (as : List Act) (s t : State) : runActs as s ≠ .ended t := by
  intro h
  obtain ⟨u, e, -⟩ | ⟨f, e⟩ := runActs_keepsBus as s <;> rw [h] at e <;> cases e

/-! ## A run that went through -/

/-- How many failure reports the events of a run read. -/
def stepsCost (gs : List EvStep) : Nat := (gs.map fun g => g.ev.cost).sum

theorem perform_go {g : EvStep} {s t : State} (h : perform g s = .go t) :
    s.rstReads = false ∧ eventFails g.ev s = false ∧ runActs g.after (record g.ev s) = .go t := by
  unfold perform emit at h
  cases hr : s.rstReads with
  | true => simp [hr] at h
  | false =>
    cases hf : eventFails g.ev s with
    | true => simp [hr, hf] at h
    | false => exact ⟨rfl, rfl, by simpa [hr, hf] using h⟩

theorem quiet_cons {n : Nat} {l : List Bool} (h : l.headD false = false) (k : quiet n l.tail = true) :
    quiet (n + 1) l = true := by
  cases l with
  | nil => simp [quiet]
  | cons b l => simp_all [quiet]

/-- A run that went through met no failure and no reset. -/
theorem runSteps_go_calm {gs : List EvStep} {s t : State} (h : runSteps gs s = .go t) :
    s.calm (stepsCost gs) gs.length := by
  induction gs generalizing s with
  | nil => exact ⟨by simp [quiet, stepsCost], by simp [quiet]⟩
  | cons g gs ih =>
    rw [runSteps_cons] at h
    cases hp : perform g s with
    | ended u => rw [hp] at h; cases h
    | stuck f => rw [hp] at h; cases h
    | go u =>
      rw [hp, Flow.go_andThen] at h
      obtain ⟨hr, hf, ha⟩ := perform_go hp
      have hi : u.inputs = s.inputs.after g.ev.cost 1 := by
        rw [(runActs_go ha).inputs, record_inputs, inputsAfter_eq]
      obtain ⟨k1, k2⟩ := ih h
      rw [hi] at k1 k2
      simp only [Inputs.after] at k1 k2
      refine ⟨?_, ?_⟩
      · simp only [stepsCost, List.map_cons, List.sum_cons]
        unfold Event.cost at k1 ⊢
        unfold eventFails at hf
        cases hc : g.ev.canFail with
        | false => simpa [hc, stepsCost, Event.cost] using k1
        | true =>
          simp only [hc, if_true, List.drop_one] at k1 ⊢
          rw [Nat.add_comm]
          exact quiet_cons (by simpa [hc] using hf) k1
      · simpa using quiet_cons hr (by simpa using k2)

/-- Every event of a run that went through stands in the trace and is counted. -/
theorem runSteps_go_log {gs : List EvStep} {s t : State} (h : runSteps gs s = .go t) :
    t.log = (gs.map fun g => g.ev).reverse ++ s.log ∧ t.evPtr = s.evPtr + gs.length ∧
      t.inputs = s.inputs.after (stepsCost gs) gs.length := by
  induction gs generalizing s with
  | nil => injection h with h; subst h; simp [stepsCost]
  | cons g gs ih =>
    rw [runSteps_cons] at h
    cases hp : perform g s with
    | ended u => rw [hp] at h; cases h
    | stuck f => rw [hp] at h; cases h
    | go u =>
      rw [hp, Flow.go_andThen] at h
      obtain ⟨-, -, ha⟩ := perform_go hp
      have hb := runActs_go ha
      obtain ⟨k1, k2, k3⟩ := ih h
      refine ⟨?_, ?_, ?_⟩
      · rw [k1, hb.log]; simp
      · rw [k2, hb.evPtr]; simp; omega
      · rw [k3, hb.inputs, record_inputs, inputsAfter_eq]
        simp [stepsCost, Nat.add_comm]

/-! ## A run that was cut -/

/-- A run ends before its last event only at an event that failed or after which block reset came: the events before it went through. -/
theorem runSteps_ended {gs : List EvStep} {s t : State} (h : runSteps gs s = .ended t) :
    ∃ pre g post u, gs = pre ++ g :: post ∧ runSteps pre s = .go u ∧
      ((u.rstReads = true ∧ t = blockReset (record g.ev u)) ∨
        (u.rstReads = false ∧ eventFails g.ev u = true ∧ t = raise .busError (record g.ev u))) := by
  induction gs generalizing s with
  | nil => cases h
  | cons g gs ih =>
    rw [runSteps_cons] at h
    cases hp : perform g s with
    | stuck f => rw [hp] at h; cases h
    | ended v =>
      rw [hp] at h
      injection h with h; subst h
      refine ⟨[], g, gs, s, rfl, rfl, ?_⟩
      unfold perform emit at hp
      cases hr : s.rstReads with
      | true => simp [hr] at hp; exact .inl ⟨rfl, hp.symm⟩
      | false =>
        cases hf : eventFails g.ev s with
        | true => simp [hr, hf] at hp; exact .inr ⟨rfl, rfl, hp.symm⟩
        | false => simp only [hr, hf, Bool.false_eq_true, if_false] at hp; exact absurd hp (runActs_not_ended _ _ _)
    | go v =>
      rw [hp, Flow.go_andThen] at h
      obtain ⟨pre, g', post, u, rfl, e, k⟩ := ih h
      exact ⟨g :: pre, g', post, u, rfl, by rw [runSteps_cons, hp]; exact e, k⟩

/-! ## The same run undisturbed -/

/-- The state with nothing failing and no block reset ahead. -/
def State.undisturbed (s : State) : State := { s with inputs := { s.inputs with fail := [], rst := [] } }

@[simp] theorem undisturbed_undisturbed (s : State) : s.undisturbed.undisturbed = s.undisturbed := rfl

theorem undisturbed_calm (s : State) (a b : Nat) : s.undisturbed.calm a b := ⟨by simp [State.undisturbed, quiet], by simp [State.undisturbed, quiet]⟩

/-- A flow with its state undisturbed. -/
def Flow.undisturbed : Flow → Flow
  | .go s => .go s.undisturbed
  | .ended s => .ended s.undisturbed
  | .stuck f => .stuck f

/-- Register actions read no input. -/
theorem act_undisturbed (a : Act) (s : State) : act a s.undisturbed = (act a s).undisturbed := by
  cases a with
  | openPayload op =>
    by_cases hk : s.frKind = .idle
    · by_cases ho : op = s.cfg.opRamwr
      · simp only [act, openPayload, openDataPhase, State.undisturbed, hk, ho]
        cases s.winCs <;> cases s.winCe <;> cases s.winRs <;> cases s.winRe <;> try rfl
        simp only [ne_eq, not_true_eq_false, if_false, if_true]
        split <;> rfl
      · simp only [act, openPayload, State.undisturbed, hk, ho]
        simp only [ne_eq, not_true_eq_false, if_false]
        cases payloadLen s.cfg op with
        | none => rfl
        | some n => cases n <;> rfl
    · simp [act, openPayload, State.undisturbed, hk, Flow.undisturbed]
  | countOff =>
    by_cases hk : s.frKind = .idle
    · simp [act, countOff, State.undisturbed, hk, Flow.undisturbed]
    · simp only [act, countOff, State.undisturbed, hk, if_false]
      cases hr : s.frRem with
      | zero => rfl
      | succ n => cases n <;> rfl
  | setInit st => rfl
  | windowSent => rfl
  | pairDone len policy =>
    by_cases h : s.animIdx + 1 = len
    · cases policy <;> simp [act, pairDone, State.undisturbed, h, Flow.undisturbed, respond]
    · simp [act, pairDone, State.undisturbed, h, Flow.undisturbed]
  | answer st v => rfl

theorem runActs_undisturbed (as : List Act) (s : State) : runActs as s.undisturbed = (runActs as s).undisturbed := by
  induction as generalizing s with
  | nil => rfl
  | cons a as ih =>
    rw [runActs_cons, runActs_cons, act_undisturbed]
    cases act a s with
    | go t => exact ih t
    | ended t => rfl
    | stuck f => rfl

theorem record_undisturbed {ev : Event} {s : State} (h : eventFails ev s = false) :
    record ev s.undisturbed = (record ev s).undisturbed := by
  have h' : eventFails ev s.undisturbed = false := by simp [eventFails, State.undisturbed]
  apply State.ext <;> try rfl
  · have e : observe ev s.undisturbed = observe ev s := by cases ev <;> rfl
    have l : (record ev s).undisturbed.panel = (record ev s).panel := rfl
    rw [l, record_panel, record_panel, h, h', e]
  · simp [State.undisturbed, inputsAfter]

/-- A run of event steps that is not cut comes out as it would undisturbed. -/
theorem runSteps_undisturbed {gs : List EvStep} {s : State} (h : ∀ t, runSteps gs s ≠ .ended t) :
    runSteps gs s.undisturbed = (runSteps gs s).undisturbed := by
  induction gs generalizing s with
  | nil => rfl
  | cons g gs ih =>
    rw [runSteps_cons, runSteps_cons] at *
    cases hp : perform g s with
    | ended u => rw [hp] at h; exact absurd rfl (h u)
    | go u =>
      rw [hp] at h
      obtain ⟨hr, hf, ha⟩ := perform_go hp
      have : perform g s.undisturbed = .go u.undisturbed := by
        rw [perform_calm (undisturbed_calm s _ _), record_undisturbed hf, runActs_undisturbed, ha]; rfl
      rw [this]; exact ih h
    | stuck f =>
      have hf : s.rstReads = false ∧ eventFails g.ev s = false ∧ runActs g.after (record g.ev s) = .stuck f := by
        unfold perform emit at hp
        cases hr : s.rstReads with
        | true => simp [hr] at hp
        | false =>
          cases hf : eventFails g.ev s with
          | true => simp [hr, hf] at hp
          | false => exact ⟨rfl, rfl, by simpa [hr, hf] using hp⟩
      have : perform g s.undisturbed = .stuck f := by
        rw [perform_calm (undisturbed_calm s _ _), record_undisturbed hf.2.1, runActs_undisturbed, hf.2.2]; rfl
      rw [this]; rfl

end Sys2Proof.Machine
end

