-- ==== Sys2Proof/Tests/Slice0.lean ====
section
/-! SUPPORT. Tests/Slice0.lean: the model against values written out by hand: what WellFormed refuses, words written out from
spec/30_encoding.md, one-step results from spec/95_test_vectors.md (each test names its vector), and for every obligation with
hypotheses a witness that meets them. -/

namespace Sys2Proof.Tests

open Sys2Proof Sys2Proof.Machine

/-! ## Helpers -/

/-- The outcome is a next state with this property. -/
def nextIs (o : Host.Outcome State Fault Refusal) (p : State → Bool) : Bool :=
  match o with
  | .next t => p t
  | .fault _ => false
  | .refused _ => false

/-- The state "after INIT" of spec/95_test_vectors.md. -/
def afterInit : State := { State.reset with initState := .on, dcLine := .cmd, rstLine := .high }

/-- After INIT and a window (0, 1, 0, 1). -/
def windowed : State :=
  { afterInit with winCs := some 0, winCe := some 1, winRs := some 0, winRe := some 1, winValid := true }

/-- A memory write of that window open, nothing sent yet. -/
def writing : State :=
  { windowed with frKind := .stream, frRem := 8, panel := ⟨some (0, 0), none, []⟩ }

/-- The same with the first byte of a pair sent, the cursor at `(col, row)`. -/
def halfSent (col row : Nat) : State :=
  { writing with frRem := 7, panel := ⟨some (col, row), some 0xF8, [(7, 1)]⟩ }

/-- The same state with a half pair standing, as the panel aid may hold it. -/
def halfStanding (s : State) : State := { s with panel := ⟨some (0, 0), some 0xF8, [(7, 1)]⟩ }

/-- After a fault: I2's end. -/
def haltedState : State := { State.reset with err := .transportInit, halted := true, released := true, log := [.release] }

/-- After RELEASE: F8's end. -/
def releasedState : State := { State.reset with released := true, log := [.release] }

def red : ColorSample := ⟨255, 0, 0⟩

def blue : ColorSample := ⟨0, 0, 255⟩

def black : ColorSample := ⟨0, 0, 0⟩

def white : ColorSample := ⟨255, 255, 255⟩

/-- A Direct frame. -/
def direct (w h : Nat) (pixels : List ColorSample) : Frame := ⟨w, h, .direct pixels, true⟩

/-- An Indexed frame. -/
def indexed (w h : Nat) (indices : List Nat) (palette : List ColorSample) : Frame := ⟨w, h, .indexed indices palette, true⟩

def f0 : Frame := direct 1 1 [red]

def f1 : Frame := direct 1 1 [blue]

def badFrame : Frame := direct 1 1 []

/-- A REPEAT of `f0` at the boundary after its first pair. -/
def repeating : State :=
  { afterInit with
    busy := true
    curReq := some (.animate [(f0, 50)] .repeating)
    evPtr := 27
    animActive := true }

/-- A ONCE of two frames at the boundary between them. -/
def between (second : Frame) : State :=
  { afterInit with
    busy := true
    curReq := some (.animate [(f0, 100), (second, 100)] .once)
    evPtr := 27
    animIdx := 1
    animActive := true }

/-- A state with the failure reports, and the block resets, that are to come. -/
def disturbed (fail rst : List Bool) (s : State) : State := { s with inputs := { s.inputs with fail := fail, rst := rst } }

/-- A state with the host's packets. -/
def presented (packets : List (List Byte)) (s : State) : State := { s with inputs := { s.inputs with requests := packets } }

/-- A state with the stop input's next values. -/
def stopping (stop : List Bool) (s : State) : State := { s with inputs := { s.inputs with stop := stop } }

/-! ## What WellFormed refuses (00_scope.md R12; 42_address_window_adder.md R186) -/

theorem test_wf_caset_reversed : (Instr.caset 5 4).wf Config.default = false := by decide

theorem test_wf_caset_panel_edge :
    (Instr.caset 0 239).wf Config.default = true ∧ (Instr.caset 0 240).wf Config.default = false := by decide

theorem test_wf_raset_reversed : (Instr.raset 3 2).wf Config.default = false := by decide

theorem test_wf_raset_panel_edge :
    (Instr.raset 0 319).wf Config.default = true ∧ (Instr.raset 0 320).wf Config.default = false := by decide

theorem test_wf_config_equal_opcodes : ({ Config.default with opRaset := 0x2A } : Config).wf = false := by decide

theorem test_wf_config_panel_sides :
    ({ Config.default with panelW := 0 } : Config).wf = false ∧ ({ Config.default with panelW := 65537 } : Config).wf = false ∧
    ({ Config.default with panelH := 0 } : Config).wf = false ∧ ({ Config.default with panelH := 65537 } : Config).wf = false ∧
    ({ Config.default with panelW := 1, panelH := 65536 } : Config).wf = true := by decide

/-- A request is well-formed whatever its operands: a window the check does not admit is answered by a fault. -/
theorem test_wf_request_any_operands : (Instr.setWindow 5 4 3 2).wf Config.default = true := by decide

/-- R346 and 93 I4: each settle delay one below its minimum is refused; raising one is not. -/
theorem test_wf_config_minimum_waits :
    ({ Config.default with tRstLow := 99 } : Config).wf = false ∧ ({ Config.default with tRstHigh := 99 } : Config).wf = false ∧
    ({ Config.default with tSwreset := 149 } : Config).wf = false ∧ ({ Config.default with tSlpout := 254 } : Config).wf = false ∧
    ({ Config.default with tDispon := 99 } : Config).wf = false ∧ ({ Config.default with tSlpout := 500 } : Config).wf = true := by
  decide

/-- R183: the range command has no check of its own; at the framer it sends what it is given. -/
theorem test_step_runs_any_range :
    nextIs (step { State.reset with cmdPort := some [0x2A, 0, 5, 0, 4] }) (fun t =>
      t.trace == cmdTrace 0x2A [0x00, 0x05, 0x00, 0x04]) = true := by decide

/-! ## Words written out (30_encoding.md R91 to R98; the operand bytes' layout is log 4's) -/

theorem test_decode_init : decodeRequest [0x01] = .ok .init := by decide

theorem test_decode_sendCmd : decodeRequest [0x02, 0x2C] = .ok (.sendCmd 0x2C) := by decide

theorem test_decode_sendData : decodeRequest [0x03, 0xF8] = .ok (.sendData 0xF8) := by decide

theorem test_decode_setWindow :
    decodeRequest [0x04, 0x00, 0x0A, 0x00, 0x14, 0x01, 0x05, 0x01, 0x06] = .ok (.setWindow 10 20 261 262) := by decide

theorem test_decode_encode : decodeRequest [0x05, 0xAB, 0xCD, 0xEF] = .ok (.encode 0xAB 0xCD 0xEF) := by decide

theorem test_decode_drawFrame_direct :
    decodeRequest [0x06, 0x01, 0x02, 0x01, 0x00, 0x02, 255, 0, 0, 0, 0, 255] = .ok (.drawFrame (direct 1 2 [red, blue])) := by
  decide

theorem test_decode_drawFrame_indexed :
    decodeRequest [0x06, 0xF0, 0x01, 0x01, 0x00, 0x01, 0x01, 0x00, 0x01, 255, 0, 0] =
      .ok (.drawFrame ⟨240, 1, .indexed [0] [red], false⟩) := by decide

theorem test_decode_animate :
    decodeRequest [0x07, 0x01, 0x01, 0x01, 0x01, 0x01, 0x00, 0x01, 255, 0, 0, 0x32] =
      .ok (.animate [(f0, 50)] .repeating) := by decide

theorem test_decode_readStatus : decodeRequest [0x08] = .ok .readStatus := by decide

theorem test_decode_release : decodeRequest [0x09] = .ok .release := by decide

theorem test_decode_reserved :
    decodeRequest [0x00] = .ok .reserved0 ∧ decodeRequest [0x0A] = .ok .reservedA ∧ decodeRequest [0x0B] = .ok .reservedB ∧
    decodeRequest [0x0C] = .ok .reservedC ∧ decodeRequest [0x0D] = .ok .reservedD ∧ decodeRequest [0x0E] = .ok .reservedE ∧
    decodeRequest [0x0F] = .ok .reservedF := by decide

theorem test_decode_reserved_ignores_operands : decodeRequest [0x0F, 0x12, 0x34] = .ok .reservedF := by decide

theorem test_decode_commands_without_payload :
    decodeCommand Config.default [0x01] = .ok .swreset ∧ decodeCommand Config.default [0x11] = .ok .slpout ∧
    decodeCommand Config.default [0x29] = .ok .dispon ∧ decodeCommand Config.default [0x2C] = .ok .ramwr := by decide

theorem test_decode_commands_with_a_parameter :
    decodeCommand Config.default [0x3A, 0x55] = .ok .colmod ∧ decodeCommand Config.default [0x36, 0x00] = .ok .madctl := by
  decide

theorem test_decode_range_commands :
    decodeCommand Config.default [0x2A, 0x00, 0x00, 0x00, 0xEF] = .ok (.caset 0 239) ∧
    decodeCommand Config.default [0x2B, 0x01, 0x3E, 0x01, 0x3F] = .ok (.raset 318 319) := by decide

theorem test_decode_refuses :
    decodeRequest [] = .error .empty ∧ decodeRequest [0x11] = .error (.badHeader 0x11) ∧
    decodeRequest [0x02] = .error .truncated ∧ decodeRequest [0x01, 0x00] = .error .trailing ∧
    decodeRequest [0x07, 0x02, 0x00] = .error (.badFlag 2) ∧ decodeRequest [0x06, 0x80, 0x00] = .error .overlong ∧
    decodeCommand Config.default [0x28] = .error (.unknownOpcode 0x28) ∧
    decodeCommand Config.default [0x3A, 0x66] = .error (.badPayload 0x66) := by decide

theorem test_decode_table_words :
    decodeTableWord 8 0x04 = some (.setWindow 0 0 0 0) ∧ decodeTableWord 8 0x07 = some (.animate [] .once) ∧
    decodeTableWord 8 0x2C = some .ramwr ∧ decodeTableWord 40 0x00002A = some (.caset 0 0) := by decide

/-! ## One step each, from spec/95_test_vectors.md -/

/-- Vector I1. -/
theorem test_init_trace :
    nextIs (exec .init State.reset) (fun t =>
      t.trace == [.rst .low, .wait 100, .rst .high, .wait 100, .dc .cmd, .xfer 0x01, .wait 150, .dc .cmd, .xfer 0x11,
        .wait 255, .dc .cmd, .xfer 0x3A, .dc .data, .xfer 0x55, .dc .cmd, .xfer 0x36, .dc .data, .xfer 0x00, .dc .cmd,
        .xfer 0x29, .wait 100] && statusWord t == 0x0006 && t.responses == [⟨.ok, 0⟩]) = true := by decide

/-- Vector I7: event 14 fails; the failed byte is not counted off. -/
theorem test_init_fails_in_colmod :
    nextIs (exec .init (disturbed (List.replicate 9 false ++ [true]) [] State.reset)) (fun t =>
      t.log.length == 15 && statusWord t == 0x095B && t.frKind == .fixed && t.frRem == 1) = true := by decide

/-- Vector C1. -/
theorem test_sendCmd_opens :
    nextIs (exec (.sendCmd 0x2C) { windowed with winCe := some 0, winRe := some 0 }) (fun t =>
      t.trace == [.dc .cmd, .xfer 0x2C] && t.frRem == 2 && statusWord t == 0x00A6) = true := by decide

/-- Vector C6: an opcode that is not admitted is found before the missing window. -/
theorem test_sendCmd_not_admitted :
    nextIs (exec (.sendCmd 0x01) afterInit) (fun t =>
      t.trace == [.release] && t.responses == [⟨.fault, 6⟩] && statusWord t == 0x061E) = true := by decide

/-- Program P5: the pair sent at (10, 5). -/
theorem test_sendData_stores :
    nextIs (exec (.sendData 0x00)
        { writing with winCs := some 10, winCe := some 11, winRs := some 5, winRe := some 5, frRem := 3,
                       panel := ⟨some (10, 5), some 0xF8, []⟩ }) (fun t =>
      gramPixel t.panel.gram 10 5 == some 0xF800 && t.panel.cursor == some (11, 5) && t.frRem == 2) = true := by decide

/-- Vector C2's last byte closes the command. -/
theorem test_sendData_closes :
    nextIs (exec (.sendData 0x00) { writing with frRem := 1 }) (fun t =>
      t.frKind == .idle && t.frRem == 0 && t.dcLine == .data && statusWord t == 0x0026) = true := by decide

/-- Vector S3: the high byte of 319 is 0x01. -/
theorem test_setWindow_full_panel :
    nextIs (exec (.setWindow 0 239 0 319) afterInit) (fun t =>
      t.trace == cmdTrace 0x2A [0x00, 0x00, 0x00, 0xEF] ++ cmdTrace 0x2B [0x00, 0x00, 0x01, 0x3F] && t.evPtr == 20
        && statusWord t == 0x0026) = true := by decide

/-- Vector S8: a row end of PANEL_H. -/
theorem test_setWindow_past_the_panel :
    nextIs (exec (.setWindow 0 0 0 320) afterInit) (fun t =>
      t.trace == [.release] && t.responses == [⟨.fault, 4⟩] && statusWord t == 0x041E && t.winCs == none) = true := by decide

/-- Vector E1. -/
theorem test_encode_values :
    rgb565 0xAB 0xCD 0xEF = 0xAE7D ∧ rgb565 0x12 0x34 0x56 = 0x11AA ∧ rgb565 7 3 7 = 0 ∧ rgb565 8 4 8 = 0x0821 ∧
    rgb565 247 251 247 = 0xF7DE ∧ rgb565 200 100 50 = 0xCB26 := by decide

/-- Vector E2. -/
theorem test_encode_before_init :
    nextIs (exec (.encode 255 0 0) State.reset) (fun t => t.responses == [⟨.ok, 0xF800⟩] && t.log == []) = true := by decide

/-- Vector D4: an indexed frame. -/
theorem test_drawFrame_indexed :
    nextIs (exec (.drawFrame (indexed 2 2 [0, 1, 1, 0] [black, white])) afterInit) (fun t =>
      t.trace == cmdTrace 0x2A [0, 0, 0, 1] ++ cmdTrace 0x2B [0, 0, 0, 1] ++ cmdTrace 0x2C []
        ++ dataTrace [0x00, 0x00, 0xFF, 0xFF, 0xFF, 0xFF, 0x00, 0x00] && statusWord t == 0x0026
        && gramPixel t.panel.gram 1 0 == some 0xFFFF && gramPixel t.panel.gram 1 1 == some 0) = true := by decide

/-- Vector D7: the fourth data byte fails. -/
theorem test_drawFrame_fails_in_the_data_phase :
    nextIs (exec (.drawFrame (direct 2 2 [white, white, white, white]))
        (disturbed (List.replicate 29 false ++ [true]) [] afterInit)) (fun t =>
      t.log.length == 31 && t.frKind == .stream && t.frRem == 5 && statusWord t == 0x09BE
        && t.responses == [⟨.fault, 9⟩]) = true := by decide

/-- Vector N4's first pass: a REPEAT goes on at its next frame boundary. -/
theorem test_animate_repeat_goes_on :
    nextIs (exec (.animate [(f0, 50)] .repeating) afterInit) (fun t =>
      t.log.length == 27 && t.busy && t.animIdx == 0 && t.animActive && t.responses == []) = true := by decide

/-- Vector N8: the second frame's check fails at its boundary. -/
theorem test_animate_bad_second_frame :
    nextIs (step { between badFrame with winValid := true }) (fun t =>
      t.trace == [.release] && t.responses == [⟨.fault, 2⟩] && t.animIdx == 1 && !t.animActive
        && statusWord t == 0x023E) = true := by decide

/-- Vector F7. -/
theorem test_readStatus_when_halted :
    nextIs (exec .readStatus { afterInit with err := .illegalRequest, halted := true, released := true }) (fun t =>
      t.responses == [⟨.ok, 0x061E⟩]) = true := by decide

/-- Vector C11: a command stays open. -/
theorem test_release_keeps_the_framer :
    nextIs (exec .release { windowed with frKind := .stream, frRem := 2 }) (fun t =>
      t.trace == [.release] && t.frRem == 2 && statusWord t == 0x00B6 && t.responses == [⟨.ok, 0⟩]) = true := by decide

/-- Vector F5: a reserved code is found before readiness. -/
theorem test_reserved_before_init :
    nextIs (exec .reserved0 State.reset) (fun t =>
      t.trace == [.release] && t.responses == [⟨.fault, 6⟩] && statusWord t == 0x0618) = true := by decide

/-- Vector F10: REFUSED comes before the reserved-code check. -/
theorem test_reserved_after_release :
    nextIs (exec .reservedB releasedState) (fun t =>
      t.trace == [.release] && t.responses == [⟨.refused, 0⟩] && statusWord t == 0x0010) = true := by decide

/-- The other reserved codes, as F4. -/
theorem test_reserved_codes :
    ([Instr.reservedA, .reservedC, .reservedD, .reservedE, .reservedF].all fun i =>
      nextIs (exec i afterInit) fun t => statusWord t == 0x061E) = true := by decide

/-- R154, R155, R158: opcode, wait, transition. -/
theorem test_commands_with_a_wait :
    nextIs (exec .swreset State.reset) (fun t =>
      t.trace == [.dc .cmd, .xfer 0x01, .wait 150] && t.initState == .softwareReset) = true ∧
    nextIs (exec .slpout State.reset) (fun t =>
      t.trace == [.dc .cmd, .xfer 0x11, .wait 255] && t.initState == .wakingUp) = true ∧
    nextIs (exec .dispon State.reset) (fun t =>
      t.trace == [.dc .cmd, .xfer 0x29, .wait 100] && t.initState == .on) = true := by decide

/-- Vector C12, and R157. -/
theorem test_commands_with_a_parameter :
    nextIs (exec .colmod State.reset) (fun t =>
      t.trace == [.dc .cmd, .xfer 0x3A, .dc .data, .xfer 0x55] && t.frKind == .idle) = true ∧
    nextIs (exec .madctl State.reset) (fun t =>
      t.trace == [.dc .cmd, .xfer 0x36, .dc .data, .xfer 0x00] && t.initState == .configuringOrientation) = true := by decide

/-- Vector S2's two commands. -/
theorem test_range_commands :
    nextIs (exec (.caset 10 20) afterInit) (fun t => t.trace == cmdTrace 0x2A [0x00, 0x0A, 0x00, 0x14]) = true ∧
    nextIs (exec (.raset 5 5) afterInit) (fun t => t.trace == cmdTrace 0x2B [0x00, 0x05, 0x00, 0x05]) = true := by decide

/-- R223 over P5's window (10, 11, 5, 5): FR_REM = 4. -/
theorem test_ramwr :
    nextIs (exec .ramwr
        { afterInit with winCs := some 10, winCe := some 11, winRs := some 5, winRe := some 5, winValid := true }) (fun t =>
      t.trace == [.dc .cmd, .xfer 0x2C] && t.frKind == .stream && t.frRem == 4) = true := by decide

/-- R307's words for SEND_CMD, of bus commands by themselves (log 28): RAMWR with no window, from reset; CASET while a data phase is open. -/
theorem test_command_out_of_turn :
    nextIs (step (State.reset.withFetchWord 8 0x2C)) (fun t => t.trace == [.release] && statusWord t == 0x0518) = true ∧
    nextIs (exec (.caset 0 0) writing) (fun t => t.err == .protocol && t.frKind == .stream && t.frRem == 8) = true := by decide

/-- Vector I10: block reset right after event 10 of INIT. -/
theorem test_block_reset_inside_init :
    nextIs (exec .init (disturbed [] (List.replicate 9 false ++ [true]) State.reset)) (fun t =>
      t.log.length == 10 && t.initState == .unpowered && t.responses == [] && !t.busy && statusWord t == 0) = true := by decide

/-- A word placed where the next step fetches is what that step runs. -/
theorem test_step_runs_placed_word :
    nextIs (step (State.reset.withFetchWord 8 0x09)) (fun t => t.trace == [.release] && statusWord t == 0x0010) = true := by decide

/-! ## Witnesses

For every obligation that has hypotheses, a concrete instance that meets all of them together; for one with several clauses, an
instance of each. An obligation with none needs none. -/

/-- The outcome is a next state. -/
def completes (o : Host.Outcome State Fault Refusal) : Prop := ∃ t, o = .next t

theorem completes_of {o : Host.Outcome State Fault Refusal} (h : nextIs o (fun _ => true) = true) : completes o := by
  cases o with
  | next t => exact ⟨t, rfl⟩
  | fault _ => cases h
  | refused _ => cases h

theorem resetLike_good (inputs : Inputs) : ({ State.reset with inputs := inputs } : State).Good :=
  ⟨⟨fun _ => rfl, fun _ => rfl⟩, fun h => (by cases h), fun _ => .inl rfl, fun _ h => absurd rfl h, fun h => (by cases h),
    ⟨fun h => (by cases h), fun h => absurd rfl h⟩, fun h => (by cases h), fun _ => ⟨rfl, rfl⟩, fun h => (by cases h), rfl, rfl,
    rfl⟩

theorem haltedState_good : haltedState.Good :=
  ⟨⟨fun _ => rfl, fun _ => rfl⟩, fun h => (by cases h), fun h => (by cases h), fun h => (by cases h), fun h => (by cases h),
    ⟨fun _ h => (by cases h), fun _ => rfl⟩, fun _ => rfl, fun _ => ⟨rfl, rfl⟩, fun h => (by cases h), rfl, rfl, rfl⟩

theorem releasedState_good : releasedState.Good :=
  ⟨⟨fun _ => rfl, fun _ => rfl⟩, fun h => (by cases h), fun _ => .inl rfl, fun _ h => absurd rfl h, fun h => (by cases h),
    ⟨fun h => (by cases h), fun h => absurd rfl h⟩, fun h => (by cases h), fun _ => ⟨rfl, rfl⟩, fun h => (by cases h), rfl, rfl,
    rfl⟩

/-- A busy good state: an ANIMATE at a frame boundary. -/
theorem repeatingLike_good (inputs : Inputs) : ({ repeating with inputs := inputs } : State).Good :=
  ⟨⟨fun _ => rfl, fun _ => rfl⟩, fun h => (by cases h), fun _ => .inr rfl, fun _ h => absurd rfl h, fun h => (by cases h),
    ⟨fun h => (by cases h), fun h => absurd rfl h⟩, fun h => (by cases h), fun h => (by cases h),
    fun _ => ⟨⟨_, _, rfl, rfl, Nat.zero_lt_one, Nat.succ_pos 26,
      (by decide : pairOffset [(f0, 50)] .repeating 0 27 = 0)⟩, rfl, rfl, rfl, rfl⟩, rfl, rfl, rfl⟩

theorem repeating_good : repeating.Good := repeatingLike_good _

theorem witness_DecodeReadsBackEveryEncoding : Config.default.wf = true := by decide

theorem witness_DecodedBytesAreTheEncoding :
    Config.default.wf = true ∧ decode Config.default .command [0x2A, 0, 0, 0, 1] = .ok (.caset 0 1) ∧
    decode Config.default .request [0x0F, 0x12] = .ok .reservedF := by decide

theorem witness_StepRunsThePresentedRequest :
    let s := presented [[0x08], [0x09]] State.reset
    s.cfg.wf = true ∧ s.rstReads = false ∧ s.cmdPort = none ∧ s.busy = false ∧ s.inputs.requests = [0x08] :: [[0x09]] ∧
      decodeRequest [0x08] = .ok .readStatus := by decide

theorem witness_StepRunsTheCommandAtTheFramer :
    let s : State := { State.reset with cmdPort := some [0x2A, 0, 0, 0, 0xEF] }
    s.cfg.wf = true ∧ s.rstReads = false ∧ s.cmdPort = some [0x2A, 0, 0, 0, 0xEF] ∧
      decodeCommand s.cfg [0x2A, 0, 0, 0, 0xEF] = .ok (.caset 0 239) := by decide

theorem witness_StepRunsThePlacedTableWord :
    Config.default.wf = true ∧ decode Config.default (tableLevel 8 0x29) (tableBytes Config.default 8 0x29) = .ok .dispon ∧
    decode Config.default (tableLevel 8 0x09) (tableBytes Config.default 8 0x09) = .ok .release := by decide

theorem witness_BusyBlockLeavesRequestsPresented :
    let s := presented [[0x08]] repeating
    s.busy = true ∧ completes (step s) := ⟨rfl, completes_of (by decide)⟩

theorem witness_StepIdlesOrRefuses :
    ({ Config.default with opRaset := 0x2A } : Config).wf = false ∧
    (State.reset.cfg.wf = true ∧ State.reset.rstReads = false ∧ State.reset.cmdPort = none ∧ State.reset.busy = false ∧
      State.reset.inputs.requests = []) ∧
    ((presented [[0x11]] State.reset).inputs.requests = [[0x11]] ∧ decodeRequest [0x11] = .error (.badHeader 0x11)) ∧
    ({ State.reset with cmdPort := some [0x28] } : State).cmdPort = some [0x28] ∧
    decodeCommand Config.default [0x28] = .error (.unknownOpcode 0x28) := by
  decide

/-- A plan a run of R9's steps has come to, with what it must be. -/
def planIs (o : Host.Outcome Plan Fault Refusal) (p : Plan → Bool) : Bool :=
  match o with
  | .next q => p q
  | .fault _ => false
  | .refused _ => false

/-- R9's steps of INIT: one to accept it, then one for each of its 21 events, the last with the response. -/
theorem test_init_is_22_event_steps :
    let start := Plan.closed (.go (presented [[0x01]] State.reset))
    planIs (eventRun 21 start) (fun p => p.atRest == none && (p.state.map fun s => s.log.length) == some 20) = true ∧
    planIs (eventRun 22 start) (fun p => (p.atRest.map fun s => statusWord s) == some 0x0006) = true := by decide

/-- R9's steps of a fault and of an ANIMATE stopped at its first boundary: the acceptance, then the RELEASE or the stop sample. -/
theorem test_event_steps_fault_and_stop :
    planIs (eventRun 2 (.closed (.go (presented [[0x00]] State.reset)))) (fun p =>
      (p.atRest.map fun s => (s.log, s.responses)) == some ([.release], [⟨.fault, 6⟩])) = true ∧
    planIs (eventRun 2 (.closed (.go (stopping [true] (presented [encode Config.default (.animate [(f0, 5)] .once)] afterInit)))))
      (fun p => (p.atRest.map fun s => (s.log, s.responses)) == some ([], [⟨.stopped, 0⟩])) = true := by decide

theorem witness_MachineStepIsItsEventSteps :
    completes (step (presented [[0x01]] State.reset)) ∧ completes (step repeating) ∧
    step { State.reset with busy := true } = .fault .stepPointer ∧
    step (presented [[0x11]] State.reset) = .refused (.undecodable (.badHeader 0x11)) :=
  ⟨completes_of (by decide), completes_of (by decide), rfl, rfl⟩

/-- An acceptance, an event, and the stop sample of a later boundary. -/
theorem witness_EventStepDoesOneThing :
    planIs (eventRun 0 (.closed (.go (presented [[0x09]] State.reset)))) (fun p =>
      p.state.isSome && planIs (eventStep p) fun q => q.state.isSome) = true ∧
    planIs (eventRun 1 (.closed (.go (presented [[0x09]] State.reset)))) (fun p =>
      p.state.isSome && planIs (eventStep p) fun q => q.state.isSome) = true ∧
    planIs (eventStep (.closed (.go repeating))) (fun q => q.state.isSome) = true := by decide

/-- The first event of INIT; the first of a later pair of an ANIMATE, after its stop sample. -/
theorem witness_PointerNamesTheNextEvent :
    (∃ u todo v rest, (accept .init State.reset).curReq = some .init ∧ planOf (accept .init State.reset) = .todo u todo ∧
      (Plan.todo u todo).next = .todo v rest) ∧
    (∃ w stop u todo v rest, (between f1).curReq = some (.animate [(f0, 100), (f1, 100)] .once) ∧
      seqEvents ([(f0, 100), (f1, 100)].take (between f1).animIdx) ≤ (between f1).evPtr ∧
      planOf (between f1) = .sample w stop (.todo u todo) ∧ (Plan.todo u todo).next = .todo v rest) :=
  ⟨⟨_, _, _, _, rfl, rfl, rfl⟩, _, _, _, _, _, _, rfl, by decide, rfl, rfl⟩

theorem witness_BlockResetSetsEveryRegister :
    (disturbed [] [true] repeating).cfg.wf = true ∧ (disturbed [] [true] repeating).rstReads = true := by decide

theorem witness_BlockResetCutsARequestAtAnyEvent : (disturbed [true] [true] writing).rstReads = true := by decide

theorem witness_StepKeepsGoodStates :
    (presented [[0x01]] State.reset).Good ∧ completes (step (presented [[0x01]] State.reset)) ∧
    (repeating.Good ∧ completes (step repeating)) ∧ haltedState.Good ∧ releasedState.Good :=
  ⟨resetLike_good _, completes_of (by decide), ⟨repeating_good, completes_of (by decide)⟩, haltedState_good, releasedState_good⟩

theorem witness_StepKeepsTheConfigurationAndTheCells :
    let s := presented [[0x03, 0x00]] (halfSent 0 0)
    s.panel.gram.wf = true ∧ completes (step s) := ⟨rfl, completes_of (by decide)⟩

theorem witness_StepKeepsFramerAgreement :
    let s := presented [[0x03, 0x00]] writing
    s.framerAgrees ∧ completes (step s) := ⟨⟨fun h => (by cases h), fun h => (by cases h)⟩, completes_of (by decide)⟩

theorem witness_HaltedOrReleasedBlockStaysSo :
    (haltedState.Good ∧ haltedState.rstReads = false ∧ haltedState.halted = true ∧ completes (step haltedState)) ∧
    (releasedState.Good ∧ releasedState.rstReads = false ∧ releasedState.released = true ∧ completes (step releasedState)) :=
  ⟨⟨haltedState_good, rfl, rfl, completes_of (by decide)⟩, releasedState_good, rfl, rfl, completes_of (by decide)⟩

theorem witness_OnlyInitMovesInitState :
    (Instr.release.level = .request ∧ Instr.release ≠ .init ∧ completes (exec .release afterInit)) ∧
    ((presented [[0x01]] State.reset).Good ∧ completes (step (presented [[0x01]] State.reset))) ∧
    repeating.Good ∧ completes (step repeating) :=
  ⟨⟨rfl, by decide, completes_of (by decide)⟩, ⟨resetLike_good _, completes_of (by decide)⟩, repeating_good,
    completes_of (by decide)⟩

theorem witness_RequestsKeepLineDiscipline :
    (Instr.drawFrame f0).level = .request ∧ disciplined afterInit.cfg afterInit.log = true ∧
    completes (exec (.drawFrame f0) afterInit) := ⟨rfl, rfl, completes_of (by decide)⟩

theorem witness_FatalPathRecordsReleasesAndHalts :
    (writing.released = false ∧ writing.rstReads = false) ∧ releasedState.released = true ∧
    (disturbed [] [true] writing).released = false ∧ (disturbed [] [true] writing).rstReads = true := by decide

theorem witness_FailedEventTakesBusError :
    ((Event.xfer 0x2C).canFail = true ∧ (disturbed [true] [] writing).inputs.fail.headD false = true ∧
      (disturbed [true] [] writing).released = false ∧ (disturbed [true] [] writing).err = .ok ∧
      quiet 2 (disturbed [true] [] writing).inputs.rst = true) ∧
    quiet 1 (disturbed [true] [] writing).inputs.rst = true := by decide

theorem witness_DisturbedTraceIsACutTrace :
    (completes (exec .init (disturbed [false, true] [] State.reset)) ∧ completes (exec .init (disturbed [] [] State.reset))) ∧
    ((disturbed [false, true] [] repeating).Good ∧ completes (step (disturbed [false, true] [] repeating)) ∧
      completes (step (disturbed [] [] repeating))) :=
  ⟨⟨completes_of (by decide), completes_of (by decide)⟩, repeatingLike_good _, completes_of (by decide), completes_of (by decide)⟩

theorem witness_RefusedWhenHaltedOrReleased :
    Instr.init.level = .request ∧ Instr.init ≠ .readStatus ∧ haltedState.halted = true ∧ releasedState.released = true :=
  ⟨rfl, by decide, rfl, rfl⟩

theorem witness_ReservedCodesTakeIllegalRequest :
    Instr.reserved0.reserved = true ∧ afterInit.takes ∧ quiet 1 afterInit.inputs.rst = true := ⟨rfl, ⟨rfl, rfl⟩, rfl⟩

theorem witness_BusRequestBeforeOnTakesNotReady :
    (Instr.animate [] .once).needsOn = true ∧ State.reset.takes ∧ State.reset.initState ≠ .on ∧
    quiet 1 State.reset.inputs.rst = true := ⟨rfl, ⟨rfl, rfl⟩, by decide, rfl⟩

/-- A reset block whose transport is not ready. -/
def unready : State := { State.reset with inputs := { State.reset.inputs with transportOk := [false] } }

theorem witness_InitOrderAndTransportFaults :
    (afterInit.takes ∧ quiet 1 afterInit.inputs.rst = true ∧ afterInit.initState ≠ .unpowered) ∧
    (unready.takes ∧ quiet 1 unready.inputs.rst = true ∧ unready.initState = .unpowered ∧ unready.transportReads = false) :=
  ⟨⟨⟨rfl, rfl⟩, rfl, by decide⟩, ⟨rfl, rfl⟩, rfl, rfl, rfl⟩

theorem witness_RawRequestFaults :
    (afterInit.takes ∧ afterInit.initState = .on ∧ quiet 1 afterInit.inputs.rst = true ∧ 0x01 ≠ afterInit.cfg.opRamwr) ∧
    (writing.takes ∧ writing.frKind ≠ .idle) ∧ (afterInit.winValid = false ∧ afterInit.frKind = .idle) :=
  ⟨⟨⟨rfl, rfl⟩, rfl, rfl, by decide⟩, ⟨⟨rfl, rfl⟩, by decide⟩, rfl, rfl⟩

/-- The window check's four clauses at their boundary. -/
theorem witness_SetWindowFaults :
    (writing.takes ∧ writing.initState = .on ∧ quiet 1 writing.inputs.rst = true ∧ writing.frKind ≠ .idle) ∧
    (afterInit.takes ∧ afterInit.initState = .on ∧ afterInit.frKind = .idle) ∧
    (4 : Word).toNat < (5 : Word).toNat ∧ afterInit.cfg.panelW ≤ (240 : Word).toNat ∧
    (2 : Word).toNat < (3 : Word).toNat ∧ afterInit.cfg.panelH ≤ (320 : Word).toNat :=
  ⟨⟨⟨rfl, rfl⟩, rfl, rfl, by decide⟩, ⟨⟨rfl, rfl⟩, rfl, rfl⟩, by decide, by decide, by decide, by decide⟩

/-- Vectors D6a, D6b, D6c, D6d, D6e, D6f, D6g, D6h, D6i, D6j and D6m: each clause of the frame check at its boundary. -/
theorem witness_DrawCheckReportsTheFirstFailure :
    drawCheck Config.default ⟨2, 2, .direct [black, black, black, black], false⟩ = some .frameSource ∧
    drawCheck Config.default (direct 0 2 []) = some .windowRange ∧
    drawCheck Config.default (direct 2 0 []) = some .windowRange ∧
    drawCheck Config.default (direct 241 1 []) = some .windowRange ∧
    drawCheck Config.default (direct 1 321 []) = some .windowRange ∧
    drawCheck Config.default (direct 2 2 [black, black, black]) = some .frameSource ∧
    drawCheck Config.default (direct 2 2 [black, black, black, black, black]) = some .frameSource ∧
    drawCheck Config.default (indexed 1 1 [0] (List.replicate 257 black)) = some .paletteRange ∧
    drawCheck Config.default (indexed 2 1 [0, 2] [black, white]) = some .paletteRange ∧
    drawCheck Config.default (indexed 1 1 [0] []) = some .paletteRange ∧
    drawCheck Config.default (indexed 1 1 [255] (List.replicate 256 white)) = none :=
  ⟨by decide, by decide, by decide, by decide, by decide, by decide, by decide,
    by simp [-List.reduceReplicate, drawCheck, indexed, sizeOk, paletteOk, rasterLength, Config.default], by decide, by decide,
    by simp [-List.reduceReplicate, drawCheck, indexed, sizeOk, paletteOk, rasterLength, Config.default]⟩

theorem witness_DrawFrameFaults :
    (writing.takes ∧ writing.initState = .on ∧ quiet 1 writing.inputs.rst = true ∧ writing.frKind ≠ .idle) ∧
    (afterInit.takes ∧ afterInit.initState = .on ∧ afterInit.frKind = .idle ∧
      drawCheck afterInit.cfg badFrame = some .frameSource) :=
  ⟨⟨⟨rfl, rfl⟩, rfl, rfl, by decide⟩, ⟨rfl, rfl⟩, rfl, rfl, by decide⟩

theorem witness_AnimateFaults :
    (writing.takes ∧ writing.initState = .on ∧ quiet 1 writing.inputs.rst = true ∧ writing.frKind ≠ .idle) ∧
    (afterInit.takes ∧ afterInit.initState = .on ∧ quiet 1 afterInit.inputs.rst = true ∧ afterInit.frKind = .idle) ∧
    (afterInit.stopReads = false ∧ drawCheck afterInit.cfg badFrame = some .frameSource) :=
  ⟨⟨⟨rfl, rfl⟩, rfl, rfl, by decide⟩, ⟨⟨rfl, rfl⟩, rfl, rfl, rfl⟩, rfl, by decide⟩

/-- The first and the last row of the table: vectors I4 and I8. -/
theorem witness_FailedInitNamesTheLastTransition :
    (disturbed [true] [] State.reset).cfg.wf = true ∧ (disturbed [true] [] State.reset).takes ∧
    (disturbed [true] [] State.reset).inputs.fail = List.replicate 0 false ++ true :: [] ∧
    nextIs (exec .init (disturbed [true] [] State.reset)) (fun t => t.log.length == 2 && statusWord t == 0x0918) = true ∧
    nextIs (exec .init (disturbed (List.replicate 15 false ++ [true]) [] State.reset)) (fun t =>
      t.log.length == 21 && statusWord t == 0x091D) = true :=
  ⟨by decide, ⟨rfl, rfl⟩, rfl, by decide, by decide⟩

theorem witness_InitCompletes :
    State.reset.cfg.wf = true ∧ State.reset.takes ∧ State.reset.initState = .unpowered ∧ State.reset.frKind = .idle ∧
    State.reset.transportReads = true ∧ State.reset.calm 16 21 := ⟨by decide, ⟨rfl, rfl⟩, rfl, rfl, rfl, rfl, rfl⟩

theorem witness_InitEmitsTheTwentyOneEvents :
    State.reset.cfg = Config.default ∧ State.reset.takes ∧ State.reset.initState = .unpowered ∧ State.reset.frKind = .idle ∧
    nextIs (exec .init State.reset) (fun t => t.responses == ⟨.ok, 0⟩ :: State.reset.responses) = true :=
  ⟨rfl, ⟨rfl, rfl⟩, rfl, rfl, by decide⟩

theorem witness_FrameSendsACommandWhole :
    State.reset.frKind = .idle ∧ 0x2A ≠ State.reset.cfg.opRamwr ∧
    payloadLen State.reset.cfg 0x2A = some [(0 : Byte), 0, 0, 1].length ∧ State.reset.calm 10 10 :=
  ⟨rfl, by decide, by decide, rfl, rfl⟩

theorem witness_SendCmdOpensTheDataPhase :
    windowed.ready ∧ windowed.winValid = true ∧ windowed.winCs = some 0 ∧ windowed.winCe = some 1 ∧ windowed.winRs = some 0 ∧
    windowed.winRe = some 1 ∧ (0 : Word).toNat ≤ (1 : Word).toNat ∧ windowed.calm 2 2 ∧
    (windowed.cfg.wf = true ∧ windowed.panel.half = none ∧ windowed.cfg.orient = 0) ∧
    (halfStanding windowed).ready ∧ (halfStanding windowed).winValid = true ∧ (halfStanding windowed).winCs = some 0 ∧
    (halfStanding windowed).winCe = some 1 ∧ (halfStanding windowed).winRs = some 0 ∧ (halfStanding windowed).winRe = some 1 ∧
    (halfStanding windowed).calm 2 2 ∧ (halfStanding windowed).panel.half ≠ none :=
  ⟨⟨⟨rfl, rfl⟩, rfl, rfl⟩, rfl, rfl, rfl, rfl, rfl, by decide, ⟨rfl, rfl⟩, by decide, ⟨⟨rfl, rfl⟩, rfl, rfl⟩, rfl, rfl, rfl, rfl, rfl,
    ⟨rfl, rfl⟩, by decide⟩

theorem witness_SendDataCountsTheByteOff :
    writing.takes ∧ writing.initState = .on ∧ writing.frKind ≠ .idle ∧ 0 < writing.frRem ∧ writing.calm 2 2 :=
  ⟨⟨rfl, rfl⟩, rfl, by decide, by decide, rfl, rfl⟩

/-- Outside a memory write; the first byte of a pair; the second, inside the window and one row past it. -/
theorem witness_SendDataStoresEachPair :
    (let s : State := { writing with panel := Panel.unknown }
     s.takes ∧ s.initState = .on ∧ s.frKind ≠ .idle ∧ 0 < s.frRem ∧ s.calm 2 2 ∧ s.panel.cursor = none ∧
       completes (exec (.sendData 0xF8) s)) ∧
    (writing.panel.cursor = some (0, 0) ∧ writing.panel.half = none ∧ completes (exec (.sendData 0xF8) writing)) ∧
    ((halfSent 1 1).panel.cursor = some (1, 1) ∧ (halfSent 1 1).panel.half = some 0xF8 ∧ (halfSent 1 1).winRe = some 1 ∧
      nextIs (exec (.sendData 0x00) (halfSent 1 1)) (fun t => t.panel.cursor == some (0, 2)) = true) ∧
    nextIs (exec (.sendData 0x00) (halfSent 0 2)) (fun t => t.panel == Panel.unknown) = true :=
  ⟨⟨⟨rfl, rfl⟩, rfl, by decide, by decide, ⟨rfl, rfl⟩, rfl, completes_of (by decide)⟩,
    ⟨rfl, rfl, completes_of (by decide)⟩, ⟨rfl, rfl, rfl, by decide⟩, by decide⟩

/-- The last pixel of the panel, vector S4. -/
theorem witness_SetWindowCompletes :
    afterInit.cfg.wf = true ∧ afterInit.ready ∧ (239 : Word).toNat ≤ (239 : Word).toNat ∧
    (239 : Word).toNat < afterInit.cfg.panelW ∧ (319 : Word).toNat ≤ (319 : Word).toNat ∧
    (319 : Word).toNat < afterInit.cfg.panelH ∧ afterInit.calm 20 20 :=
  ⟨by decide, ⟨⟨rfl, rfl⟩, rfl, rfl⟩, by decide, by decide, by decide, by decide, rfl, rfl⟩

theorem witness_WindowIsValidOnlyWhenSent :
    afterInit.cfg.wf = true ∧ afterInit.ready ∧ windowOk afterInit.cfg 0 239 0 319 = true ∧
    nextIs (exec (.setWindow 0 239 0 319) afterInit) (fun t => t.winValid) = true ∧ drawCheck afterInit.cfg f0 = none ∧
    nextIs (exec (.drawFrame f0) (disturbed (List.replicate 20 false ++ [true]) [] afterInit)) (fun t =>
      t.winValid && t.halted) = true ∧
    repeating.Good ∧ nextIs (step repeating) (fun t => t.winValid) = true ∧
    nextIs (step (disturbed (List.replicate 20 false ++ [true]) [] repeating)) (fun t => t.winValid && t.halted) = true :=
  ⟨by decide, ⟨⟨rfl, rfl⟩, rfl, rfl⟩, by decide, by decide, by decide, by decide, repeating_good, by decide, by decide⟩

theorem witness_EncodeAnswersThePixel : State.reset.takes := ⟨rfl, rfl⟩

theorem f0_showsRaster : showsRaster f0 [red] := by
  refine ⟨rfl, fun x y hx hy => ?_⟩
  have h1 : x = 0 := by simp only [f0, direct] at hx; omega
  have h2 : y = 0 := by simp only [f0, direct] at hy; omega
  subst h1; subst h2; rfl

/-- After INIT in a build with another ORIENT. -/
def turned : State := { afterInit with cfg := { Config.default with orient := 0x60 } }

/-- `f0` drawn after INIT; with a half pair standing; under another ORIENT, with a half pair standing too. -/
theorem witness_DrawFrameDrawsTheFrame :
    ∀ s ∈ [afterInit, halfStanding afterInit, turned, halfStanding turned],
      s.cfg.wf = true ∧ s.ready ∧ drawCheck s.cfg f0 = none ∧ showsRaster f0 [red] ∧
        s.calm (22 + 4 * f0.w * f0.h) (22 + 4 * f0.w * f0.h) := by
  have h : ∀ s : State, (s.cfg.wf && s.initState == .on && !s.halted && !s.released && s.frKind == .idle &&
      drawCheck s.cfg f0 == none && s.inputs.fail == [] && s.inputs.rst == []) = true →
      s.cfg.wf = true ∧ s.ready ∧ drawCheck s.cfg f0 = none ∧ showsRaster f0 [red] ∧
        s.calm (22 + 4 * f0.w * f0.h) (22 + 4 * f0.w * f0.h) := by
    intro s h
    simp only [Bool.and_eq_true, beq_iff_eq, Bool.not_eq_true'] at h
    obtain ⟨⟨⟨⟨⟨⟨⟨h1, h2⟩, h3⟩, h4⟩, h5⟩, h6⟩, h7⟩, h8⟩ := h
    exact ⟨h1, ⟨⟨h3, h4⟩, h2, h5⟩, h6, f0_showsRaster, by rw [h7]; rfl, by rw [h8]; rfl⟩
  intro s hs
  simp only [List.mem_cons, List.not_mem_nil, or_false] at hs
  obtain rfl | rfl | rfl | rfl := hs <;> exact h _ (by decide)

theorem witness_DrawFrameSendsTwoBytesAPixel :
    nextIs (exec (.drawFrame f0) afterInit) (fun t => t.responses == ⟨.ok, 0⟩ :: afterInit.responses) = true := by decide

/-- Vector D4's frames. -/
theorem witness_SameSamplesRunTheSame :
    let f := indexed 1 1 [1] [black, red]
    drawCheck afterInit.cfg f = none ∧ drawCheck afterInit.cfg f0 = none ∧ f.w = f0.w ∧ f.h = f0.h ∧
      ∀ x y, x < f.w → y < f.h → resolve f x y = resolve f0 x y := by
  refine ⟨by decide, by decide, rfl, rfl, fun x y hx hy => ?_⟩
  have h1 : x = 0 := by simp only [indexed] at hx; omega
  have h2 : y = 0 := by simp only [indexed] at hy; omega
  subst h1; subst h2; rfl

theorem witness_AnimateDrawsItsFirstPair :
    afterInit.cfg.wf = true ∧ afterInit.ready ∧ afterInit.stopReads = false ∧ drawCheck afterInit.cfg f0 = none ∧
    showsRaster f0 [red] ∧ afterInit.calm (22 + 4 * f0.w * f0.h) (23 + 4 * f0.w * f0.h) :=
  ⟨by decide, ⟨⟨rfl, rfl⟩, rfl, rfl⟩, rfl, by decide, f0_showsRaster, rfl, rfl⟩

/-- An ANIMATE of three frames at the boundary after its first pair. -/
def early : State :=
  { afterInit with
    busy := true
    curReq := some (.animate [(f0, 1), (f0, 2), (f1, 3)] .repeating)
    evPtr := 27
    animIdx := 1
    animActive := true }

/-- The last pair of a ONCE, a REPEAT, and a pair that is not the last. -/
theorem witness_AnimateDrawsItsNextPair :
    ((between f0).cfg.wf = true ∧ (between f0).cmdPort = none ∧ (between f0).busy = true ∧
      (between f0).curReq = some (.animate [(f0, 100), (f0, 100)] .once) ∧ (between f0).animActive = true ∧
      0 < (between f0).evPtr ∧ pairOffset [(f0, 100), (f0, 100)] .once (between f0).animIdx (between f0).evPtr = 0 ∧
      [(f0, 100), (f0, 100)][(between f0).animIdx]? = some (f0, 100) ∧ (between f0).frKind = .idle ∧
      (between f0).stopReads = false ∧ drawCheck (between f0).cfg f0 = none ∧ showsRaster f0 [red] ∧
      (between f0).calm (22 + 4 * f0.w * f0.h) (24 + 4 * f0.w * f0.h)) ∧
    (repeating.curReq = some (.animate [(f0, 50)] .repeating) ∧
      pairOffset [(f0, 50)] .repeating repeating.animIdx repeating.evPtr = 0) ∧
    (early.cfg.wf = true ∧ early.cmdPort = none ∧ early.busy = true ∧ early.animActive = true ∧ 0 < early.evPtr ∧
      early.curReq = some (.animate [(f0, 1), (f0, 2), (f1, 3)] .repeating) ∧
      pairOffset [(f0, 1), (f0, 2), (f1, 3)] .repeating early.animIdx early.evPtr = 0 ∧
      [(f0, 1), (f0, 2), (f1, 3)][early.animIdx]? = some (f0, 2) ∧ early.frKind = .idle ∧ early.stopReads = false ∧
      drawCheck early.cfg f0 = none ∧ early.calm (22 + 4 * f0.w * f0.h) (24 + 4 * f0.w * f0.h) ∧ early.animIdx + 1 < 3) :=
  ⟨⟨by decide, rfl, rfl, rfl, rfl, by decide, by decide, rfl, rfl, rfl, by decide, f0_showsRaster, rfl, rfl⟩, ⟨rfl, by decide⟩,
    by decide, rfl, rfl, rfl, by decide, rfl, by decide, rfl, rfl, rfl, by decide, ⟨rfl, rfl⟩, by decide⟩

/-- Stop at boundary 0 (N2), at a later one (N3), and a frame that fails its check at its boundary (N8). -/
theorem witness_AnimateEndsAtABoundary :
    (let s := stopping [true] afterInit
     s.ready ∧ [(f0, 100)] ≠ [] ∧ s.stopReads = true) ∧
    (let s := stopping [true] repeating
     s.cfg.wf = true ∧ s.cmdPort = none ∧ s.busy = true ∧ s.curReq = some (.animate [(f0, 50)] .repeating) ∧
       s.animActive = true ∧ 0 < s.evPtr ∧ pairOffset [(f0, 50)] .repeating s.animIdx s.evPtr = 0 ∧ s.rstReads = false ∧
       s.stopReads = true) ∧
    (quiet 2 (between badFrame).inputs.rst = true ∧ (between badFrame).stopReads = false ∧ (between badFrame).takes ∧
      [(f0, 100), (badFrame, 100)][(between badFrame).animIdx]? = some (badFrame, 100) ∧
      drawCheck (between badFrame).cfg badFrame = some .frameSource) :=
  ⟨⟨⟨⟨rfl, rfl⟩, rfl, rfl⟩, by simp, rfl⟩, ⟨by decide, rfl, rfl, rfl, rfl, by decide, by decide, rfl, rfl⟩,
    rfl, rfl, ⟨rfl, rfl⟩, rfl, by decide⟩

/-- The bytes of `ANIMATE ONCE, [(f0, 100), (f1, 100)]`. -/
def onceBytes : List Byte :=
  [0x07, 0x00, 0x02, 0x01, 0x01, 0x01, 0x00, 0x01, 255, 0, 0, 100, 0x01, 0x01, 0x01, 0x00, 0x01, 0, 0, 255, 100]

theorem witness_AnimateOnceRunsToItsEnd :
    let s := presented [onceBytes, [0x09]] afterInit
    let seq := [(f0, 100), (f1, 100)]
    s.cfg.wf = true ∧ s.busy = false ∧ s.cmdPort = none ∧ s.ready ∧ seq ≠ [] ∧ s.inputs.requests = onceBytes :: [[0x09]] ∧
      decodeRequest onceBytes = .ok (.animate seq .once) ∧ (∀ p ∈ seq, drawCheck s.cfg p.1 = none) ∧
      quiet seq.length s.inputs.stop = true ∧ s.calm (seqEvents seq) (seqEvents seq + seq.length) :=
  ⟨by decide, rfl, rfl, ⟨⟨rfl, rfl⟩, rfl, rfl⟩, by simp, rfl, by decide, by decide, rfl, rfl, rfl⟩

/-- The bytes of `ANIMATE REPEAT, [(f0, 50)]`. -/
def repeatBytes : List Byte := [0x07, 0x01, 0x01, 0x01, 0x01, 0x01, 0x00, 0x01, 255, 0, 0, 50]

theorem witness_UnstoppedRepeatNeverAnswers :
    let s := presented [repeatBytes, [0x09]] afterInit
    let seq := [(f0, 50)]
    s.cfg.wf = true ∧ s.busy = false ∧ s.cmdPort = none ∧ s.ready ∧ seq ≠ [] ∧ s.inputs.requests = repeatBytes :: [[0x09]] ∧
      decodeRequest repeatBytes = .ok (.animate seq .repeating) ∧ (∀ p ∈ seq, drawCheck s.cfg p.1 = none) ∧
      ∀ n, quiet n s.inputs.stop = true ∧ s.calm n n :=
  ⟨by decide, rfl, rfl, ⟨⟨rfl, rfl⟩, rfl, rfl⟩, by simp, rfl, by decide, by decide, fun n => by
    have h : quiet n [] = true := by simp [quiet]
    exact ⟨h, h, h⟩⟩

theorem witness_ReleaseCompletes : writing.takes ∧ quiet 1 writing.inputs.rst = true := ⟨⟨rfl, rfl⟩, rfl⟩

theorem witness_CommandsWithAWaitComplete :
    State.reset.cfg.wf = true ∧ State.reset.frKind = .idle ∧ State.reset.calm 2 3 := ⟨by decide, rfl, rfl, rfl⟩

theorem witness_CommandsWithAPayloadByteComplete :
    State.reset.cfg.wf = true ∧ State.reset.frKind = .idle ∧ State.reset.calm 4 4 := ⟨by decide, rfl, rfl, rfl⟩

theorem witness_RangeCommandsComplete :
    afterInit.cfg.wf = true ∧ afterInit.frKind = .idle ∧ afterInit.calm 10 10 := ⟨by decide, rfl, rfl, rfl⟩

theorem witness_MemoryWriteCommandCompletes :
    windowed.cfg.wf = true ∧ windowed.frKind = .idle ∧ windowed.winValid = true ∧ windowed.winCs = some 0 ∧
    windowed.winCe = some 1 ∧ windowed.winRs = some 0 ∧ windowed.winRe = some 1 ∧ (0 : Word).toNat ≤ (1 : Word).toNat ∧
    windowed.calm 2 2 :=
  ⟨by decide, rfl, rfl, rfl, rfl, rfl, rfl, by decide, rfl, rfl⟩

/-- Any instruction with a data phase open; a command while one is open; RAMWR with WIN_VALID = 0; over registers that hold none; over a
reversed window. -/
theorem witness_EveryInstructionAnswersANextState :
    (writing.cfg.wf = true ∧ writing.framerAgrees ∧ (writing.initState = .unpowered → writing.frKind = .idle)) ∧
    ((Instr.caset 0 0).level = .command ∧ writing.released = false ∧ quiet 1 writing.inputs.rst = true ∧
      writing.frKind ≠ .idle) ∧
    (Instr.ramwr.level = .command ∧ afterInit.released = false ∧ quiet 1 afterInit.inputs.rst = true ∧
      afterInit.winValid = false) ∧
    (let s : State := { windowed with winRe := none }
     s.released = false ∧ quiet 1 s.inputs.rst = true ∧ s.winValid = true ∧ s.winRe = none) ∧
    (let s : State := { windowed with winCs := some 2 }
     s.released = false ∧ quiet 1 s.inputs.rst = true ∧ s.winValid = true ∧ s.winCs = some 2 ∧ s.winCe = some 1 ∧
       (1 : Word).toNat < (2 : Word).toNat) :=
  ⟨⟨by decide, by simp [State.framerAgrees, writing, windowed], by decide⟩, ⟨rfl, rfl, rfl, by decide⟩, ⟨rfl, rfl, rfl, rfl⟩,
    ⟨rfl, rfl, rfl, rfl⟩, rfl, rfl, rfl, rfl, rfl, by decide⟩

end Sys2Proof.Tests
end

section
/-! ## What a step fetches -/

namespace Sys2Proof.Machine

theorem fetch_illFormed {s : State} (hw : s.cfg.wf = false) : fetch s = .refuse .illFormedConfig := by
  simp [fetch, hw]

theorem fetch_reset {s : State} (hw : s.cfg.wf = true) (hr : s.rstReads = true) :
    fetch s = .settled (blockReset s.popRst) := by
  simp [fetch, hw, hr]

theorem fetch_quiet {s : State} (hw : s.cfg.wf = true) (hr : s.rstReads = false) : fetch s = fetchRun s.popRst := by
  simp [fetch, hw, hr]

theorem fetchRun_port {s : State} {bytes : List Byte} (hc : s.cmdPort = some bytes) :
    fetchRun s = fetchCommand bytes s := by
  simp [fetchRun, hc]

theorem fetchRun_busy {s : State} (hc : s.cmdPort = none) (hb : s.busy = true) : fetchRun s = .running s := by
  simp [fetchRun, hc, hb]

theorem fetchRun_idle {s : State} (hc : s.cmdPort = none) (hb : s.busy = false) : fetchRun s = fetchRequest s := by
  simp [fetchRun, hc, hb]

/-! ## O8: a step that runs nothing -/

theorem step_illFormed {s : State} (hw : s.cfg.wf = false) : step s = .refused .illFormedConfig := by
  simp [step, fetch_illFormed hw]

theorem step_idle {s : State} (hw : s.cfg.wf = true) (hr : s.rstReads = false) (hc : s.cmdPort = none)
    (hb : s.busy = false) (hq : s.inputs.requests = []) : step s = .next s.popRst := by
  simp [step, fetch_quiet hw hr, fetchRun_idle (s := s.popRst) hc hb, fetchRequest, hq]

theorem step_undecodable_request {s : State} {bytes : List Byte} {rest : List (List Byte)} {e : DecodeError}
    (hw : s.cfg.wf = true) (hr : s.rstReads = false) (hc : s.cmdPort = none) (hb : s.busy = false)
    (hq : s.inputs.requests = bytes :: rest) (hd : decodeRequest bytes = .error e) :
    step s = .refused (.undecodable e) := by
  simp [step, fetch_quiet hw hr, fetchRun_idle (s := s.popRst) hc hb, fetchRequest, hq, hd]

theorem step_undecodable_command {s : State} {bytes : List Byte} {e : DecodeError} (hw : s.cfg.wf = true)
    (hr : s.rstReads = false) (hc : s.cmdPort = some bytes) (hd : decodeCommand s.cfg bytes = .error e) :
    step s = .refused (.undecodable e) := by
  simp [step, fetch_quiet hw hr, fetchRun_port (s := s.popRst) hc, fetchCommand, hd]

/-- Settles O8, one lemma about the step for each clause. -/
theorem stepIdlesOrRefuses : Obligations.StepIdlesOrRefuses := fun _ =>
  ⟨step_illFormed, step_idle, fun _ _ _ => step_undecodable_request, fun _ _ => step_undecodable_command⟩

end Sys2Proof.Machine
end

section
/-! ## O9: a step of the machine is a run of the steps of spec/00_scope.md R9

Two facts carry it: a step of R9 does not change what a plan comes to (`Plan.next_run`), and every plan closes after finitely
many of them (`Plan.ends`). -/

namespace Sys2Proof.Machine

/-- What a run of R9's steps has come to, if that is an end of a step of the machine: a block at rest, or a stop of the model. -/
def ending : Host.Outcome Plan Fault Refusal → Option (Host.Outcome State Fault Refusal)
  | .next p => p.atRest.map .next
  | .fault f => some (.fault f)
  | .refused r => some (.refused r)

theorem ending_eq_next {o : Host.Outcome Plan Fault Refusal} {t : State} (h : ending o = some (.next t)) :
    ∃ p, o = .next p ∧ p.atRest = some t := by
  cases o with
  | next p => exact ⟨p, rfl, by simpa [ending] using h⟩
  | fault f => simp [ending] at h
  | refused r => simp [ending] at h

theorem ending_eq_fault {o : Host.Outcome Plan Fault Refusal} {f : Fault} (h : ending o = some (.fault f)) :
    o = .fault f := by
  cases o <;> simp_all [ending]

theorem ending_eq_refused {o : Host.Outcome Plan Fault Refusal} {r : Refusal} (h : ending o = some (.refused r)) :
    o = .refused r := by
  cases o <;> simp_all [ending]

/-- After `n` steps of R9, and no sooner, the plan has come to `o`. -/
def Plan.EndsIn (n : Nat) (o : Host.Outcome State Fault Refusal) (p : Plan) : Prop :=
  (∀ m < n, ending (eventRun m p) = none) ∧ ending (eventRun n p) = some o

theorem eventRun_succ {p q : Plan} (h : eventStep p = .next q) (n : Nat) : eventRun (n + 1) p = eventRun n q := by
  rw [eventRun, h]

theorem Plan.EndsIn.of_step {n : Nat} {o : Host.Outcome State Fault Refusal} {p q : Plan} (hp : p.atRest = none)
    (h : eventStep p = .next q) (hq : q.EndsIn n o) : p.EndsIn (n + 1) o := by
  obtain ⟨before, after⟩ := hq
  refine ⟨fun m hm => ?_, by rw [eventRun_succ h, after]⟩
  cases m with
  | zero => simp [eventRun, ending, hp]
  | succ m => rw [eventRun_succ h]; exact before m (by omega)

/-- The steps of R9 take the plan to what running it on gives. -/
def Plan.Ends (p : Plan) : Prop := ∃ n, p.EndsIn n p.run.toOutcome

theorem Plan.ends_closed (f : Flow) : (Plan.closed f).Ends := by
  cases f with
  | go s => exact ⟨0, by simp, rfl⟩
  | ended s => exact ⟨0, by simp, rfl⟩
  | stuck f =>
    refine ⟨1, fun m hm => ?_, rfl⟩
    obtain rfl : m = 0 := by omega
    rfl

theorem atRest_eq_none {p : Plan} (h : ∀ f, p ≠ .closed f) : p.atRest = none := by
  cases p with
  | closed f => exact absurd rfl (h f)
  | _ => rfl

theorem Plan.ends_of_next {p : Plan} (hp : ∀ f, p ≠ .closed f) (h : p.next.Ends) : p.Ends := by
  obtain ⟨n, hn⟩ := h
  rw [Plan.next_run] at hn
  exact ⟨n + 1, .of_step (atRest_eq_none hp) (eventStep_eq_next hp) hn⟩

theorem Plan.ends_reset (s : State) : (Plan.reset s).Ends := Plan.ends_of_next (by simp) (Plan.ends_closed _)

theorem Plan.ends_trap (code : ErrCode) (s : State) : (Plan.trap code s).Ends := by
  refine Plan.ends_of_next (by simp) ?_
  simp only [Plan.next]
  split
  · exact Plan.ends_closed _
  · cases emit .release s with
    | performed s' => exact Plan.ends_closed _
    | failed s' => exact Plan.ends_closed _
    | reset s' => exact Plan.ends_reset _

theorem Plan.ends_goOn {rest : List EvStep} {final : List Act} (h : ∀ s, (Plan.todo s ⟨rest, final⟩).Ends) (f : Flow) :
    (Plan.goOn rest final f).Ends := by
  cases f with
  | go s =>
    cases rest with
    | nil => exact Plan.ends_closed _
    | cons g gs => exact h s
  | ended s => exact Plan.ends_closed _
  | stuck f => exact Plan.ends_closed _

theorem Plan.ends_todo (steps : List EvStep) (final : List Act) (s : State) : (Plan.todo s ⟨steps, final⟩).Ends := by
  induction steps generalizing s with
  | nil => exact Plan.ends_of_next (by simp) (Plan.ends_closed _)
  | cons g gs ih =>
    refine Plan.ends_of_next (by simp) ?_
    simp only [Plan.next]
    cases emit g.ev s with
    | performed s' => exact Plan.ends_goOn ih _
    | failed s' => exact Plan.ends_trap _ _
    | reset s' => exact Plan.ends_reset _

/-- Every plan is closed after finitely many steps of R9: each event is one of the program's, and only a program has many. -/
theorem Plan.ends (p : Plan) : p.Ends := by
  induction p with
  | todo s p => exact Plan.ends_todo p.steps p.final s
  | sample s stop go hstop hgo =>
    refine Plan.ends_of_next (by simp) ?_
    simp only [Plan.next]
    split
    · exact hstop
    · exact hgo
  | trap code s => exact Plan.ends_trap code s
  | reset s => exact Plan.ends_reset s
  | closed f => exact Plan.ends_closed f

/-- Where a block at rest is refused, both the machine and R9's step are; where it is not, R9's step begins a plan that comes to
what the machine's step gives. -/
theorem restStep_cases (s : State) :
    (∃ r, restStep s = .refused r ∧ step s = .refused r) ∨
      ∃ q, restStep s = .next q ∧ q.run.toOutcome = step s := by
  unfold restStep step
  cases fetch s with
  | settled s' => exact .inr ⟨_, rfl, rfl⟩
  | running s' => exact .inr ⟨_, rfl, congrArg Flow.toOutcome (Plan.next_run _)⟩
  | instr i s' => exact .inr ⟨_, rfl, (exec_planned i s').symm⟩
  | refuse r => exact .inl ⟨r, rfl, rfl⟩

/-- From a block at rest, one step of R9 and then some end, for the first time, where the machine's step does. -/
theorem step_endsIn (s : State) :
    ∃ n, (∀ m ≤ n, 0 < m → ending (eventRun m (.closed (.go s))) = none) ∧
      ending (eventRun (n + 1) (.closed (.go s))) = some (step s) := by
  obtain ⟨r, hr, hs⟩ | ⟨q, hq, hs⟩ := restStep_cases s
  · refine ⟨0, fun m _ _ => by omega, ?_⟩
    simp [eventRun, eventStep, hr, hs, ending]
  · obtain ⟨n, before, after⟩ := q.ends
    have run : ∀ m, eventRun (m + 1) (.closed (.go s)) = eventRun m q := eventRun_succ hq
    refine ⟨n, fun m hm hpos => ?_, by rw [run, after, hs]⟩
    obtain ⟨m, rfl⟩ := Nat.exists_eq_succ_of_ne_zero hpos.ne'
    rw [run]
    exact before m hm

/-- Settles O9: the clauses are what `step_endsIn` says for each outcome of the step. -/
theorem machineStepIsItsEventSteps : Obligations.MachineStepIsItsEventSteps := by
  intro s
  obtain ⟨n, before, after⟩ := step_endsIn s
  refine ⟨n, fun m p hpos hm hp => ?_, fun t ht => ?_, fun f hf => ?_, fun r hr => ?_⟩
  · have h := before m hm hpos
    rw [hp] at h
    simpa [ending] using h
  · exact ending_eq_next (ht ▸ after)
  · exact ending_eq_fault (hf ▸ after)
  · exact ending_eq_refused (hr ▸ after)

end Sys2Proof.Machine
end

section
/-! ## O10: what one step of spec/00_scope.md R9 changes that the outside sees

The invariant of R9's runs is `Plan.StartsFrom`: a plan stands where its last step left it, its program answers at most once and
only in its last register actions, and a stop sample is followed by plans that have sampled `stop` once and done nothing else. -/

namespace Sys2Proof.Machine

/-! ### Changes of what the outside sees -/

/-- No event, no response, no request taken, no stop sample. -/
structure Still (s t : State) : Prop where
  log : t.log = s.log
  responses : t.responses = s.responses
  requests : t.inputs.requests = s.inputs.requests
  stop : t.inputs.stop = s.inputs.stop

/-- As `Still`, but for at most one response. -/
structure Answers (s t : State) : Prop where
  log : t.log = s.log
  responses : t.responses = s.responses ∨ ∃ r, t.responses = r :: s.responses
  requests : t.inputs.requests = s.inputs.requests
  stop : t.inputs.stop = s.inputs.stop

/-- What a step that takes no request may do. -/
structure OneThing (s t : State) : Prop where
  log : t.log = s.log ∨ ∃ ev, t.log = ev :: s.log
  responses : t.responses = s.responses ∨ ∃ r, t.responses = r :: s.responses
  requests : t.inputs.requests = s.inputs.requests
  stop : t.inputs.stop = s.inputs.stop ∨ (t.inputs.stop = s.inputs.stop.tail ∧ t.log = s.log)

/-- What an acceptance may do (spec/10_state.md R42): the first request presented is taken, and answered if nothing is to be emitted. -/
def Accepts (s t : State) : Prop :=
  ∃ bytes rest, s.inputs.requests = bytes :: rest ∧ Answers (s.withRequests rest) t

theorem Still.refl (s : State) : Still s s := ⟨rfl, rfl, rfl, rfl⟩

theorem Still.trans {s t u : State} (h : Still s t) (k : Still t u) : Still s u :=
  ⟨k.log.trans h.log, k.responses.trans h.responses, k.requests.trans h.requests, k.stop.trans h.stop⟩

theorem Still.answers {s t u : State} (h : Still s t) (k : Answers t u) : Answers s u :=
  ⟨k.log.trans h.log, h.responses ▸ k.responses, k.requests.trans h.requests, k.stop.trans h.stop⟩

theorem Still.oneThing {s t u : State} (h : Still s t) (k : OneThing t u) : OneThing s u :=
  ⟨h.log ▸ k.log, h.responses ▸ k.responses, k.requests.trans h.requests, h.stop ▸ h.log ▸ k.stop⟩

theorem Answers.of_still {s t : State} (h : Still s t) : Answers s t :=
  ⟨h.log, .inl h.responses, h.requests, h.stop⟩

theorem Answers.refl (s : State) : Answers s s := .of_still (.refl s)

theorem answers_respond (st : Status) (v : Word) (s : State) : Answers s (respond st v s) := ⟨rfl, .inr ⟨_, rfl⟩, rfl, rfl⟩

theorem OneThing.of_answers {s t : State} (h : Answers s t) : OneThing s t :=
  ⟨.inl h.log, h.responses, h.requests, .inl h.stop⟩

theorem OneThing.of_event {ev : Event} {s t : State} (h : Answers (record ev s) t) : OneThing s t :=
  ⟨.inr ⟨ev, h.log⟩, h.responses, h.requests, .inl h.stop⟩

theorem OneThing.of_sample {s t : State} (h : Answers s.popStop t) : OneThing s t :=
  ⟨.inl h.log, h.responses, h.requests, .inr ⟨h.stop, h.log⟩⟩

/-! ### Register actions -/

/-- The register actions that may give a response. -/
def Act.responds : Act → Bool
  | .pairDone _ _ => true
  | .answer _ _ => true
  | .openPayload _ => false
  | .countOff => false
  | .setInit _ => false
  | .windowSent => false

theorem answers_pairDone (len : Nat) (policy : Policy) (s : State) : Answers s (pairDone len policy s) := by
  unfold pairDone
  split
  · cases policy with
    | once => exact ⟨rfl, .inr ⟨_, rfl⟩, rfl, rfl⟩
    | repeating => exact .of_still ⟨rfl, rfl, rfl, rfl⟩
  · exact .of_still ⟨rfl, rfl, rfl, rfl⟩

theorem act_still {a : Act} (h : a.responds = false) (s : State) : (act a s).Keeps (Still s) := by
  cases a with
  | openPayload op =>
    obtain ⟨f, e⟩ | ⟨k, n, e, -⟩ := openPayload_cases op s <;> rw [act, e]
    · trivial
    · exact ⟨rfl, rfl, rfl, rfl⟩
  | countOff =>
    obtain ⟨e, -⟩ | ⟨e, -⟩ | ⟨-, -, e⟩ := countOff_cases s <;> rw [act, e]
    · trivial
    · trivial
    · exact ⟨rfl, rfl, rfl, rfl⟩
  | setInit st => exact ⟨rfl, rfl, rfl, rfl⟩
  | windowSent => exact ⟨rfl, rfl, rfl, rfl⟩
  | pairDone len policy => cases h
  | answer st v => cases h

theorem Flow.Keeps.mono {P Q : State → Prop} {f : Flow} (h : f.Keeps P) (hpq : ∀ s, P s → Q s) : f.Keeps Q := by
  cases f with
  | go s => exact hpq s h
  | ended s => exact hpq s h
  | stuck _ => trivial

theorem act_answers (a : Act) (s : State) : (act a s).Keeps (Answers s) := by
  cases a with
  | pairDone len policy => exact answers_pairDone len policy s
  | answer st v => exact answers_respond st v s
  | _ => exact (act_still rfl s).mono fun _ => Answers.of_still

/-- Register actions none of which may respond. -/
def Silent (as : List Act) : Prop := ∀ a ∈ as, a.responds = false

theorem Silent.runActs {as : List Act} (h : Silent as) (s : State) : (runActs as s).Keeps (Still s) := by
  induction as generalizing s with
  | nil => exact .refl s
  | cons a as ih =>
    obtain ⟨ha, has⟩ := List.forall_mem_cons.mp h
    rw [runActs_cons]
    cases e : act a s with
    | go t =>
      have ht : Still s t := by simpa [e, Flow.Keeps] using act_still ha s
      exact (ih has t).mono fun _ => ht.trans
    | ended t => simpa [e] using act_still ha s
    | stuck f => trivial

/-- The last register actions of a request are at most one, so they respond at most once. -/
theorem runActs_answers {as : List Act} (h : as.length ≤ 1) (s : State) : (runActs as s).Keeps (Answers s) := by
  match as, h with
  | [], _ => exact .refl s
  | [a], _ => rw [runActs_cons, show runActs [] = Flow.go from rfl, Flow.andThen_go]; exact act_answers a s

/-! ### Programs -/

/-- The register actions between a program's events give no response. -/
def SilentSteps (gs : List EvStep) : Prop := ∀ g ∈ gs, Silent g.after

/-- A program responds at most once, after its last event. -/
structure Program.AnswersOnce (p : Program) : Prop where
  steps : SilentSteps p.steps
  final : p.final.length ≤ 1

@[simp] theorem silent_nil : Silent [] := nofun

@[simp] theorem silent_cons (a : Act) (as : List Act) : Silent (a :: as) ↔ a.responds = false ∧ Silent as :=
  List.forall_mem_cons

@[simp] theorem silentSteps_nil : SilentSteps [] := nofun

@[simp] theorem silentSteps_cons (g : EvStep) (gs : List EvStep) :
    SilentSteps (g :: gs) ↔ Silent g.after ∧ SilentSteps gs :=
  List.forall_mem_cons

@[simp] theorem silentSteps_append (gs hs : List EvStep) : SilentSteps (gs ++ hs) ↔ SilentSteps gs ∧ SilentSteps hs :=
  List.forall_mem_append

theorem SilentSteps.flatMap {α : Type} {f : α → List EvStep} (h : ∀ a, SilentSteps (f a)) (l : List α) :
    SilentSteps (l.flatMap f) := fun g hg => by
  obtain ⟨a, -, ha⟩ := List.mem_flatMap.mp hg
  exact h a g ha

theorem SilentSteps.drop {gs : List EvStep} (h : SilentSteps gs) (n : Nat) : SilentSteps (gs.drop n) :=
  fun g hg => h g (List.mem_of_mem_drop hg)

theorem SilentSteps.thenDo {gs : List EvStep} {as : List Act} (h : SilentSteps gs) (ha : Silent as) :
    SilentSteps (thenDo gs as) := by
  induction gs with
  | nil => exact h
  | cons g gs ih =>
    obtain ⟨hg, hgs⟩ := (silentSteps_cons g gs).mp h
    cases gs with
    | nil => exact (silentSteps_cons _ _).mpr ⟨fun a m => (List.mem_append.mp m).elim (hg a) (ha a), silentSteps_nil⟩
    | cons g' gs => exact (silentSteps_cons _ _).mpr ⟨hg, ih hgs⟩

@[simp] theorem silent_commandSteps (op : Byte) : SilentSteps (commandSteps op) := by
  simp [commandSteps, Act.responds]

@[simp] theorem silent_dataSteps (b : Byte) : SilentSteps (dataSteps b) := by
  simp [dataSteps, Act.responds]

@[simp] theorem silent_frameSteps (op : Byte) (payload : List Byte) : SilentSteps (frameSteps op payload) := by
  simp [frameSteps, SilentSteps.flatMap silent_dataSteps]

@[simp] theorem silent_pixelSteps (c : ColorSample) : SilentSteps (pixelSteps c) := by
  simp [pixelSteps]

@[simp] theorem silent_setWindowSteps (cfg : Config) (cs ce rs re : Word) : SilentSteps (setWindowSteps cfg cs ce rs re) := by
  simp [setWindowSteps, casetSteps, rasetSteps, SilentSteps.thenDo, Act.responds]

@[simp] theorem silent_drawSteps (cfg : Config) (f : Frame) (samples : List ColorSample) :
    SilentSteps (drawSteps cfg f samples) := by
  simp [drawSteps, ramwrSteps, SilentSteps.flatMap silent_pixelSteps]

@[simp] theorem silent_swresetSteps (cfg : Config) : SilentSteps (swresetSteps cfg) := by
  simp [swresetSteps, Act.responds]

@[simp] theorem silent_slpoutSteps (cfg : Config) : SilentSteps (slpoutSteps cfg) := by
  simp [slpoutSteps, Act.responds]

@[simp] theorem silent_colmodSteps (cfg : Config) : SilentSteps (colmodSteps cfg) := by
  simp [colmodSteps, SilentSteps.thenDo, Act.responds]

@[simp] theorem silent_madctlSteps (cfg : Config) : SilentSteps (madctlSteps cfg) := by
  simp [madctlSteps, SilentSteps.thenDo, Act.responds]

@[simp] theorem silent_disponSteps (cfg : Config) : SilentSteps (disponSteps cfg) := by
  simp [disponSteps, Act.responds]

theorem initProgram_answersOnce (cfg : Config) : (initProgram cfg).AnswersOnce :=
  ⟨by simp [initProgram, initSteps, resetPulseSteps, Act.responds], le_rfl⟩

theorem sendCmdProgram_answersOnce (op : Byte) : (sendCmdProgram op).AnswersOnce := ⟨silent_commandSteps op, le_rfl⟩

theorem sendDataProgram_answersOnce (b : Byte) : (sendDataProgram b).AnswersOnce := ⟨silent_dataSteps b, le_rfl⟩

theorem setWindowProgram_answersOnce (cfg : Config) (cs ce rs re : Word) : (setWindowProgram cfg cs ce rs re).AnswersOnce :=
  ⟨silent_setWindowSteps cfg cs ce rs re, le_rfl⟩

theorem drawProgram_answersOnce (cfg : Config) (f : Frame) (samples : List ColorSample) :
    (drawProgram cfg f samples).AnswersOnce :=
  ⟨silent_drawSteps cfg f samples, le_rfl⟩

theorem pairProgram_answersOnce (cfg : Config) (f : Frame) (d len : Nat) (policy : Policy) (samples : List ColorSample) :
    (pairProgram cfg f d len policy samples).AnswersOnce :=
  ⟨by simp [pairProgram], le_rfl⟩

theorem releaseProgram_answersOnce : releaseProgram.AnswersOnce := ⟨by simp [releaseProgram], le_rfl⟩

/-! ### Where a plan stands -/

/-- The plan goes on from state `s`: nothing seen from outside has happened since, but for a response that ends the request. -/
def Plan.StartsFrom : State → Plan → Prop
  | s, .todo u p => Still s u ∧ p.AnswersOnce
  | s, .sample u stop go => Still s u ∧ stop.StartsFrom u.popStop ∧ go.StartsFrom u.popStop
  | s, .trap _ u => Still s u
  | s, .reset u => Still s u
  | s, .closed f => f.Keeps (Answers s)

/-- An accepted request has to do what its plan from its checks on says. -/
theorem planned_request {i : Instr} (h : i.level = .request) (s : State) : planned i s = planStart i (accept i s) := by
  cases i with
  | swreset | slpout | colmod | madctl | dispon | caset | raset | ramwr => simp [Instr.level] at h
  | _ => rfl

namespace Plan.StartsFrom

variable {s u : State}

theorem of_still {p : Plan} (h : Still s u) (hp : p.StartsFrom u) : p.StartsFrom s := by
  cases p with
  | todo v p => exact ⟨h.trans hp.1, hp.2⟩
  | sample v stop go => exact ⟨h.trans hp.1, hp.2⟩
  | trap code v => exact h.trans hp
  | reset v => exact h.trans hp
  | closed f => exact Flow.Keeps.mono hp fun _ => h.answers

/-- A plan goes on from the very state it stands in, too. -/
theorem from_state {p : Plan} (h : p.StartsFrom s) (ht : p.state = some u) : p.StartsFrom u ∧ Answers s u := by
  cases p with
  | todo v p => cases ht; exact ⟨⟨.refl _, h.2⟩, .of_still h.1⟩
  | sample v stop go => cases ht; exact ⟨⟨.refl _, h.2⟩, .of_still h.1⟩
  | trap code v => cases ht; exact ⟨.refl _, .of_still h⟩
  | reset v => cases ht; exact ⟨.refl _, .of_still h⟩
  | closed f =>
    cases f with
    | go v => cases ht; exact ⟨Answers.refl _, h⟩
    | ended v => cases ht; exact ⟨Answers.refl _, h⟩
    | stuck f => cases ht

theorem ite {c : Prop} [Decidable c] {p q : Plan} (hp : p.StartsFrom s) (hq : q.StartsFrom s) :
    (if c then p else q).StartsFrom s := by
  split
  · exact hp
  · exact hq

theorem refuse (h : Still s u) : (refuse u).StartsFrom s := h.answers (answers_respond _ _ _)

theorem fatal (code : ErrCode) (h : Still s u) : (fatal code u).StartsFrom s := h.trans ⟨rfl, rfl, rfl, rfl⟩

theorem loadWindow {cs ce rs re : Word} {p : Program} (hp : p.AnswersOnce) (h : Still s u) :
    (Plan.todo (loadWindow cs ce rs re u) p).StartsFrom s :=
  ⟨h.trans ⟨rfl, rfl, rfl, rfl⟩, hp⟩

theorem planFrame (f : Frame) {mk : List ColorSample → Program} (hmk : ∀ samples, (mk samples).AnswersOnce) (h : Still s u) :
    (planFrame f mk u).StartsFrom s := by
  unfold Machine.planFrame
  split
  · exact fatal _ h
  · split
    · trivial
    · exact loadWindow (hmk _) h

theorem planPairStart (seq : List (Frame × Nat)) (policy : Policy) (h : Still s u) :
    (planPairStart seq policy u).StartsFrom s := by
  unfold Machine.planPairStart
  split
  · trivial
  · exact planFrame _ (pairProgram_answersOnce _ _ _ _ _) h

theorem planBoundary (seq : List (Frame × Nat)) (policy : Policy) (h : Still s u) :
    (planBoundary seq policy u).StartsFrom s :=
  ⟨h, ⟨rfl, .inr ⟨_, rfl⟩, rfl, rfl⟩, planPairStart seq policy (.refl _)⟩

theorem planInit (h : Still s u) : (planInit u).StartsFrom s :=
  have read : Still s u.popTransport := h.trans ⟨rfl, rfl, rfl, rfl⟩
  ite (refuse h) (ite (fatal _ h) (ite (fatal _ read) ⟨read, initProgram_answersOnce _⟩))

theorem planSendCmd (op : Byte) (h : Still s u) : (planSendCmd op u).StartsFrom s :=
  ite (refuse h) (ite (fatal _ h) (ite (fatal _ h) (ite (fatal _ h) (ite (fatal _ h) ⟨h, sendCmdProgram_answersOnce op⟩))))

theorem planSendData (b : Byte) (h : Still s u) : (planSendData b u).StartsFrom s :=
  ite (refuse h) (ite (fatal _ h) (ite (fatal _ h) ⟨h, sendDataProgram_answersOnce b⟩))

theorem planSetWindow (cs ce rs re : Word) (h : Still s u) : (planSetWindow cs ce rs re u).StartsFrom s :=
  ite (refuse h) (ite (fatal _ h) (ite (fatal _ h) (ite (fatal _ h) (loadWindow (setWindowProgram_answersOnce _ _ _ _ _) h))))

theorem planEncode (r g b : Byte) (h : Still s u) : (planEncode r g b u).StartsFrom s :=
  ite (refuse h) (h.answers (answers_respond _ _ _))

theorem planDrawFrame (f : Frame) (h : Still s u) : (planDrawFrame f u).StartsFrom s :=
  ite (refuse h) (ite (fatal _ h) (ite (fatal _ h) (planFrame f (drawProgram_answersOnce _ f) h)))

theorem planAnimate (seq : List (Frame × Nat)) (policy : Policy) (h : Still s u) : (planAnimate seq policy u).StartsFrom s :=
  ite (refuse h) (ite (fatal _ h) (ite (fatal _ h) (ite (fatal _ h)
    (planBoundary seq policy (h.trans ⟨rfl, rfl, rfl, rfl⟩)))))

theorem planReadStatus (h : Still s u) : (planReadStatus u).StartsFrom s := h.answers (answers_respond _ _ _)

theorem planRelease (h : Still s u) : (planRelease u).StartsFrom s := ite (refuse h) ⟨h, releaseProgram_answersOnce⟩

theorem planReserved (h : Still s u) : (planReserved u).StartsFrom s := ite (refuse h) (fatal _ h)

theorem planStart (i : Instr) (h : Still s u) : (planStart i u).StartsFrom s := by
  cases i with
  | init => exact planInit h
  | sendCmd op => exact planSendCmd op h
  | sendData b => exact planSendData b h
  | setWindow cs ce rs re => exact planSetWindow cs ce rs re h
  | encode r g b => exact planEncode r g b h
  | drawFrame f => exact planDrawFrame f h
  | animate seq policy => exact planAnimate seq policy h
  | readStatus => exact planReadStatus h
  | release => exact planRelease h
  | reserved0 | reservedA | reservedB | reservedC | reservedD | reservedE | reservedF => exact planReserved h
  | _ => trivial

theorem planDrop (n : Nat) {p : Program} (hp : p.AnswersOnce) (h : Still s u) : (planDrop n p u).StartsFrom s :=
  ite ⟨h, hp.steps.drop n, hp.final⟩ trivial

theorem planDropFrame (n : Nat) (f : Frame) {mk : List ColorSample → Program} (hmk : ∀ samples, (mk samples).AnswersOnce)
    (h : Still s u) : (planDropFrame n f mk u).StartsFrom s := by
  unfold Machine.planDropFrame
  split
  · trivial
  · exact planDrop n (hmk _) h

theorem planPair (seq : List (Frame × Nat)) (policy : Policy) (h : Still s u) : (planPair seq policy u).StartsFrom s := by
  unfold Machine.planPair
  split
  · exact planBoundary seq policy h
  · split
    · trivial
    · exact planDropFrame _ _ (pairProgram_answersOnce _ _ _ _ _) h

theorem planRest (i : Instr) (h : Still s u) : (planRest i u).StartsFrom s := by
  cases i with
  | init => exact planDrop _ (initProgram_answersOnce _) h
  | sendCmd op => exact planDrop _ (sendCmdProgram_answersOnce op) h
  | sendData b => exact planDrop _ (sendDataProgram_answersOnce b) h
  | setWindow cs ce rs re => exact planDrop _ (setWindowProgram_answersOnce _ cs ce rs re) h
  | drawFrame f => exact planDropFrame _ f (drawProgram_answersOnce _ f) h
  | animate seq policy => exact ite (planPair seq policy h) trivial
  | release => exact planDrop _ releaseProgram_answersOnce h
  | _ => trivial

/-- A request goes on from the state whose step pointer says what it has still to do. -/
theorem planOf (s : State) : (planOf s).StartsFrom s := by
  unfold Machine.planOf
  split
  · trivial
  · exact ite (planStart _ (.refl s)) (planRest _ (.refl s))

theorem planCommand {gs : List EvStep} (hgs : SilentSteps gs) (s : State) : (planCommand gs s).StartsFrom s :=
  ite (fatal _ (.refl s)) ⟨.refl s, hgs, Nat.zero_le 1⟩

theorem planRamwr (s : State) : (planRamwr s).StartsFrom s :=
  ite (fatal _ (.refl s)) (planCommand (silent_commandSteps _) s)

/-- Accepting an instruction does nothing that is seen from outside, but for the response of one that has no event. -/
theorem planned (i : Instr) (s : State) : (planned i s).StartsFrom s := by
  cases hl : i.level with
  | request =>
    rw [planned_request hl]
    exact planStart i ⟨rfl, rfl, rfl, rfl⟩
  | command =>
    cases i with
    | swreset => exact planCommand (silent_swresetSteps _) s
    | slpout => exact planCommand (silent_slpoutSteps _) s
    | colmod => exact planCommand (silent_colmodSteps _) s
    | madctl => exact planCommand (silent_madctlSteps _) s
    | dispon => exact planCommand (silent_disponSteps _) s
    | caset cs ce => exact planCommand (silent_frameSteps _ _) s
    | raset rs re => exact planCommand (silent_frameSteps _ _) s
    | ramwr => exact planRamwr s
    | _ => simp [Instr.level] at hl

end Plan.StartsFrom

/-! ### One step of a plan -/

/-- The plan stands, if anywhere, one thing after `s`, and goes on from there. -/
def Plan.Follows (s : State) (q : Plan) : Prop := ∀ t, q.state = some t → OneThing s t ∧ q.StartsFrom t

theorem Plan.Follows.of_closed {s : State} {f : Flow} (h : f.Keeps (OneThing s)) : (Plan.closed f).Follows s := by
  intro t ht
  cases f with
  | go u => cases ht; exact ⟨h, Answers.refl _⟩
  | ended u => cases ht; exact ⟨h, Answers.refl _⟩
  | stuck f => cases ht

theorem Plan.Follows.of_still {s u : State} (h : Still s u) {q : Plan} (hq : q.Follows u) : q.Follows s :=
  fun t ht => ⟨h.oneThing (hq t ht).1, (hq t ht).2⟩

/-- After an event: the plan goes on from where the event has been recorded. -/
theorem Plan.Follows.of_event {s : State} {ev : Event} {q : Plan} (h : q.StartsFrom (record ev s)) : q.Follows s :=
  fun _ ht => ⟨.of_event (h.from_state ht).2, (h.from_state ht).1⟩

theorem Plan.Follows.of_sample {s : State} {q : Plan} (h : q.StartsFrom s.popStop) : q.Follows s :=
  fun _ ht => ⟨.of_sample (h.from_state ht).2, (h.from_state ht).1⟩

/-- What is left after an event's silent register actions goes on from the event. -/
theorem Plan.StartsFrom.goOn {s : State} {rest : List EvStep} {final : List Act} {f : Flow} (hrest : SilentSteps rest)
    (hfinal : final.length ≤ 1) (hf : f.Keeps (Still s)) : (Plan.goOn rest final f).StartsFrom s := by
  cases f with
  | go u =>
    cases rest with
    | nil => exact (runActs_answers hfinal u).mono fun _ => Still.answers hf
    | cons g gs => exact ⟨hf, hrest, hfinal⟩
  | ended u => exact Answers.of_still hf
  | stuck f => trivial

/-- However an event ends, it has been recorded. -/
theorem emit_cases (ev : Event) (s : State) :
    emit ev s = .reset (record ev s) ∨ emit ev s = .failed (record ev s) ∨ emit ev s = .performed (record ev s) := by
  unfold emit
  split
  · exact .inl rfl
  · split
    · exact .inr (.inl rfl)
    · exact .inr (.inr rfl)

theorem Plan.Follows.todo (s : State) {p : Program} (hp : p.AnswersOnce) : (Plan.todo s p).next.Follows s := by
  obtain ⟨steps, final⟩ := p
  obtain ⟨hsteps, hfinal⟩ := hp
  cases steps with
  | nil => exact .of_closed ((runActs_answers hfinal s).mono fun _ => OneThing.of_answers)
  | cons g gs =>
    obtain ⟨hg, hgs⟩ := (silentSteps_cons g gs).mp hsteps
    apply Plan.Follows.of_event (ev := g.ev)
    simp only [Plan.next]
    obtain e | e | e := emit_cases g.ev s <;> rw [e]
    · exact .refl _
    · exact ⟨rfl, rfl, rfl, rfl⟩
    · exact .goOn hgs hfinal (hg.runActs _)

theorem Plan.Follows.trap (code : ErrCode) (s : State) : (Plan.trap code s).next.Follows s := by
  simp only [Plan.next]
  split
  · exact .of_closed (.of_answers (answers_respond _ _ s))
  · apply Plan.Follows.of_event (ev := .release)
    obtain e | e | e := emit_cases .release s <;> rw [e]
    · exact .refl _
    · exact ⟨rfl, .inr ⟨_, rfl⟩, rfl, rfl⟩
    · exact ⟨rfl, .inr ⟨_, rfl⟩, rfl, rfl⟩

/-- One step of a plan does one thing, and the plan goes on from there. -/
theorem Plan.StartsFrom.next {s : State} {p : Plan} (h : p.StartsFrom s) : p.next.Follows s := by
  cases p with
  | todo u p => exact .of_still h.1 (.todo u h.2)
  | sample u stop go =>
    refine .of_still h.1 (.of_sample ?_)
    simp only [Plan.next]
    exact .ite h.2.1 h.2.2
  | trap code u => exact .of_still h (.trap code u)
  | reset u => exact .of_still h (.of_closed (.of_answers (.of_still ⟨rfl, rfl, rfl, rfl⟩)))
  | closed f => exact .of_closed (Flow.Keeps.mono h fun _ => OneThing.of_answers)

/-! ### The step of a block at rest -/

/-- What a fetch changes: at most, the first request presented is taken. -/
def Fetched.Follows (s : State) : Fetched → Prop
  | .settled u => Still s u
  | .running u => Still s u
  | .instr _ u => Still s u ∨ ∃ bytes rest, s.inputs.requests = bytes :: rest ∧ Still (s.withRequests rest) u
  | .refuse _ => True

theorem fetchRequest_follows (s : State) : (fetchRequest s).Follows s := by
  unfold fetchRequest
  split
  · exact .refl s
  next bytes rest hq =>
    split
    · trivial
    · exact .inr ⟨bytes, rest, hq, .refl _⟩

theorem fetchCommand_follows (bytes : List Byte) (s : State) : (fetchCommand bytes s).Follows s := by
  unfold fetchCommand
  split
  · trivial
  · exact .inl ⟨rfl, rfl, rfl, rfl⟩

theorem fetchRun_follows (s : State) : (fetchRun s).Follows s := by
  cases hc : s.cmdPort with
  | some bytes => rw [fetchRun_port hc]; exact fetchCommand_follows bytes s
  | none =>
    cases hb : s.busy with
    | true => rw [fetchRun_busy hc hb]; exact .refl s
    | false => rw [fetchRun_idle hc hb]; exact fetchRequest_follows s

theorem Fetched.Follows.of_popRst {s : State} {x : Fetched} (h : x.Follows s.popRst) : x.Follows s := by
  have read : Still s s.popRst := ⟨rfl, rfl, rfl, rfl⟩
  cases x with
  | settled u => exact read.trans h
  | running u => exact read.trans h
  | instr i u =>
    obtain h | ⟨bytes, rest, hq, h⟩ := h
    · exact .inl (read.trans h)
    · have taken : Still (s.withRequests rest) (s.popRst.withRequests rest) := ⟨rfl, rfl, rfl, rfl⟩
      exact .inr ⟨bytes, rest, hq, taken.trans h⟩
  | refuse r => trivial

theorem fetch_follows (s : State) : (fetch s).Follows s := by
  cases hw : s.cfg.wf with
  | false => rw [fetch_illFormed hw]; trivial
  | true =>
    cases hr : s.rstReads with
    | true => rw [fetch_reset hw hr]; exact ⟨rfl, rfl, rfl, rfl⟩
    | false => rw [fetch_quiet hw hr]; exact (fetchRun_follows s.popRst).of_popRst

/-- A block at rest does one thing or accepts a request, and the plan it begins goes on from there. -/
theorem restStep_follows {s t : State} {q : Plan} (h : restStep s = .next q) (ht : q.state = some t) :
    (OneThing s t ∨ Accepts s t) ∧ q.StartsFrom t := by
  have hf := fetch_follows s
  unfold restStep at h
  cases e : fetch s with
  | refuse r => simp [e] at h
  | settled u =>
    rw [e] at h hf
    cases h; cases ht
    exact ⟨.inl (.of_answers (.of_still hf)), Answers.refl _⟩
  | running u =>
    rw [e] at h hf
    cases h
    obtain ⟨one, starts⟩ := (Plan.StartsFrom.planOf u).next t ht
    exact ⟨.inl (Still.oneThing hf one), starts⟩
  | instr i u =>
    rw [e] at h hf
    cases h
    obtain ⟨starts, answers⟩ := (Plan.StartsFrom.planned i u).from_state ht
    refine ⟨?_, starts⟩
    obtain still | ⟨bytes, rest, hq, still⟩ := hf
    · exact .inl (.of_answers (still.answers answers))
    · exact .inr ⟨bytes, rest, hq, still.answers answers⟩

/-! ### Runs -/

/-- The invariant of R9's runs: the plan goes on from the state it stands in. -/
def Plan.Sound (p : Plan) : Prop := ∀ s, p.state = some s → p.StartsFrom s

theorem eventStep_follows {p q : Plan} {s t : State} (hp : p.Sound) (h : eventStep p = .next q) (hs : p.state = some s)
    (ht : q.state = some t) : (OneThing s t ∨ (p.atRest = some s ∧ Accepts s t)) ∧ q.StartsFrom t := by
  have unrest (hc : ∀ f, p ≠ .closed f) : OneThing s t ∧ q.StartsFrom t := by
    rw [eventStep_eq_next hc] at h
    cases h
    exact (hp s hs).next t ht
  have rest (hc : p.atRest = some s) (hr : eventStep p = restStep s) :
      (OneThing s t ∨ (p.atRest = some s ∧ Accepts s t)) ∧ q.StartsFrom t := by
    obtain ⟨one | taken, starts⟩ := restStep_follows (hr ▸ h) ht
    · exact ⟨.inl one, starts⟩
    · exact ⟨.inr ⟨hc, taken⟩, starts⟩
  cases p with
  | closed f =>
    cases f with
    | go u => cases hs; exact rest rfl rfl
    | ended u => cases hs; exact rest rfl rfl
    | stuck f => cases hs
  | _ => exact ⟨.inl (unrest (by simp)).1, (unrest (by simp)).2⟩

theorem Plan.exists_state {p q : Plan} (h : eventStep p = .next q) : ∃ s, p.state = some s := by
  cases p with
  | closed f =>
    cases f with
    | stuck f => cases h
    | _ => exact ⟨_, rfl⟩
  | _ => exact ⟨_, rfl⟩

theorem Plan.Sound.eventRun {p q : Plan} {n : Nat} (hp : p.Sound) (h : eventRun n p = .next q) : q.Sound := by
  induction n generalizing p with
  | zero => cases h; exact hp
  | succ n ih =>
    cases e : eventStep p with
    | next r =>
      obtain ⟨s, hs⟩ := Plan.exists_state e
      rw [eventRun_succ e] at h
      exact ih (fun t ht => (eventStep_follows hp e hs ht).2) h
    | fault f => simp [Machine.eventRun, e] at h
    | refused r => simp [Machine.eventRun, e] at h

theorem sound_atRest (s : State) : (Plan.closed (.go s)).Sound := fun t ht => by
  cases ht
  exact .refl s

/-- Settles O10: a run's plans go on from where they stand (`Plan.Sound.eventRun`), and a step from such a plan does one thing or
is an acceptance (`eventStep_follows`). -/
theorem eventStepDoesOneThing : Obligations.EventStepDoesOneThing := by
  intro s₀ n p q s t hrun hstep hs ht
  have sound := (sound_atRest s₀).eventRun hrun
  obtain ⟨one | ⟨hrest, bytes, rest, hq, taken⟩, -⟩ := eventStep_follows sound hstep hs ht
  · exact ⟨one.log, one.responses, .inl one.requests, one.stop⟩
  · have hreq : t.inputs.requests = rest := taken.requests
    exact ⟨.inl taken.log, taken.responses, .inr ⟨hrest, ⟨bytes, hreq ▸ hq⟩, taken.log, taken.stop⟩, .inl taken.stop⟩

end Sys2Proof.Machine
end

section
/-! ## O4: the step of a block that runs something -/

namespace Sys2Proof.Machine

variable {s : State}

theorem step_reset (hw : s.cfg.wf = true) (hr : s.rstReads = true) : step s = .next (blockReset s.popRst) := by
  rw [step, fetch_reset hw hr]

theorem step_running (hw : s.cfg.wf = true) (hr : s.rstReads = false) (hc : s.cmdPort = none) (hb : s.busy = true) :
    step s = (resume s.popRst).toOutcome := by
  rw [step, fetch_quiet hw hr, fetchRun_busy (s := s.popRst) hc hb]

theorem step_presented {bytes : List Byte} {rest : List (List Byte)} {i : Instr} (hw : s.cfg.wf = true)
    (hr : s.rstReads = false) (hc : s.cmdPort = none) (hb : s.busy = false) (hq : s.inputs.requests = bytes :: rest)
    (hd : decodeRequest bytes = .ok i) : step s = exec i (s.popRst.withRequests rest) := by
  simp [step, fetch_quiet hw hr, fetchRun_idle (s := s.popRst) hc hb, fetchRequest, hq, hd]

/-- Settles O4: the fetch of an idle block finds the first packet presented. -/
theorem stepRunsThePresentedRequest : Obligations.StepRunsThePresentedRequest :=
  fun _ _ _ _ => step_presented

end Sys2Proof.Machine
end

section
/-! ## Good states, and a block in the middle of a request

`State.Sound` is what `State.Good` says of the registers a response leaves alone; `State.Active` is what holds of a block that takes
requests wherever it stands between two events of one. A failure or a block reset from an active state ends in a good one
(`raise_good`, `blockReset_good`), so only the events that go through have to be followed. -/

namespace Sys2Proof.Machine

/-- A good state, but for what it says about the request being executed. -/
structure State.Sound (s : State) : Prop where
  framer : s.framerAgrees
  window : s.winValid = true → s.windowHeld
  settledInit : s.halted = false → s.initState = .unpowered ∨ s.initState = .on
  closed : s.halted = false → s.frKind ≠ .idle → s.initState = .on ∧ s.frKind = .stream
  windowOn : s.winValid = true → s.initState = .on
  errHalted : s.halted = true ↔ s.err ≠ .ok
  haltedReleased : s.halted = true → s.released = true
  gram : s.panel.gram.wf = true
  line : disciplined s.cfg s.log = true
  port : s.cmdPort = none

/-- What holds of a block that takes requests at every point of a request. -/
structure State.Active (s : State) : Prop where
  takes : s.takes
  err : s.err = .ok
  framer : s.framerAgrees
  window : s.winValid = true → s.windowHeld
  windowOn : s.winValid = true → s.initState = .on
  gram : s.panel.gram.wf = true
  line : disciplined s.cfg s.log = true
  port : s.cmdPort = none

variable {s t u : State}

theorem State.Good.sound (g : s.Good) : s.Sound := { g with }

theorem State.Sound.accept (h : s.Sound) (i : Instr) : (accept i s).Sound := { h with }

theorem State.Sound.respond_good (h : s.Sound) (ha : s.animActive = false) (st : Status) (v : Word) :
    (respond st v s).Good :=
  { h with
    idle := fun _ => ⟨rfl, ha⟩
    running := nofun }

theorem State.Sound.active (h : s.Sound) (ht : s.takes) : s.Active :=
  { h with
    takes := ht
    err := by simpa [ht.1] using h.errHalted }

theorem State.Active.sound (h : s.Active) (hi : s.initState = .unpowered ∨ s.initState = .on)
    (hc : s.frKind ≠ .idle → s.initState = .on ∧ s.frKind = .stream) : s.Sound :=
  { h with
    settledInit := fun _ => hi
    closed := fun _ => hc
    errHalted := by simp [h.takes.1, h.err]
    haltedReleased := by simp [h.takes.1] }

/-- A block that is `On` with no command open. -/
theorem State.Active.sound_of_on (h : s.Active) (hi : s.initState = .on) (hr : s.frRem = 0) : s.Sound :=
  h.sound (.inr hi) fun hk => absurd (h.framer.mpr hr) hk

theorem State.Active.frKind_idle (h : s.Active) (hr : s.frRem = 0) : s.frKind = .idle := h.framer.mpr hr

/-! ### Block reset and the fatal path -/

theorem blockReset_good (h : disciplined s.cfg s.log = true) : (blockReset s).Good where
  framer := ⟨fun _ => rfl, fun _ => rfl⟩
  window := nofun
  settledInit := fun _ => .inl rfl
  closed := fun _ hk => absurd rfl hk
  windowOn := nofun
  errHalted := by simp
  haltedReleased := nofun
  idle := fun _ => ⟨rfl, rfl⟩
  running := nofun
  gram := rfl
  line := h
  port := rfl

/-- Settles O14: reset is block reset with no event in the trace. -/
theorem resetStateIsGood : Obligations.ResetStateIsGood := blockReset_good (s := State.reset) rfl

/-- The panel's cells stay canonical when an event is recorded, whether or not it fails. -/
theorem record_gram_wf (ev : Event) (h : s.panel.gram.wf = true) : (record ev s).panel.gram.wf = true := by
  rw [record_panel]
  split
  · rfl
  · exact observe_gram_wf ev s h

/-- What the fatal path has made of an active block when RELEASE stands in the trace. -/
theorem State.Active.halted_sound (h : s.Active) {code : ErrCode} (hc : code ≠ .ok) (n : Nat) :
    ((record .release (markFatal code s)).withPtr n).Sound where
  framer := h.framer
  window := h.window
  settledInit := nofun
  closed := nofun
  windowOn := h.windowOn
  errHalted := by simp [h.err, hc]
  haltedReleased := fun _ => rfl
  gram := record_gram_wf .release (s := markFatal code s) h.gram
  line := h.line
  port := h.port

theorem raise_good (h : s.Active) {code : ErrCode} (hc : code ≠ .ok) : (raise code s).Good := by
  have released : (markFatal code s).released = false := h.takes.2
  simp only [raise, releaseAndRespond, released, Bool.false_eq_true, if_false]
  obtain e | e | e := emit_cases .release (markFatal code s) <;> rw [e]
  · exact blockReset_good h.line
  · exact (h.halted_sound hc _).respond_good rfl _ _
  · exact (h.halted_sound hc _).respond_good rfl _ _

/-! ### Flows from an active state -/

/-- The flow goes on in a state with `Q`, or has ended in a good state; the model does not stop. -/
def Flow.Leads (Q : State → Prop) : Flow → Prop
  | .go s => Q s
  | .ended s => s.Good
  | .stuck _ => False

theorem Flow.Leads.andThen {Q R : State → Prop} {f : Flow} {k : State → Flow} (hf : f.Leads Q)
    (hk : ∀ s, Q s → (k s).Leads R) : (f.andThen k).Leads R := by
  cases f with
  | go s => exact hk s hf
  | ended s => exact hf
  | stuck _ => exact hf

theorem Flow.Leads.mono {Q R : State → Prop} {f : Flow} (hf : f.Leads Q) (h : ∀ s, Q s → R s) : f.Leads R := by
  cases f with
  | go s => exact h s hf
  | ended s => exact hf
  | stuck _ => exact hf

theorem Flow.Leads.and_go {Q R : State → Prop} {f : Flow} (hf : f.Leads Q) (h : ∀ s, f = .go s → R s) :
    f.Leads fun s => Q s ∧ R s := by
  cases f with
  | go s => exact ⟨hf, h s rfl⟩
  | ended s => exact hf
  | stuck _ => exact hf

theorem Flow.Leads.next {f : Flow} (hf : f.Leads State.Good) : ∃ t, f.toOutcome = .next t ∧ t.Good := by
  cases f with
  | go s => exact ⟨s, rfl, hf⟩
  | ended s => exact ⟨s, rfl, hf⟩
  | stuck _ => exact hf.elim

/-- The registers that name the request being executed. -/
structure SameRequest (s t : State) : Prop where
  cfg : t.cfg = s.cfg
  busy : t.busy = s.busy
  curReq : t.curReq = s.curReq
  animIdx : t.animIdx = s.animIdx
  animActive : t.animActive = s.animActive

theorem SameRequest.refl (s : State) : SameRequest s s := ⟨rfl, rfl, rfl, rfl, rfl⟩

theorem SameRequest.trans (h : SameRequest s t) (k : SameRequest t u) : SameRequest s u :=
  ⟨k.cfg.trans h.cfg, k.busy.trans h.busy, k.curReq.trans h.curReq, k.animIdx.trans h.animIdx,
    k.animActive.trans h.animActive⟩

/-- From `s` the bus events sent so far have led to the active state `t`. -/
structure Sent (s t : State) : Prop extends SameRequest s t where
  active : t.Active
  initState : t.initState = s.initState
  winValid : t.winValid = s.winValid
  winCs : t.winCs = s.winCs
  winCe : t.winCe = s.winCe
  winRs : t.winRs = s.winRs
  winRe : t.winRe = s.winRe

theorem Sent.refl (h : s.Active) : Sent s s := ⟨.refl s, h, rfl, rfl, rfl, rfl, rfl, rfl⟩

theorem Sent.trans (h : Sent s t) (k : Sent t u) : Sent s u :=
  ⟨h.toSameRequest.trans k.toSameRequest, k.active, k.initState.trans h.initState, k.winValid.trans h.winValid,
    k.winCs.trans h.winCs, k.winCe.trans h.winCe, k.winRs.trans h.winRs, k.winRe.trans h.winRe⟩

theorem Sent.windowHeld (h : Sent s t) (hw : s.windowHeld) : t.windowHeld := by
  simpa only [State.windowHeld, h.cfg, h.winCs, h.winCe, h.winRs, h.winRe] using hw

theorem Sent.framer {k : FrKind} {n : Nat} (h : Sent s t) (hk : k = .idle ↔ n = 0) :
    Sent s { t with frKind := k, frRem := n } :=
  { h with active := { h.active with framer := hk } }

/-- Both range commands of a window that is held are sent (spec/42_address_window_adder.md R182). -/
theorem Sent.window (h : Sent s t) (hi : s.initState = .on) (hw : s.windowHeld) :
    Sent { s with winValid := true } { t with winValid := true } :=
  { h with
    active := { h.active with
      window := fun _ => h.windowHeld hw
      windowOn := fun _ => h.initState.trans hi }
    winValid := rfl }

/-- One event but RELEASE, from an active state: only what goes through has to be followed. -/
theorem perform_leads {g : EvStep} {Q : State → Prop} (h : s.Active) (hev : releasedAfter g.ev false = false)
    (hl : disciplined s.cfg (g.ev :: s.log) = true)
    (k : Sent s (record g.ev s) → (runActs g.after (record g.ev s)).Leads Q) : (perform g s).Leads Q := by
  have sent : Sent s (record g.ev s) :=
    ⟨⟨rfl, rfl, rfl, rfl, rfl⟩,
      { h with
        takes := ⟨h.takes.1, by rw [record_released, h.takes.2, hev]⟩
        gram := record_gram_wf g.ev h.gram
        line := hl },
      rfl, rfl, rfl, rfl, rfl, rfl⟩
  unfold perform
  obtain e | e | e := emit_cases g.ev s <;> rw [e]
  · exact blockReset_good hl
  · exact raise_good sent.active (by simp)
  · exact k sent

/-! ### The framer's primitives (spec/40_command_protocol_framer.md R121, R122, R127) -/

theorem runSteps_one (g : EvStep) (s : State) : runSteps [g] s = perform g s := Flow.andThen_go _

/-- A DC event and its byte, which keep line discipline together (R123). -/
theorem pair_leads {l : DcLevel} {b : Byte} {as : List Act} {Q : State → Prop} (h : s.Active)
    (hl : l = .cmd → b ∈ s.cfg.opcodes)
    (k : Sent s (record (.xfer b) (record (.dc l) s)) → (runActs as (record (.xfer b) (record (.dc l) s))).Leads Q) :
    (runSteps [⟨.dc l, []⟩, ⟨.xfer b, as⟩] s).Leads Q := by
  have line : disciplined s.cfg (.xfer b :: .dc l :: s.log) = true := by
    cases l with
    | cmd => simp [disciplined, hl rfl, h.line]
    | data => exact h.line
  have first : (perform ⟨.dc l, []⟩ s).Leads fun t => t = record (.dc l) s ∧ Sent s t :=
    perform_leads h rfl h.line fun sent => ⟨rfl, sent⟩
  rw [runSteps_cons]
  refine first.andThen ?_
  rintro _ ⟨rfl, sent⟩
  rw [runSteps_one]
  exact perform_leads sent.active rfl line fun second => k (sent.trans second)

theorem mem_opcodes_of_payloadLen {c : Config} {op : Byte} {n : Nat} (h : payloadLen c op = some n) : op ∈ c.opcodes := by
  unfold payloadLen at h
  split_ifs at h <;> simp [Config.opcodes, *]

theorem openPayload_of_ne_ramwr {op : Byte} {n : Nat} (hk : s.frKind = .idle) (hm : op ≠ s.cfg.opRamwr)
    (hl : payloadLen s.cfg op = some n) :
    openPayload op s = .go { s with frKind := if n = 0 then .idle else .fixed, frRem := n } := by
  cases n <;> simp [openPayload, hk, hm, hl]

/-- `send_command` of an opcode that is not RAMWR: its payload is owed. -/
theorem command_leads {op : Byte} {n : Nat} (h : s.Active) (hr : s.frRem = 0) (hm : op ≠ s.cfg.opRamwr)
    (hl : payloadLen s.cfg op = some n) :
    (runSteps (commandSteps op) s).Leads fun t => Sent s t ∧ t.frRem = n := by
  refine pair_leads h (fun _ => mem_opcodes_of_payloadLen hl) fun sent => ?_
  have opened := openPayload_of_ne_ramwr (s := record (.xfer op) (record (.dc .cmd) s)) (h.frKind_idle hr) hm hl
  rw [runActs_cons, act, opened]
  exact ⟨sent.framer (by split <;> simp_all), rfl⟩

theorem dataPhase_pos (cs ce rs re : Word) : 0 < dataPhase cs ce rs re :=
  Nat.mul_pos (by omega) (by omega)

/-- `send_command` of RAMWR over a window: the data phase is owed. -/
theorem ramwr_leads {cs ce rs re : Word} (h : s.Active) (hr : s.frRem = 0) (h1 : s.winCs = some cs) (h2 : s.winCe = some ce)
    (h3 : s.winRs = some rs) (h4 : s.winRe = some re) (hc : cs.toNat ≤ ce.toNat ∧ rs.toNat ≤ re.toNat) :
    (runSteps (ramwrSteps s.cfg) s).Leads fun t => Sent s t ∧ t.frKind = .stream ∧ t.frRem = dataPhase cs ce rs re := by
  refine pair_leads h (fun _ => by simp [Config.opcodes]) fun sent => ?_
  have opened : openPayload s.cfg.opRamwr (record (.xfer s.cfg.opRamwr) (record (.dc .cmd) s)) =
      .go { record (.xfer s.cfg.opRamwr) (record (.dc .cmd) s) with
        frKind := .stream, frRem := dataPhase cs ce rs re } := by
    simp [openPayload, openDataPhase, h.frKind_idle hr, h1, h2, h3, h4, hc]
  rw [runActs_cons, act, opened]
  exact ⟨sent.framer (by simp [(dataPhase_pos cs ce rs re).ne']), rfl, rfl⟩

/-- `send_data`: one byte less is owed. -/
theorem data_leads {b : Byte} {n : Nat} (h : s.Active) (hr : s.frRem = n + 1) :
    (runSteps (dataSteps b) s).Leads fun t => Sent s t ∧ t.frRem = n ∧ (t.frKind ≠ .idle → t.frKind = s.frKind) := by
  have owed : s.frKind ≠ .idle := fun e => by have := h.framer.mp e; omega
  refine pair_leads h nofun fun sent => ?_
  rw [runActs_cons, act]
  obtain ⟨-, hk⟩ | ⟨-, -, h0⟩ | ⟨-, -, e⟩ := countOff_cases (record (.xfer b) (record (.dc .data) s))
  · exact absurd hk owed
  · simp [hr] at h0
  · rw [e]
    exact ⟨sent.framer (by simp [hr, owed]), by simp [hr], fun hk => if_neg fun h1 => hk (if_pos h1)⟩

/-- `send_data` for each byte of a payload. -/
theorem payload_leads {ds : List Byte} {n : Nat} (h : s.Active) (hr : s.frRem = ds.length + n) :
    (runSteps (ds.flatMap dataSteps) s).Leads fun t => Sent s t ∧ t.frRem = n := by
  induction ds generalizing s with
  | nil => exact ⟨.refl h, by simpa using hr⟩
  | cons d ds ih =>
    rw [List.flatMap_cons, runSteps_append]
    refine (data_leads (n := ds.length + n) h (by simp [hr]; omega)).andThen ?_
    rintro t ⟨sent, ht, -⟩
    exact (ih sent.active ht).mono fun u ⟨more, hu⟩ => ⟨sent.trans more, hu⟩

/-- `frame` of an opcode and its whole payload: nothing is owed. -/
theorem frame_leads {op : Byte} {ps : List Byte} (h : s.Active) (hr : s.frRem = 0) (hm : op ≠ s.cfg.opRamwr)
    (hl : payloadLen s.cfg op = some ps.length) :
    (runSteps (frameSteps op ps) s).Leads fun t => Sent s t ∧ t.frRem = 0 := by
  rw [frameSteps, runSteps_append]
  refine (command_leads h hr hm hl).andThen ?_
  rintro t ⟨sent, ht⟩
  exact (payload_leads (n := 0) sent.active ht).mono fun u ⟨more, hu⟩ => ⟨sent.trans more, hu⟩

/-! ### The address window and a frame (spec/42_address_window_adder.md R182; spec/44_frame_streamer.md R222) -/

theorem setWindow_leads {cs ce rs re : Word} (hw : s.cfg.wf = true) (h : s.Active) (hi : s.initState = .on)
    (hr : s.frRem = 0) (held : s.windowHeld) :
    (runSteps (setWindowSteps s.cfg cs ce rs re) s).Leads fun t => Sent { s with winValid := true } t ∧ t.frRem = 0 := by
  obtain ⟨-, -, -, -, -, lenC, lenR, -⟩ := payloadLen_wf hw
  obtain ⟨-, -, -, -, -, neC, neR, -⟩ := opcodes_ne hw
  rw [setWindowSteps, runSteps_append, casetSteps]
  refine (frame_leads (ps := rangePayload cs ce) h hr neC lenC).andThen ?_
  rintro t ⟨sent, ht⟩
  rw [runSteps_thenDo _ _ _ (by simp [rasetSteps, frameSteps, commandSteps]), rasetSteps]
  refine (frame_leads (ps := rangePayload rs re) sent.active ht (sent.cfg ▸ neR) (sent.cfg ▸ lenR)).andThen ?_
  rintro u ⟨more, hu⟩
  exact ⟨(sent.trans more).window hi held, hu⟩

/-- The window of a frame that `draw_check` passes lies on the panel. -/
theorem frameWindow_ok {c : Config} {f : Frame} (hw : c.wf = true) (hd : drawCheck c f = none) :
    windowOk c 0 (frameColEnd f) 0 (frameRowEnd f) = true := by
  obtain ⟨-, ⟨w1, w2, h1, h2⟩, -, -⟩ := drawCheck_none hd
  simp only [windowOk, rangeOk, frameColEnd_toNat hw hd, frameRowEnd_toNat hw hd, Bool.and_eq_true, decide_eq_true_eq]
  simp
  omega

/-- The data phase of such a frame's window is two bytes a pixel. -/
theorem dataPhase_frame {c : Config} {f : Frame} (hw : c.wf = true) (hd : drawCheck c f = none) :
    dataPhase 0 (frameColEnd f) 0 (frameRowEnd f) = 2 * (f.w * f.h) := by
  obtain ⟨-, ⟨w1, -, h1, -⟩, -, -⟩ := drawCheck_none hd
  have cols : f.w - 1 + 1 = f.w := by omega
  have rows : f.h - 1 + 1 = f.h := by omega
  simp [dataPhase, frameColEnd_toNat hw hd, frameRowEnd_toNat hw hd, cols, rows, Nat.mul_assoc]

/-- `set_window` has loaded a window that passes the window check. -/
theorem State.Active.loadWindow {cs ce rs re : Word} (h : s.Active) : (loadWindow cs ce rs re s).Active :=
  { h with
    window := nofun
    windowOn := nofun }

theorem loadWindow_windowHeld {cs ce rs re : Word} (hk : windowOk s.cfg cs ce rs re = true) :
    (loadWindow cs ce rs re s).windowHeld :=
  ⟨cs, ce, rs, re, rfl, rfl, rfl, rfl, hk⟩

/-- `draw_frame` from its loaded window: every byte of the data phase is sent. -/
theorem draw_leads {f : Frame} {samples : List ColorSample} (hw : s.cfg.wf = true) (h : s.Active) (hi : s.initState = .on)
    (hr : s.frRem = 0) (hd : drawCheck s.cfg f = none) (hs : frameSamples f = some samples) :
    (runSteps (drawSteps s.cfg f samples) (loadFrameWindow f s)).Leads fun t =>
      Sent { loadFrameWindow f s with winValid := true } t ∧ t.frRem = 0 := by
  have window := setWindow_leads (s := loadFrameWindow f s) (cs := 0) (ce := frameColEnd f) (rs := 0) (re := frameRowEnd f)
    hw h.loadWindow hi hr (loadWindow_windowHeld (frameWindow_ok hw hd))
  rw [drawSteps, runSteps_append, runSteps_append, Flow.andThen_assoc]
  refine window.andThen ?_
  rintro t ⟨sent, ht⟩
  have cfg : t.cfg = s.cfg := sent.cfg
  have opened := ramwr_leads sent.active ht sent.winCs sent.winCe sent.winRs sent.winRe (by simp)
  rw [cfg] at opened
  refine opened.andThen ?_
  rintro u ⟨more, -, hu⟩
  rw [dataPhase_frame hw hd] at hu
  rw [pixelSteps_flatMap]
  refine (payload_leads (n := 0) more.active ?_).mono fun v ⟨last, hv⟩ => ⟨(sent.trans more).trans last, hv⟩
  rw [hu, pixelBytes_length, frameSamples_length hs, Nat.add_zero]

end Sys2Proof.Machine
end

section
/-! ## O15: every step from a good state is refused or leads to a good state

One lemma for each request: its plan, from its acceptance in a sound state, leads to a good state. ANIMATE and the step of a block
that runs one share `State.AtPair.planBoundary_good`, the invariant of a frame boundary. -/

namespace Sys2Proof.Machine

variable {s t u : State}

/-! ### INIT (spec/41_display_init_fsm.md R152 to R158) -/

/-- From `s`, where no window is valid, the transitions made so far have led to `t`, `INIT_STATE` being `st`. -/
structure Staged (s : State) (st : InitState) (t : State) : Prop extends SameRequest s t where
  active : t.Active
  winValid : t.winValid = false
  frRem : t.frRem = 0
  initState : t.initState = st

theorem Staged.next {st : InitState} (h : Staged s st t) (k : Sent t u) (hr : u.frRem = 0) (st' : InitState) :
    Staged s st' { u with initState := st' } :=
  have invalid : u.winValid = false := k.winValid.trans h.winValid
  { h.toSameRequest.trans k.toSameRequest with
    active := { k.active with windowOn := fun hv => absurd (invalid.symm.trans hv) Bool.false_ne_true }
    winValid := invalid
    frRem := hr
    initState := rfl }

/-- A WAIT that completes a transition. -/
theorem Staged.wait {st st' : InitState} {ms : Nat} (h : Staged s st t) (k : Sent t u) (hr : u.frRem = 0) :
    (perform ⟨.wait ms, [.setInit st']⟩ u).Leads (Staged s st') :=
  perform_leads k.active rfl k.active.line fun sent => h.next (k.trans sent) hr st'

/-- A transition that is a command without payload and a WAIT. -/
theorem Staged.commandWait {st : InitState} (h : Staged s st t) {op : Byte} (hm : op ≠ s.cfg.opRamwr)
    (hl : payloadLen s.cfg op = some 0) (ms : Nat) (st' : InitState) :
    (runSteps (frameSteps op [] ++ [⟨.wait ms, [.setInit st']⟩]) t).Leads (Staged s st') := by
  rw [runSteps_append]
  refine (frame_leads h.active h.frRem (h.cfg ▸ hm) (h.cfg ▸ hl)).andThen ?_
  rintro u ⟨sent, hu⟩
  rw [runSteps_one]
  exact h.wait sent hu

/-- A transition that is a command with one payload byte. -/
theorem Staged.commandByte {st : InitState} (h : Staged s st t) {op : Byte} (hm : op ≠ s.cfg.opRamwr)
    (hl : payloadLen s.cfg op = some 1) (b : Byte) (st' : InitState) :
    (runSteps (thenDo (frameSteps op [b]) [.setInit st']) t).Leads (Staged s st') := by
  rw [runSteps_thenDo _ _ _ (by simp [frameSteps, commandSteps])]
  refine (frame_leads (ps := [b]) h.active h.frRem (h.cfg ▸ hm) (h.cfg ▸ hl)).andThen ?_
  rintro u ⟨sent, hu⟩
  exact h.next sent hu st'

/-- One more event that no register action follows. -/
theorem event_leads (ev : Event) (h : Sent s t) (hr : t.frRem = 0) (hev : releasedAfter ev false = false)
    (hl : disciplined t.cfg (ev :: t.log) = true) :
    (perform ⟨ev, []⟩ t).Leads fun u => Sent s u ∧ u.frRem = 0 :=
  perform_leads h.active hev hl fun sent => ⟨h.trans sent, hr⟩

/-- The reset pulse. -/
theorem Staged.resetPulse {st : InitState} (h : Staged s st t) (c : Config) :
    (runSteps (resetPulseSteps c) t).Leads (Staged s .resetting) := by
  simp only [resetPulseSteps, runSteps_cons]
  refine (event_leads (.rst .low) (.refl h.active) h.frRem rfl h.active.line).andThen fun v1 ⟨k1, r1⟩ => ?_
  refine (event_leads (.wait _) k1 r1 rfl k1.active.line).andThen fun v2 ⟨k2, r2⟩ => ?_
  refine (event_leads (.rst .high) k2 r2 rfl k2.active.line).andThen fun v3 ⟨k3, r3⟩ => ?_
  exact (h.wait k3 r3).andThen fun _ done => done

/-- The six transitions take an active block without a valid window to `On`. -/
theorem init_leads (hw : s.cfg.wf = true) (h : s.Active) (hv : s.winValid = false) (hr : s.frRem = 0) :
    (runSteps (initSteps s.cfg) s).Leads (Staged s .on) := by
  obtain ⟨len1, len2, len3, len4, len5, -, -, -⟩ := payloadLen_wf hw
  obtain ⟨ne1, ne2, ne3, ne4, ne5, -, -, -, -⟩ := opcodes_ne hw
  have start : Staged s s.initState s := ⟨.refl s, h, hv, hr, rfl⟩
  simp only [initSteps, runSteps_append (_ ++ _), runSteps_append (resetPulseSteps _), Flow.andThen_assoc]
  refine (start.resetPulse s.cfg).andThen fun _ s1 => ?_
  refine (s1.commandWait ne1 len1 _ _).andThen fun _ s2 => ?_
  refine (s2.commandWait ne2 len2 _ _).andThen fun _ s3 => ?_
  refine (s3.commandByte ne3 len3 _ _).andThen fun _ s4 => ?_
  refine (s4.commandByte ne4 len4 _ _).andThen fun _ s5 => ?_
  exact s5.commandWait ne5 len5 _ _

/-! ### The requests of one step -/

theorem emit_release (s : State) :
    emit .release s = if s.rstReads then .reset (record .release s) else .performed (record .release s) := by
  simp [emit, eventFails, Event.canFail]

theorem drawCheck_ne_ok {c : Config} {f : Frame} {code : ErrCode} (h : drawCheck c f = some code) : code ≠ .ok := by
  unfold drawCheck at h
  split_ifs at h <;> cases h <;> simp

/-- The plan, run to its end, leads to a good state. -/
def Plan.Good (p : Plan) : Prop := p.run.Leads State.Good

theorem Plan.Good.ite {c : Prop} [Decidable c] {p q : Plan} (hp : c → p.Good) (hq : ¬ c → q.Good) :
    (if c then p else q).Good := by
  split
  · exact hp ‹_›
  · exact hq ‹_›

theorem refuse_good (h : s.Sound) (ha : s.animActive = false) : (refuse s).Good := h.respond_good ha _ _

theorem fatal_good (h : s.Active) {code : ErrCode} (hc : code ≠ .ok) : (fatal code s).Good := by
  rw [Plan.Good, fatal_run]
  exact raise_good h hc

theorem takes_of_not_refuses (h : ¬ s.refuses = true) : s.takes := by simpa [State.refuses, State.takes] using h

/-- A request that has been refused where it had to be goes on from an active state. -/
theorem Plan.Good.check {p : Plan} (h : s.Sound) (ha : s.animActive = false) (hp : s.Active → p.Good) :
    (if s.refuses then Machine.refuse s else p).Good :=
  .ite (fun _ => refuse_good h ha) fun hr => hp (h.active (takes_of_not_refuses hr))

/-- A program whose last action is a response. -/
theorem Plan.Good.answering {Q : State → Prop} {p : Program} {st : Status} {v : Word} (hf : p.final = [.answer st v])
    (hp : (runSteps p.steps s).Leads Q) (hq : ∀ t, Q t → t.Sound ∧ t.animActive = false) : (Plan.todo s p).Good := by
  rw [Plan.Good, Plan.run_todo, hf]
  exact hp.andThen fun t ht => (hq t ht).1.respond_good (hq t ht).2 _ _

/-- A well-formed build where a request has been accepted that has no animation running. -/
structure State.Accepted (s : State) : Prop where
  wf : s.cfg.wf = true
  sound : s.Sound
  still : s.animActive = false

namespace State.Accepted

theorem sendCmd (h : s.Accepted) (op : Byte) : (planSendCmd op s).Good := by
  refine .check h.sound h.still fun ha => .ite (fun _ => fatal_good ha nofun) fun hi =>
    .ite (fun _ => fatal_good ha nofun) fun ho => .ite (fun _ => fatal_good ha nofun) fun hk =>
    .ite (fun _ => fatal_good ha nofun) fun hh => ?_
  obtain ⟨-, cs, ce, rs, re, h1, h2, h3, h4, hc⟩ := (hasWindow_iff s).mp (by simpa using hh)
  obtain rfl : op = s.cfg.opRamwr := not_not.mp ho
  refine .answering rfl (ramwr_leads ha (ha.framer.mp (not_not.mp hk)) h1 h2 h3 h4 hc) fun t ⟨sent, ht, _⟩ => ⟨?_, ?_⟩
  · have on : t.initState = .on := sent.initState.trans (not_not.mp hi)
    exact sent.active.sound (.inr on) fun _ => ⟨on, ht⟩
  · exact sent.animActive.trans h.still

theorem sendData (h : s.Accepted) (b : Byte) : (planSendData b s).Good := by
  refine .check h.sound h.still fun ha => .ite (fun _ => fatal_good ha nofun) fun hi =>
    .ite (fun _ => fatal_good ha nofun) fun hk => ?_
  obtain ⟨n, hn⟩ : ∃ n, s.frRem = n + 1 := Nat.exists_eq_succ_of_ne_zero fun h0 => hk (ha.framer.mpr h0)
  obtain ⟨-, stream⟩ := h.sound.closed ha.takes.1 hk
  refine .answering rfl (data_leads ha hn) fun t ⟨sent, _, ht⟩ => ⟨?_, sent.animActive.trans h.still⟩
  have on : t.initState = .on := sent.initState.trans (not_not.mp hi)
  exact sent.active.sound (.inr on) fun owed => ⟨on, (ht owed).trans stream⟩

theorem setWindow (h : s.Accepted) (cs ce rs re : Word) : (planSetWindow cs ce rs re s).Good := by
  refine .check h.sound h.still fun ha => .ite (fun _ => fatal_good ha nofun) fun hi =>
    .ite (fun _ => fatal_good ha nofun) fun hk => .ite (fun _ => fatal_good ha nofun) fun hh => ?_
  have on : s.initState = .on := not_not.mp hi
  refine .answering rfl (setWindow_leads (s := loadWindow cs ce rs re s) h.wf ha.loadWindow on (ha.framer.mp (not_not.mp hk))
    (loadWindow_windowHeld (by simpa using hh))) fun t ⟨sent, ht⟩ => ⟨?_, sent.animActive.trans h.still⟩
  exact sent.active.sound_of_on (sent.initState.trans on) ht


theorem init (h : s.Accepted) : (planInit s).Good := by
  have read : s.popTransport.Sound := { h.sound with }
  refine .check h.sound h.still fun ha => .ite (fun _ => fatal_good ha nofun) fun hi => .ite (fun _ => ?_) fun _ => ?_
  · exact fatal_good (read.active ha.takes) nofun
  · have off : s.initState = .unpowered := not_not.mp hi
    have invalid : s.winValid = false := by
      by_contra hv
      simpa [off] using ha.windowOn (by simpa using hv)
    have closed : s.frRem = 0 := ha.framer.mp (by
      by_contra hk
      simpa [off] using h.sound.closed ha.takes.1 hk)
    refine .answering rfl (init_leads (s := s.popTransport) h.wf (read.active ha.takes) invalid closed) fun t ht =>
      ⟨ht.active.sound_of_on ht.initState ht.frRem, ht.animActive.trans h.still⟩

theorem encode (h : s.Accepted) (r g b : Byte) : (planEncode r g b s).Good :=
  .check h.sound h.still fun _ => h.sound.respond_good h.still _ _

theorem readStatus (h : s.Accepted) : (planReadStatus s).Good := h.sound.respond_good h.still _ _

theorem reserved (h : s.Accepted) : (planReserved s).Good :=
  .check h.sound h.still fun ha => fatal_good ha nofun

/-- RELEASE cannot fail, so it leads to a released block unless block reset comes right after it. -/
theorem release (h : s.Accepted) : (planRelease s).Good := by
  have released : (record .release s).Sound :=
    { h.sound with
      haltedReleased := fun _ => rfl
      gram := record_gram_wf .release h.sound.gram
      line := h.sound.line }
  refine .check h.sound h.still fun _ => ?_
  refine .answering (Q := (· = record .release s)) rfl ?_ fun t ht => ht ▸ ⟨released, h.still⟩
  rw [releaseProgram, runSteps_one, perform, emit_release]
  cases s.rstReads with
  | true => exact blockReset_good (s := record .release s) h.sound.line
  | false => exact rfl

end State.Accepted

/-! ### Frames -/

/-- A frame that `draw_check` refuses takes the fault; of one that it passes every sample is there. -/
theorem planFrame_good {f : Frame} {mk : List ColorSample → Program} (h : s.Active)
    (hp : ∀ samples, drawCheck s.cfg f = none → frameSamples f = some samples →
      (Plan.todo (loadFrameWindow f s) (mk samples)).Good) : (planFrame f mk s).Good := by
  unfold planFrame
  cases hd : drawCheck s.cfg f with
  | some code => exact fatal_good h (drawCheck_ne_ok hd)
  | none =>
    obtain ⟨samples, hs⟩ := frameSamples_some hd
    simpa only [hs] using hp samples hd hs

theorem State.Accepted.drawFrame (h : s.Accepted) (f : Frame) : (planDrawFrame f s).Good := by
  refine .check h.sound h.still fun ha => .ite (fun _ => fatal_good ha nofun) fun hi =>
    .ite (fun _ => fatal_good ha nofun) fun hk => planFrame_good ha fun samples hd hs => ?_
  have on : s.initState = .on := not_not.mp hi
  refine .answering rfl (draw_leads h.wf ha on (ha.framer.mp (not_not.mp hk)) hd hs) fun t ⟨sent, ht⟩ =>
    ⟨?_, sent.animActive.trans h.still⟩
  exact sent.active.sound_of_on (sent.initState.trans on) ht

/-! ### The step pointer of an animation (spec/10_state.md R25, R26) -/

theorem seqEvents_take_succ {seq : List (Frame × Nat)} {i : Nat} {p : Frame × Nat} (h : seq[i]? = some p) :
    seqEvents (seq.take (i + 1)) = seqEvents (seq.take i) + pairEvents p := by
  simp [seqEvents, List.take_add_one, h]

theorem seqEvents_take_le (seq : List (Frame × Nat)) (i : Nat) : seqEvents (seq.take i) ≤ seqEvents seq := by
  have split : seqEvents seq = seqEvents (seq.take i) + seqEvents (seq.drop i) := by
    simp only [seqEvents, ← List.sum_append, ← List.map_append, List.take_append_drop]
  omega

/-- With the events of a pair done the pointer stands at the boundary of the next. -/
theorem pairOffset_next {seq : List (Frame × Nat)} {policy : Policy} {i ptr : Nat} {p : Frame × Nat} (hp : seq[i]? = some p)
    (h : pairOffset seq policy i ptr = 0) : pairOffset seq policy (i + 1) (ptr + pairEvents p) = 0 := by
  cases policy with
  | once =>
    simp only [pairOffset, seqEvents_take_succ hp] at h ⊢
    omega
  | repeating =>
    simp only [pairOffset, seqEvents_take_succ hp] at h ⊢
    rw [← h]
    congr 1
    omega

/-- Under REPEAT it stands, after the last pair, at the boundary of the first. -/
theorem pairOffset_wrap {seq : List (Frame × Nat)} {i ptr : Nat} {p : Frame × Nat} (hp : seq[i]? = some p)
    (hi : i + 1 = seq.length) (h : pairOffset seq .repeating i ptr = 0) :
    pairOffset seq .repeating 0 (ptr + pairEvents p) = 0 := by
  have total := seqEvents_take_succ hp
  rw [hi, List.take_length] at total
  have none : seqEvents (seq.take 0) = 0 := rfl
  simp only [pairOffset, none, Nat.sub_zero, Nat.add_mod_right] at h ⊢
  rw [← h]
  congr 1
  omega

theorem thenDo_length (gs : List EvStep) (as : List Act) : (thenDo gs as).length = gs.length := by
  induction gs with
  | nil => rfl
  | cons g gs ih =>
    cases gs with
    | nil => rfl
    | cons g' gs => simpa [thenDo] using ih

theorem dataSteps_flatMap_length (ds : List Byte) : (ds.flatMap dataSteps).length = 2 * ds.length := by
  induction ds with
  | nil => rfl
  | cons d ds ih => simp [dataSteps, ih]; omega

theorem frameSteps_length (op : Byte) (ps : List Byte) : (frameSteps op ps).length = 2 + 2 * ps.length := by
  rw [frameSteps, List.length_append, dataSteps_flatMap_length]
  rfl

theorem drawSteps_length {f : Frame} {samples : List ColorSample} (hs : frameSamples f = some samples) (c : Config) :
    (drawSteps c f samples).length = 22 + 4 * f.w * f.h := by
  simp only [drawSteps, setWindowSteps, casetSteps, rasetSteps, ramwrSteps, commandSteps, List.length_append, thenDo_length,
    frameSteps_length, pixelSteps_flatMap, dataSteps_flatMap_length, pixelBytes_length, frameSamples_length hs, rangePayload,
    List.length_cons, List.length_nil, Nat.mul_assoc]
  omega

theorem pairSteps_length {f : Frame} {samples : List ColorSample} (hs : frameSamples f = some samples) (c : Config) (d len : Nat)
    (policy : Policy) : (pairProgram c f d len policy samples).steps.length = pairEvents (f, d) := by
  simp [pairProgram, drawSteps_length hs, pairEvents]

/-! ### ANIMATE -/

/-- A well-formed build that stands at a frame boundary of the ANIMATE it runs. -/
structure State.AtPair (seq : List (Frame × Nat)) (policy : Policy) (s : State) : Prop where
  wf : s.cfg.wf = true
  active : s.Active
  initState : s.initState = .on
  frRem : s.frRem = 0
  busy : s.busy = true
  curReq : s.curReq = some (.animate seq policy)
  animActive : s.animActive = true
  index : s.animIdx < seq.length
  offset : pairOffset seq policy s.animIdx s.evPtr = 0

namespace State.AtPair

variable {seq : List (Frame × Nat)} {policy : Policy}

/-- Between two steps of the machine such a block is in a good state. -/
theorem good (h : s.AtPair seq policy) (hp : 0 < s.evPtr) : s.Good :=
  { h.active.sound_of_on h.initState h.frRem with
    idle := fun hb => absurd (hb.symm.trans h.busy) Bool.false_ne_true
    running := fun _ => ⟨⟨seq, policy, h.curReq, h.animActive, h.index, hp, h.offset⟩, h.initState,
      h.active.frKind_idle h.frRem, h.active.takes⟩ }

theorem of_good (g : s.Good) (hw : s.cfg.wf = true) (hb : s.busy = true) : ∃ seq policy, s.AtPair seq policy := by
  obtain ⟨⟨seq, policy, hq, ha, hx, -, ho⟩, hi, hk, ht⟩ := g.running hb
  exact ⟨seq, policy, hw, g.sound.active ht, hi, g.framer.mp hk, hb, hq, ha, hx, ho⟩

theorem popStop (h : s.AtPair seq policy) : s.popStop.AtPair seq policy := { h with active := { h.active with } }

/-- The pair has been drawn and waited for: its last register action leads to the next boundary or answers. -/
theorem pairDone_good (h : s.AtPair seq policy) {p : Frame × Nat} (hp : seq[s.animIdx]? = some p) (same : SameRequest s t)
    (ha : t.Active) (hi : t.initState = .on) (hr : t.frRem = 0) (hptr : t.evPtr = s.evPtr + pairEvents p) :
    (pairDone seq.length policy t).Good := by
  have boundary {n : Nat} (hn : n < seq.length) (ho : pairOffset seq policy n t.evPtr = 0) : { t with animIdx := n }.Good :=
    good
      { wf := same.cfg ▸ h.wf
        active := { ha with }
        initState := hi
        frRem := hr
        busy := same.busy.trans h.busy
        curReq := same.curReq.trans h.curReq
        animActive := same.animActive.trans h.animActive
        index := hn
        offset := ho }
      (by rw [hptr, pairEvents]; omega)
  have hlt := h.index
  unfold pairDone
  rw [same.animIdx]
  split
  next last =>
    cases policy with
    | once =>
      have sound : { t with animIdx := s.animIdx + 1, animActive := false }.Sound := { ha.sound_of_on hi hr with }
      exact sound.respond_good rfl _ _
    | repeating => exact boundary (by omega) (hptr ▸ pairOffset_wrap hp last h.offset)
  next more => exact boundary (by omega) (hptr ▸ pairOffset_next hp h.offset)

theorem planPairStart_good (h : s.AtPair seq policy) : (planPairStart seq policy s).Good := by
  obtain ⟨⟨f, d⟩, hp⟩ : ∃ p, seq[s.animIdx]? = some p := ⟨_, List.getElem?_eq_getElem h.index⟩
  simp only [planPairStart, hp]
  refine planFrame_good h.active fun samples hd hs => ?_
  have drawn : (runSteps (pairProgram s.cfg f d seq.length policy samples).steps (loadFrameWindow f s)).Leads fun t =>
      Sent { loadFrameWindow f s with winValid := true } t ∧ t.frRem = 0 := by
    rw [pairProgram, runSteps_append]
    refine (draw_leads h.wf h.active h.initState h.frRem hd hs).andThen fun t ⟨sent, ht⟩ => ?_
    rw [runSteps_one]
    exact perform_leads sent.active rfl sent.active.line fun wait => ⟨sent.trans wait, ht⟩
  refine (drawn.and_go fun t ht => (runSteps_go_log ht).2.1).andThen ?_
  rintro t ⟨⟨sent, ht⟩, hptr⟩
  rw [pairSteps_length hs] at hptr
  have same : SameRequest s t := { sent with }
  exact h.pairDone_good hp same sent.active (sent.initState.trans h.initState) ht hptr

/-- A frame boundary: the stop input ends the request, or its pair is drawn. -/
theorem planBoundary_good (h : s.AtPair seq policy) : (planBoundary seq policy s).Good := by
  have stopped : { s.popStop with animActive := false }.Sound := { h.active.sound_of_on h.initState h.frRem with }
  simp only [Plan.Good, planBoundary, Plan.run]
  split
  · exact stopped.respond_good rfl _ _
  · exact h.popStop.planPairStart_good

end State.AtPair

theorem State.Accepted.animate {seq : List (Frame × Nat)} {policy : Policy} (h : s.Accepted) (hb : s.busy = true)
    (hq : s.curReq = some (.animate seq policy)) (hp : s.evPtr = 0) : (planAnimate seq policy s).Good := by
  refine .check h.sound h.still fun ha => .ite (fun _ => fatal_good ha nofun) fun hi =>
    .ite (fun _ => fatal_good ha nofun) fun hk => .ite (fun _ => fatal_good ha nofun) fun hl => ?_
  refine State.AtPair.planBoundary_good
    { wf := h.wf
      active := { ha with }
      initState := not_not.mp hi
      frRem := ha.framer.mp (not_not.mp hk)
      busy := hb
      curReq := hq
      animActive := rfl
      index := Nat.pos_of_ne_zero hl
      offset := ?_ }
  cases policy <;> simp [pairOffset, hp, seqEvents]

/-! ### The step -/

/-- Bytes that decode as a request are a request: every branch of the decoder is an error, a reserved code or a `finish`. -/
theorem decodeRequest_level {bytes : List Byte} {i : Instr} (h : decodeRequest bytes = .ok i) : i.level = .request := by
  unfold decodeRequest decodeSetWindow decodeAnimate at h
  repeat' split at h
  all_goals grind [finish_ok, Instr.level]

theorem planStart_good {i : Instr} (hl : i.level = .request) (h : (accept i s).Accepted) : (planStart i (accept i s)).Good := by
  cases i with
  | init => exact h.init
  | sendCmd op => exact h.sendCmd op
  | sendData b => exact h.sendData b
  | setWindow cs ce rs re => exact h.setWindow cs ce rs re
  | encode r g b => exact h.encode r g b
  | drawFrame f => exact h.drawFrame f
  | animate seq policy => exact h.animate rfl rfl rfl
  | readStatus => exact h.readStatus
  | release => exact h.release
  | reserved0 | reservedA | reservedB | reservedC | reservedD | reservedE | reservedF => exact h.reserved
  | _ => simp [Instr.level] at hl

theorem planOf_atPair {seq : List (Frame × Nat)} {policy : Policy} (h : s.AtPair seq policy) :
    planOf s = planBoundary seq policy s := by
  simp [planOf, h.curReq, h.animActive, planRest, planPair, h.offset]

theorem resume_leads (g : s.Good) (hw : s.cfg.wf = true) (hb : s.busy = true) : (resume s.popRst).Leads State.Good := by
  obtain ⟨seq, policy, h⟩ := State.AtPair.of_good g hw hb
  have read : s.popRst.AtPair seq policy := { h with active := { h.active with } }
  rw [resume, planOf_atPair read]
  exact read.planBoundary_good

theorem exec_good {i : Instr} (g : s.Good) (hw : s.cfg.wf = true) (hb : s.busy = false) (rest : List (List Byte))
    (hl : i.level = .request) : ∃ t, exec i (s.popRst.withRequests rest) = .next t ∧ t.Good := by
  rw [exec_request _ _ hl]
  exact (planStart_good (s := s.popRst.withRequests rest) hl
    { wf := hw, sound := { g.sound with }, still := (g.idle hb).2 }).next

/-- Settles O15: a well-formed build that runs an ANIMATE goes on from a frame boundary (`resume_leads`), and an idle one that is
presented a request accepts it in a sound state (`exec_good`); a step that runs nothing is block reset, idling or a refusal. -/
theorem stepKeepsGoodStates : Obligations.StepKeepsGoodStates := by
  intro s g
  cases hw : s.cfg.wf with
  | false => exact .inl ⟨_, step_illFormed hw⟩
  | true =>
    cases hr : s.rstReads with
    | true => exact .inr ⟨_, step_reset hw hr, blockReset_good g.line⟩
    | false =>
      cases hb : s.busy with
      | true => exact .inr (step_running hw hr g.port hb ▸ (resume_leads g hw hb).next)
      | false =>
        cases hq : s.inputs.requests with
        | nil => exact .inr ⟨_, step_idle hw hr g.port hb hq, { g with }⟩
        | cons bytes rest =>
          cases hd : decodeRequest bytes with
          | error e => exact .inl ⟨_, step_undecodable_request hw hr g.port hb hq hd⟩
          | ok i => exact .inr (step_presented hw hr g.port hb hq hd ▸ exec_good g hw hb rest (decodeRequest_level hd))

end Sys2Proof.Machine
end

section
/-! ## O7, O16: what every update of the machine keeps -/

namespace Sys2Proof.Machine

/-- No update but the taking of a request writes what the host presents. -/
theorem keptByAll_requests (l : List (List Byte)) : KeptByAll fun s => s.inputs.requests = l where
  record _ _ h := h
  act a _ h := keeps_act a (fun _ _ _ => h) (fun _ => h) h (fun _ _ => (answers_pairDone _ _ _).requests.trans h) fun _ _ => h
  mark _ _ h := h
  respond _ _ _ h := h
  ptr _ _ h := h
  reset _ h := h
  accept _ _ h := h
  popTransport _ h := h
  popStop _ h := h
  popRst _ h := h
  loadWindow _ _ _ _ _ h := h
  active _ _ h := h
  index _ _ h := h

/-- Settles O7: the step of a busy block takes no request, and nothing it runs writes what is presented (`keptByAll_requests`). -/
theorem busyBlockLeavesRequestsPresented : Obligations.BusyBlockLeavesRequestsPresented := by
  intro s t hb e
  have kept := keptByAll_requests s.inputs.requests
  obtain ⟨-, ⟨-, rfl⟩ | ⟨-, ⟨-, idle, -, -⟩ | ⟨-, -, e⟩ | ⟨_, _, -, -, e⟩ | ⟨_, _, _, -, idle, -, -, -⟩⟩⟩ :=
    step_next_cases e
  · rfl
  · simp [hb] at idle
  · exact (kept.resume (s := s.popRst) rfl).next e
  · exact kept.exec (s := s.popRst.portTaken) rfl e
  · simp [hb] at idle

theorem pairDone_sameBus (len : Nat) (policy : Policy) (s : State) : SameBus s (pairDone len policy s) := by
  obtain ⟨t, e, same⟩ | ⟨f, e⟩ := act_keepsBus (.pairDone len policy) s <;> cases e
  exact same

/-- No update writes the configuration, and only events and block reset write GRAM's cells. -/
theorem keptByAll_cfg_gram (s : State) :
    KeptByAll fun t => t.cfg = s.cfg ∧ (s.panel.gram.wf = true → t.panel.gram.wf = true) where
  record ev _ h := ⟨h.1, fun wf => record_gram_wf ev (h.2 wf)⟩
  act a t h := keeps_act a (fun _ _ _ => h) (fun _ => h) h
    (fun len policy => have same := pairDone_sameBus len policy t; ⟨same.cfg.trans h.1, same.panel ▸ h.2⟩) fun _ _ => h
  mark _ _ h := h
  respond _ _ _ h := h
  ptr _ _ h := h
  reset _ h := ⟨h.1, fun _ => rfl⟩
  accept _ _ h := h
  popTransport _ h := h
  popStop _ h := h
  popRst _ h := h
  loadWindow _ _ _ _ _ h := h
  active _ _ h := h
  index _ _ h := h

/-- Settles O16: every update keeps both (`keptByAll_cfg_gram`). -/
theorem stepKeepsTheConfigurationAndTheCells : Obligations.StepKeepsTheConfigurationAndTheCells := fun s _ e =>
  (keptByAll_cfg_gram s).step (fun _ h => h) (fun _ _ h => h) ⟨rfl, id⟩ e

end Sys2Proof.Machine
end

section
/-! ## O18, O24: a halted or released block -/

namespace Sys2Proof.Machine

variable {s t : State}

theorem planStart_refuses {i : Instr} (hl : i.level = .request) (hi : i ≠ .readStatus) (h : s.refuses = true) :
    planStart i s = refuse s := by
  cases i with
  | readStatus => exact absurd rfl hi
  | swreset | slpout | colmod | madctl | dispon | caset | raset | ramwr => simp [Instr.level] at hl
  | _ => exact if_pos h

theorem exec_refuses {i : Instr} (hl : i.level = .request) (hi : i ≠ .readStatus) (h : s.refuses = true) :
    exec i s = .next (respond .refused 0 (accept i s)) := by
  rw [exec_request i s hl, planStart_refuses (s := accept i s) hl hi h]
  rfl

/-- Settles O24: the first check of every request but READ_STATUS. -/
theorem refusedWhenHaltedOrReleased : Obligations.RefusedWhenHaltedOrReleased := fun _ s hl hi h =>
  exec_refuses hl hi (by simpa [State.refuses] using h)

/-- A halted or released block only answers the requests it accepts. -/
theorem exec_answers_of_refuses {i : Instr} (hl : i.level = .request) (h : s.refuses = true) (e : exec i s = .next t) :
    ∃ st v, t = respond st v (accept i s) := by
  by_cases hi : i = .readStatus
  · subst hi
    cases e
    exact ⟨_, _, rfl⟩
  · rw [exec_refuses hl hi h] at e
    cases e
    exact ⟨_, _, rfl⟩

/-- The registers that are sticky until block reset, and the trace (spec/10_state.md R30, R31). -/
structure SameFault (s t : State) : Prop where
  halted : t.halted = s.halted
  err : t.err = s.err
  released : t.released = s.released
  log : t.log = s.log
  initState : t.initState = s.initState

theorem step_sameFault_of_refuses (g : s.Good) (hr : s.rstReads = false) (h : s.refuses = true) (e : step s = .next t) :
    SameFault s t := by
  obtain ⟨-, ⟨reset, -⟩ | ⟨-, ⟨-, -, -, rfl⟩ | ⟨-, busy, -⟩ | ⟨_, _, port, -, -⟩ | ⟨_, rest, i, -, -, -, hd, e⟩⟩⟩ :=
    step_next_cases e
  · simp [hr] at reset
  · exact ⟨rfl, rfl, rfl, rfl, rfl⟩
  · obtain ⟨-, -, -, nh, nr⟩ := g.running busy
    simp [State.refuses, nh, nr] at h
  · simp [g.port] at port
  · obtain ⟨st, v, rfl⟩ := exec_answers_of_refuses (s := s.popRst.withRequests rest) (decodeRequest_level hd) h e
    exact ⟨rfl, rfl, rfl, rfl, rfl⟩

/-- Settles O18: such a block idles or answers, so its step keeps every sticky register and the trace. -/
theorem haltedOrReleasedBlockStaysSo : Obligations.HaltedOrReleasedBlockStaysSo := by
  intro s t g hr e
  constructor
  · intro h
    have same := step_sameFault_of_refuses g hr (by simp [State.refuses, h]) e
    exact ⟨same.halted.trans h, same.err, same.released.trans (g.haltedReleased h), same.log, same.initState⟩
  · intro h
    have same := step_sameFault_of_refuses g hr (by simp [State.refuses, h]) e
    exact ⟨same.released.trans h, same.log⟩

end Sys2Proof.Machine
end

section
/-! ## O53: the STATUS word -/

namespace Sys2Proof.Machine

variable (s : State)

theorem flagBit_getLsbD (b : Bool) : (flagBit b).getLsbD 0 = b := by cases b <;> rfl

theorem statusWord_initState : (statusWord s).extractLsb' 0 3 = s.initState.code :=
  BitVec.extractLsb'_append_eq_right

theorem statusWord_halted : (statusWord s).getLsbD 3 = s.halted := by
  unfold statusWord
  simp only [BitVec.getLsbD_append]
  exact flagBit_getLsbD _

theorem statusWord_released : (statusWord s).getLsbD 4 = s.released := by
  unfold statusWord
  simp only [BitVec.getLsbD_append]
  exact flagBit_getLsbD _

theorem statusWord_winValid : (statusWord s).getLsbD 5 = s.winValid := by
  unfold statusWord
  simp only [BitVec.getLsbD_append]
  exact flagBit_getLsbD _

theorem statusWord_frKind : (statusWord s).extractLsb' 6 2 = s.frKind.code := by
  unfold statusWord
  simp (disch := omega) only [BitVec.extractLsb'_append_eq_of_le]
  exact BitVec.extractLsb'_append_eq_right

theorem statusWord_err : (statusWord s).extractLsb' 8 4 = s.err.code := by
  unfold statusWord
  simp (disch := omega) only [BitVec.extractLsb'_append_eq_of_le]
  exact BitVec.extractLsb'_append_eq_right

theorem statusWord_unused : (statusWord s).extractLsb' 12 4 = 0 := by
  unfold statusWord
  simp (disch := omega) only [BitVec.extractLsb'_append_eq_of_le]
  exact BitVec.extractLsb'_eq_self

theorem statusWord_blockReset : statusWord (blockReset s) = 0 := by
  simp only [statusWord, blockReset_err, blockReset_frKind, blockReset_winValid, blockReset_released, blockReset_halted,
    blockReset_initState]
  decide

theorem exec_readStatus : exec .readStatus s = .next (respond .ok (statusWord s) (accept .readStatus s)) := rfl

/-- Settles O53: one lemma for each field of STATUS, and the codes of the enumerated ones. -/
theorem statusWordShowsTheRegisters : Obligations.StatusWordShowsTheRegisters := by
  refine ⟨fun s => ⟨?_, statusWord_halted s, statusWord_released s, statusWord_winValid s, ?_, ?_, statusWord_err s,
    statusWord_unused s⟩, statusWord_blockReset, fun s => ⟨_, exec_readStatus s, rfl⟩⟩
  · rw [statusWord_initState]
    cases s.initState <;> rfl
  · rw [statusWord_frKind]
    cases s.frKind <;> rfl
  · rw [statusWord_err]
    cases s.err <;> rfl

end Sys2Proof.Machine
end

section
/-! ## O11: the step pointer names the next event (spec/10_state.md R25, R26)

`Plan.Pointed` says of a plan that its program is what is left of the request's whole program, and that a step pointer one event
further on names the rest. `planOf` gives such plans, and an event whose register actions give no response moves the pointer on by one
and no other register that says which request runs (`todo_next_inv`). -/

namespace Sys2Proof.Machine

variable {s t u v : State}

/-! ### One event of a program -/

theorem act_sameRequest {a : Act} (h : a.responds = false) (s : State) : (act a s).Keeps (SameRequest s) := by
  cases a with
  | openPayload op =>
    obtain ⟨f, e⟩ | ⟨k, n, e, -⟩ := openPayload_cases op s <;> rw [act, e]
    · trivial
    · exact ⟨rfl, rfl, rfl, rfl, rfl⟩
  | countOff =>
    obtain ⟨e, -⟩ | ⟨e, -⟩ | ⟨-, -, e⟩ := countOff_cases s <;> rw [act, e]
    · trivial
    · trivial
    · exact ⟨rfl, rfl, rfl, rfl, rfl⟩
  | setInit st => exact ⟨rfl, rfl, rfl, rfl, rfl⟩
  | windowSent => exact ⟨rfl, rfl, rfl, rfl, rfl⟩
  | pairDone len policy => cases h
  | answer st v => cases h

theorem runActs_sameRequest {as : List Act} (h : Silent as) (s : State) : (runActs as s).Keeps (SameRequest s) := by
  induction as generalizing s with
  | nil => exact .refl s
  | cons a as ih =>
    obtain ⟨ha, has⟩ := List.forall_mem_cons.mp h
    have first := act_sameRequest ha s
    rw [runActs_cons]
    cases e : act a s with
    | go t => rw [e] at first; exact (ih has t).mono fun _ => first.trans
    | ended t => rwa [e] at first
    | stuck f => trivial

/-- What an event that leaves more events to a program has done. -/
theorem todo_next_inv {p rest : Program} (hs : SilentSteps p.steps) (h : (Plan.todo u p).next = .todo v rest) :
    SameRequest u v ∧ v.evPtr = u.evPtr + 1 ∧ 1 < p.steps.length ∧ rest = ⟨p.steps.tail, p.final⟩ := by
  obtain ⟨_ | ⟨g, gs⟩, final⟩ := p
  · cases h
  obtain ⟨silent, -⟩ := (silentSteps_cons g gs).mp hs
  simp only [Plan.next] at h
  obtain e | e | e := emit_cases g.ev u <;> rw [e] at h
  · cases h
  · cases h
  dsimp only at h
  have same := runActs_sameRequest silent (record g.ev u)
  cases ha : runActs g.after (record g.ev u) with
  | ended t => rw [ha] at h; cases h
  | stuck f => rw [ha] at h; cases h
  | go t =>
    rw [ha] at h same
    cases gs with
    | nil => cases h
    | cons g' gs =>
      cases h
      have recorded : SameRequest u (record g.ev u) := ⟨rfl, rfl, rfl, rfl, rfl⟩
      exact ⟨recorded.trans same, (runActs_go ha).evPtr, by simp, rfl⟩

/-! ### Plans the step pointer names -/

/-- The program is the rest of a whole one, and a step pointer one event past `u`'s names what that event leaves of it. -/
def Program.Pointed (u : State) (p : Program) : Prop :=
  ∃ whole : Program, ∃ n, p = ⟨whole.steps.drop n, whole.final⟩ ∧
    ∀ v, SameRequest u v → v.evPtr = u.evPtr + 1 → n + 1 < whole.steps.length → planOf v = planDrop (n + 1) whole v

/-- So it is of the program that is next, at once or after a stop sample that reads false. -/
def Plan.Pointed : Plan → Prop
  | .todo u p => p.Pointed u
  | .sample _ _ go => go.Pointed
  | .trap _ _ => True
  | .reset _ => True
  | .closed _ => True

theorem planDrop_of_le {n : Nat} {p : Program} (h : n ≤ p.steps.length) (s : State) :
    planDrop n p s = .todo s ⟨p.steps.drop n, p.final⟩ := if_pos h

/-- After an event of such a program the pointer says what remains. -/
theorem Program.Pointed.next {p rest : Program} (h : p.Pointed u) (hs : SilentSteps p.steps)
    (e : (Plan.todo u p).next = .todo v rest) : planOf v = .todo v rest := by
  obtain ⟨whole, n, rfl, named⟩ := h
  obtain ⟨same, ptr, more, rfl⟩ := todo_next_inv hs e
  have hn : n + 1 < whole.steps.length := by
    simp only [List.length_drop] at more
    omega
  rw [named v same ptr hn, planDrop_of_le hn.le, List.tail_drop]

theorem planOf_of_evPtr {i : Instr} (hq : s.curReq = some i) (hp : s.evPtr ≠ 0) : planOf s = planRest i s := by
  simp [planOf, hq, hp]

/-- Program `whole` is request `i`'s: what is left of `i` is the rest of `whole`, counted by EV_PTR. -/
def Counts (i : Instr) (whole : Program) (u : State) : Prop :=
  u.curReq = some i ∧ ∀ v, SameRequest u v → planRest i v = planDrop v.evPtr whole v

theorem Counts.pointed {i : Instr} {whole : Program} (h : Counts i whole u) :
    Program.Pointed u ⟨whole.steps.drop u.evPtr, whole.final⟩ :=
  ⟨whole, u.evPtr, rfl, fun v same hp _ => by
    rw [planOf_of_evPtr (same.curReq.trans h.1) (by omega), h.2 v same, hp]⟩

namespace Plan.Pointed

theorem ite {c : Prop} [Decidable c] {p q : Plan} (hp : p.Pointed) (hq : q.Pointed) : (if c then p else q).Pointed := by
  split
  · exact hp
  · exact hq

theorem start {i : Instr} {whole : Program} (h : Counts i whole u) (hp : u.evPtr = 0) : (Plan.todo u whole).Pointed := by
  simpa [Plan.Pointed, hp] using h.pointed

theorem rest {i : Instr} {whole : Program} (h : Counts i whole u) : (planDrop u.evPtr whole u).Pointed :=
  ite h.pointed trivial

theorem planFrame {f : Frame} {mk : List ColorSample → Program}
    (h : ∀ samples, frameSamples f = some samples → (Plan.todo (loadFrameWindow f s) (mk samples)).Pointed) :
    (planFrame f mk s).Pointed := by
  unfold Machine.planFrame
  split
  · trivial
  · split
    · trivial
    next hs => exact h _ hs

theorem planDropFrame {n : Nat} {f : Frame} {mk : List ColorSample → Program}
    (h : ∀ samples, frameSamples f = some samples → (planDrop n (mk samples) s).Pointed) : (planDropFrame n f mk s).Pointed := by
  unfold Machine.planDropFrame
  split
  · trivial
  next hs => exact h _ hs

end Plan.Pointed

/-! ### The requests other than ANIMATE -/

theorem counts_init (hq : s.curReq = some .init) : Counts .init (initProgram s.cfg) s :=
  ⟨hq, fun v same => by rw [planRest, same.cfg]⟩

theorem counts_sendCmd {op : Byte} (hq : s.curReq = some (.sendCmd op)) : Counts (.sendCmd op) (sendCmdProgram op) s :=
  ⟨hq, fun _ _ => rfl⟩

theorem counts_sendData {b : Byte} (hq : s.curReq = some (.sendData b)) : Counts (.sendData b) (sendDataProgram b) s :=
  ⟨hq, fun _ _ => rfl⟩

theorem counts_setWindow {cs ce rs re : Word} (hq : s.curReq = some (.setWindow cs ce rs re)) :
    Counts (.setWindow cs ce rs re) (setWindowProgram s.cfg cs ce rs re) s :=
  ⟨hq, fun v same => by rw [planRest, same.cfg]⟩

theorem counts_drawFrame {f : Frame} {samples : List ColorSample} (hs : frameSamples f = some samples)
    (hq : s.curReq = some (.drawFrame f)) : Counts (.drawFrame f) (drawProgram s.cfg f samples) s :=
  ⟨hq, fun v same => by rw [planRest, planDropFrame, hs, same.cfg]⟩

theorem counts_release (hq : s.curReq = some .release) : Counts .release releaseProgram s := ⟨hq, fun _ _ => rfl⟩

/-! ### ANIMATE -/

/-- An event inside a pair moves the pointer on by one in the pair. -/
theorem pairOffset_succ {seq : List (Frame × Nat)} {policy : Policy} {i ptr : Nat} {p : Frame × Nat} (hp : seq[i]? = some p)
    (counted : policy = .once → seqEvents (seq.take i) ≤ ptr) (h : pairOffset seq policy i ptr + 1 < pairEvents p) :
    pairOffset seq policy i (ptr + 1) = pairOffset seq policy i ptr + 1 := by
  cases policy with
  | once =>
    have := counted rfl
    simp only [pairOffset]
    omega
  | repeating =>
    have before := seqEvents_take_succ hp
    have total := seqEvents_take_le seq (i + 1)
    have shift : ptr + 1 + seqEvents seq - seqEvents (seq.take i) = ptr + seqEvents seq - seqEvents (seq.take i) + 1 := by omega
    simp only [pairOffset] at h ⊢
    rw [shift, ← Nat.mod_add_mod, Nat.mod_eq_of_lt (by omega)]

/-- A running ANIMATE whose EV_PTR has counted the pairs before ANIM_IDX. -/
structure Animates (seq : List (Frame × Nat)) (policy : Policy) (s : State) : Prop where
  curReq : s.curReq = some (.animate seq policy)
  animActive : s.animActive = true
  counted : policy = .once → seqEvents (seq.take s.animIdx) ≤ s.evPtr

namespace Animates

variable {seq : List (Frame × Nat)} {policy : Policy}

theorem pointed {f : Frame} {d : Nat} {samples : List ColorSample} (h : Animates seq policy s)
    (hp : seq[s.animIdx]? = some (f, d)) (hs : frameSamples f = some samples) :
    Program.Pointed s ⟨(pairProgram s.cfg f d seq.length policy samples).steps.drop (pairOffset seq policy s.animIdx s.evPtr),
      (pairProgram s.cfg f d seq.length policy samples).final⟩ := by
  refine ⟨_, _, rfl, fun v same ptr more => ?_⟩
  rw [pairSteps_length hs] at more
  have offset := pairOffset_succ hp h.counted more
  rw [planOf_of_evPtr (same.curReq.trans h.curReq) (by omega), planRest, if_pos (same.animActive.trans h.animActive), planPair,
    same.animIdx, ptr, offset, if_neg (Nat.succ_ne_zero _), hp]
  simp only [planDropFrame, hs, same.cfg]

theorem planBoundary_pointed (h : Animates seq policy s) (ho : pairOffset seq policy s.animIdx s.evPtr = 0) :
    (planBoundary seq policy s).Pointed := by
  simp only [planBoundary, Plan.Pointed, planPairStart]
  split
  · trivial
  next f d hp =>
    have loaded : Animates seq policy (loadFrameWindow f s.popStop) := ⟨h.curReq, h.animActive, h.counted⟩
    refine Plan.Pointed.planFrame fun samples hs => ?_
    have first := loaded.pointed hp hs
    have atStart : pairOffset seq policy (loadFrameWindow f s.popStop).animIdx (loadFrameWindow f s.popStop).evPtr = 0 := ho
    rwa [atStart] at first

theorem planPair_pointed (h : Animates seq policy s) : (planPair seq policy s).Pointed := by
  unfold planPair
  split
  next ho => exact h.planBoundary_pointed ho
  · split
    · trivial
    next f d hp => exact Plan.Pointed.planDropFrame fun samples hs => .ite (h.pointed hp hs) trivial

end Animates

/-! ### Every request -/

theorem planStart_pointed {i : Instr} (hq : s.curReq = some i) (hp : s.evPtr = 0) : (planStart i s).Pointed := by
  cases i with
  | init => exact .ite trivial (.ite trivial (.ite trivial (.start (counts_init (s := s.popTransport) hq) hp)))
  | sendCmd op => exact .ite trivial (.ite trivial (.ite trivial (.ite trivial (.ite trivial (.start (counts_sendCmd hq) hp)))))
  | sendData b => exact .ite trivial (.ite trivial (.ite trivial (.start (counts_sendData hq) hp)))
  | setWindow cs ce rs re =>
    exact .ite trivial (.ite trivial (.ite trivial (.ite trivial
      (.start (counts_setWindow (s := loadWindow cs ce rs re s) hq) hp))))
  | drawFrame f =>
    exact .ite trivial (.ite trivial (.ite trivial (.planFrame fun samples hs =>
      .start (counts_drawFrame (s := loadFrameWindow f s) hs hq) hp)))
  | animate seq policy =>
    have begun : Animates seq policy { s with animActive := true, animIdx := 0 } := ⟨hq, rfl, fun _ => Nat.zero_le _⟩
    refine .ite trivial (.ite trivial (.ite trivial (.ite trivial (begun.planBoundary_pointed ?_))))
    cases policy <;> simp [pairOffset, hp, seqEvents]
  | release => exact .ite trivial (.start (counts_release hq) hp)
  | encode r g b => exact .ite trivial trivial
  | reserved0 | reservedA | reservedB | reservedC | reservedD | reservedE | reservedF => exact .ite trivial trivial
  | _ => trivial

theorem planRest_pointed {i : Instr} (hq : s.curReq = some i)
    (counted : ∀ seq, i = .animate seq .once → s.animActive = true → seqEvents (seq.take s.animIdx) ≤ s.evPtr) :
    (planRest i s).Pointed := by
  cases i with
  | init => exact .rest (counts_init hq)
  | sendCmd op => exact .rest (counts_sendCmd hq)
  | sendData b => exact .rest (counts_sendData hq)
  | setWindow cs ce rs re => exact .rest (counts_setWindow hq)
  | drawFrame f => exact .planDropFrame fun samples hs => .rest (counts_drawFrame hs hq)
  | animate seq policy =>
    rw [planRest]
    split
    next ha => exact Animates.planPair_pointed ⟨hq, ha, fun once => counted seq (once ▸ rfl) ha⟩
    · trivial
  | release => exact .rest (counts_release hq)
  | _ => trivial

theorem planOf_pointed {i : Instr} (hq : s.curReq = some i)
    (counted : ∀ seq, i = .animate seq .once → s.animActive = true → seqEvents (seq.take s.animIdx) ≤ s.evPtr) :
    (planOf s).Pointed := by
  simp only [planOf, hq]
  split
  next start => exact planStart_pointed hq start.1
  · exact planRest_pointed hq counted

/-- Settles O11: what `planOf` says remains is pointed at (`planOf_pointed`) and answers only after its last event
(`Plan.StartsFrom.planOf`), so the pointer after its next event says the rest. -/
theorem pointerNamesTheNextEvent : Obligations.PointerNamesTheNextEvent := by
  intro s u v i todo rest hq counted hplan hnext
  have pointed := planOf_pointed hq counted
  have starts := Plan.StartsFrom.planOf s
  obtain e | ⟨w, stop, e⟩ := hplan <;> rw [e] at pointed starts
  · obtain ⟨-, once⟩ := starts
    exact Program.Pointed.next pointed once.steps hnext
  · obtain ⟨-, -, -, once⟩ := starts
    exact Program.Pointed.next pointed once.steps hnext

end Sys2Proof.Machine
end

section
/-! ## O39: what SEND_DATA stores in GRAM (spec/20_memory.md R70) -/

namespace Sys2Proof.Machine

variable {s : State}

/-! ### The panel after a data byte -/

theorem panelData_outside {b : Byte} (hc : s.panel.cursor = none) : panelData s b = s.panel := by
  simp only [panelData, hc]

theorem panelData_first {b : Byte} {c r : Nat} (hc : s.panel.cursor = some (c, r)) (hh : s.panel.half = none) :
    panelData s b = { s.panel with half := some b } := by
  simp only [panelData, hc, hh]

theorem panelData_second {b hi : Byte} {c r : Nat} (hc : s.panel.cursor = some (c, r)) (hh : s.panel.half = some hi) :
    panelData s b = panelPair s c r hi b := by
  simp only [panelData, hc, hh]

theorem panelPair_window {cs ce re : Word} (h1 : s.winCs = some cs) (h2 : s.winCe = some ce) (h3 : s.winRe = some re)
    (c r : Nat) (hi lo : Byte) :
    panelPair s c r hi lo =
      if c < s.cfg.panelW ∧ r < s.cfg.panelH ∧ r ≤ re.toNat then
        ⟨some (advance cs ce c r), none, gramWrite s.panel.gram c r hi lo⟩
      else Panel.unknown := by
  simp only [panelPair, h1, h2, h3]

/-! ### The request -/

theorem planSendData_todo {b : Byte} (ht : s.takes) (hi : s.initState = .on) (hk : s.frKind ≠ .idle) :
    planSendData b s = .todo s (sendDataProgram b) := by
  simp [planSendData, State.refuses, ht.1, ht.2, hi, hk]

/-- SEND_DATA performed calmly inside an open command (spec/40_command_protocol_framer.md R126): a payload run of one byte. -/
theorem exec_sendData_calm {b : Byte} (ht : s.takes) (hi : s.initState = .on) (hk : s.frKind ≠ .idle) (hr : 0 < s.frRem)
    (h : s.calm 2 2) : exec (.sendData b) s = .next (respond .ok 0 (dataSent [b] (accept (.sendData b) s))) := by
  have todo : planStart (.sendData b) (accept (.sendData b) s) = .todo _ (sendDataProgram b) := planSendData_todo ht hi hk
  have sent : runSteps (dataSteps b) (accept (.sendData b) s) = .go (dataSent [b] (accept (.sendData b) s)) := by
    simpa using runSteps_payload (ds := [b]) (s := accept (.sendData b) s) hk hr hr h
  rw [exec_request _ _ rfl, todo, Plan.run_todo, sendDataProgram, sent]
  rfl

theorem exec_sendData_panel {b : Byte} {t : State} (ht : s.takes) (hi : s.initState = .on) (hk : s.frKind ≠ .idle)
    (hr : 0 < s.frRem) (h : s.calm 2 2) (e : exec (.sendData b) s = .next t) : t.panel = panelData s b := by
  rw [exec_sendData_calm ht hi hk hr h] at e
  cases e
  rfl

/-- Settles O39: the panel after SEND_DATA is the panel after its byte (`exec_sendData_panel`), and a pair stored by
`gramWrite` reads back where it was stored and nowhere else. -/
theorem sendDataStoresEachPair : Obligations.SendDataStoresEachPair := by
  intro b s t ht hi hk hr h e
  have panel := exec_sendData_panel ht hi hk hr h e
  refine ⟨fun hc => panel.trans (panelData_outside hc), fun c r hc hh => ?_,
    fun c r hi cs ce re hc hh h1 h2 h3 => ?_⟩
  · rw [panel, panelData_first hc hh]
    exact ⟨hc, rfl, fun _ => rfl⟩
  · rw [panel, panelData_second hc hh, panelPair_window h1 h2 h3]
    split
    · exact ⟨rfl, rfl, gramWrite_read_hi .., gramWrite_read_lo .., fun a => gramWrite_read_other _ _ _ a _ _⟩
    · rfl

end Sys2Proof.Machine
end

section
/-! ## O1: words written out by hand (spec/30_encoding.md R91, R95, R97) -/

namespace Sys2Proof

/-- Settles O1: every word is a literal, so each part is one closed run of the decoder. -/
theorem sampleWordsDecodeToTheirInstructions : Obligations.SampleWordsDecodeToTheirInstructions := by
  unfold Obligations.SampleWordsDecodeToTheirInstructions
  decide

end Sys2Proof
end

section
/-! ## O2: decoding what the encoder writes (spec/30_encoding.md R90)

The code in front picks the branch of the decoder: a request's is a literal, a command's an opcode that no other opcode equals.
In that branch every field's reader reads its writer's bytes back and the last leaves none. -/

namespace Sys2Proof

/-! ### Operands -/

/-- The last field's reader leaves nothing. -/
theorem ReadsBack.last {α : Type} {read : List Byte → Read α} {write : α → List Byte} (h : ReadsBack read write) (a : α) :
    read (write a) = .ok (a, []) := by
  simpa using h a []

theorem decodeSetWindow_back (cs ce rs re : Word) :
    decodeSetWindow (wordBytes cs ++ (wordBytes ce ++ (wordBytes rs ++ wordBytes re))) = .ok (.setWindow cs ce rs re) := by
  simp only [decodeSetWindow, readWord_back cs, readWord_back ce, readWord_back rs, readWord_back.last re, finish]

theorem decodeAnimate_back (seq : List (Frame × Nat)) (policy : Policy) :
    decodeAnimate (policyByte policy :: listBytes pairBytes seq) = .ok (.animate seq policy) := by
  simp only [decodeAnimate, readPolicy_back, (readList_back readPair_back).last seq, finish]

theorem decodeRange_back (mk : Word → Word → Instr) (start stop : Word) :
    decodeRange mk (wordBytes start ++ wordBytes stop) = .ok (mk start stop) := by
  simp only [decodeRange, readWord_back start, readWord_back.last stop, finish]

theorem finishPayload_same (i : Instr) (p : Byte) : finishPayload i p [p] = .ok i := by
  simp only [finishPayload, if_true, finish]

/-! ### Requests -/

theorem decodeRequest_drawFrame (f : Frame) : decodeRequest (0x06 :: frameBytes f) = .ok (.drawFrame f) := by
  simp only [decodeRequest, BitVec.reduceToNat, readFrame_back.last f, finish]

theorem decodeRequest_encode (cfg : Config) {i : Instr} (hl : i.level = .request) :
    decodeRequest (encode cfg i) = .ok i := by
  cases i with
  | init | readStatus | release => rfl
  | reserved0 | reservedA | reservedB | reservedC | reservedD | reservedE | reservedF => rfl
  | sendCmd op => rfl
  | sendData b => rfl
  | encode r g b => rfl
  | setWindow cs ce rs re => exact decodeSetWindow_back cs ce rs re
  | drawFrame f => exact decodeRequest_drawFrame f
  | animate seq policy => exact decodeAnimate_back seq policy
  | swreset | slpout | colmod | madctl | dispon | caset _ _ | raset _ _ | ramwr => cases hl

/-! ### Commands -/

theorem distinct_iff_nodup (l : List Byte) : distinct l = true ↔ l.Nodup := by
  induction l with
  | nil => simp [distinct]
  | cons b l ih => simp [distinct, ih]

/-- R12: no opcode equals one before it in the order of R95, the order in which the decoder compares. -/
theorem Config.wf_opcodes_pairwise {cfg : Config} (h : cfg.wf = true) : cfg.opcodes.Pairwise fun a b => ¬ b = a := by
  simp only [Config.wf, Bool.and_eq_true] at h
  obtain ⟨-, -, -, -, -, hd⟩ := h
  exact ((distinct_iff_nodup _).mp hd).imp Ne.symm

theorem decodeCommand_encode {cfg : Config} (hw : cfg.wf = true) {i : Instr} (hl : i.level = .command) :
    decodeCommand cfg (encode cfg i) = .ok i := by
  have later := Config.wf_opcodes_pairwise hw
  simp only [Config.opcodes, List.pairwise_cons, List.forall_mem_cons] at later
  cases i with
  | swreset | slpout | dispon | ramwr => simp [encode, decodeCommand, later, finish]
  | colmod | madctl => simp [encode, decodeCommand, later, finishPayload_same]
  | caset start stop | raset start stop => simp [encode, decodeCommand, later, decodeRange_back]
  | _ => cases hl

/-- Settles O2: at the instruction's own level, `decodeRequest_encode` or `decodeCommand_encode`. -/
theorem decodeReadsBackEveryEncoding : Obligations.DecodeReadsBackEveryEncoding := by
  intro cfg i hw
  cases hl : i.level with
  | request => exact decodeRequest_encode cfg hl
  | command => exact decodeCommand_encode hw hl

end Sys2Proof
end

section
/-! ## O28: the faults of SEND_CMD and SEND_DATA (spec/40_command_protocol_framer.md R125, R126)

A request that faults at its checks runs R305's fatal path from its acceptance (`exec_fatal`), so only its checks remain. -/

namespace Sys2Proof.Machine

variable {s : State}

/-- The fatal path of a block that has not released the bus, with no block reset at its RELEASE (spec/60_exceptions.md R305). -/
theorem raise_faulted {code : ErrCode} (hr : s.released = false) (h : quiet 1 s.inputs.rst = true) :
    raise code s = { faulted code (faultValue code) s.inputs s with evPtr := s.evPtr } := by
  have released : (markFatal code s).released = false := hr
  have reads : (markFatal code s).rstReads = false := (quiet_succ h).1
  rw [raise, releaseAndRespond, released, emit_release, reads]
  rfl

/-- A request whose checks take a fault before any event. -/
theorem exec_fatal {i : Instr} {code : ErrCode} (hl : i.level = .request) (ht : s.takes) (h : quiet 1 s.inputs.rst = true)
    (hp : planStart i (accept i s) = fatal code (accept i s)) :
    exec i s = .next (faulted code (faultValue code) s.inputs s) := by
  rw [exec_request i s hl, hp, fatal_run, raise_faulted (s := accept i s) ht.2 h]
  rfl

theorem refuses_of_takes (ht : s.takes) : s.refuses = false := by simp [State.refuses, ht.1, ht.2]

theorem planSendCmd_other {op : Byte} (ht : s.takes) (hi : s.initState = .on) (ho : op ≠ s.cfg.opRamwr) :
    planSendCmd op s = fatal .illegalRequest s := by
  simp [planSendCmd, refuses_of_takes ht, hi, ho]

theorem planSendCmd_outOfTurn (ht : s.takes) (hi : s.initState = .on) (h : s.frKind ≠ .idle ∨ s.hasWindow = false) :
    planSendCmd s.cfg.opRamwr s = fatal .protocol s := by
  by_cases hk : s.frKind = .idle
  · simp [planSendCmd, refuses_of_takes ht, hi, hk, h.resolve_left (not_not.mpr hk)]
  · simp [planSendCmd, refuses_of_takes ht, hi, hk]

theorem planSendCmd_todo (ht : s.takes) (hi : s.initState = .on) (hk : s.frKind = .idle) (hw : s.hasWindow = true) :
    planSendCmd s.cfg.opRamwr s = .todo s (sendCmdProgram s.cfg.opRamwr) := by
  simp [planSendCmd, refuses_of_takes ht, hi, hk, hw]

theorem planSendData_idle {b : Byte} (ht : s.takes) (hi : s.initState = .on) (hk : s.frKind = .idle) :
    planSendData b s = fatal .protocol s := by
  simp [planSendData, refuses_of_takes ht, hi, hk]

/-- There is no window where WIN_VALID = 0, or the window registers hold none or a reversed range. -/
theorem hasWindow_eq_false (h : s.winValid = false ∨ ∀ cs ce rs re, s.winCs = some cs → s.winCe = some ce →
    s.winRs = some rs → s.winRe = some re → ce.toNat < cs.toNat ∨ re.toNat < rs.toNat) : s.hasWindow = false := by
  refine Bool.eq_false_iff.mpr fun hw => ?_
  obtain ⟨hv, cs, ce, rs, re, h1, h2, h3, h4, hc, hr⟩ := (hasWindow_iff s).mp hw
  obtain invalid | reversed := h
  · simp [hv] at invalid
  · have := reversed cs ce rs re h1 h2 h3 h4
    omega

/-- Settles O28: each clause is the fault its checks come to, taken before any event (`exec_fatal`). -/
theorem rawRequestFaults : Obligations.RawRequestFaults := by
  intro op b s ht hi h
  refine ⟨fun ho => ?_, fun ho out => ?_, fun hk => ?_⟩
  · exact exec_fatal rfl ht h (planSendCmd_other (s := accept (.sendCmd op) s) ht hi ho)
  · subst ho
    have out : s.frKind ≠ .idle ∨ s.hasWindow = false := out.imp_right fun hv => hasWindow_eq_false (.inl hv)
    exact exec_fatal rfl ht h (planSendCmd_outOfTurn (s := accept (.sendCmd s.cfg.opRamwr) s) ht hi out)
  · exact exec_fatal rfl ht h (planSendData_idle (s := accept (.sendData b) s) ht hi hk)

end Sys2Proof.Machine
end

section
/-! ## O36: a command sent whole (spec/40_command_protocol_framer.md R127) -/

namespace Sys2Proof.Machine

variable {s : State}

/-- An opcode other than RAMWR closes the memory write; a half pair or SWRESET leaves nothing known (log 14). -/
theorem panelOpcode_of_ne_ramwr {op : Byte} (hm : op ≠ s.cfg.opRamwr) :
    panelOpcode s op =
      if s.panel.half = none ∧ op ≠ s.cfg.opSwreset then ⟨none, none, s.panel.gram⟩ else Panel.unknown := by
  unfold panelOpcode
  cases s.panel.half with
  | none => by_cases ho : op = s.cfg.opSwreset <;> simp [ho, hm]
  | some b => simp

/-- Settles O36: the run is `runSteps_frameSteps`, and the panel is that after the opcode. -/
theorem frameSendsACommandWhole : Obligations.FrameSendsACommandWhole := by
  intro op payload s hk hm hl h
  refine ⟨panelOpcode s op, runSteps_frameSteps hk hm hl h, ?_⟩
  rw [panelOpcode_of_ne_ramwr hm]
  split
  · exact ⟨rfl, rfl, fun _ => rfl⟩
  · exact ⟨rfl, rfl, fun _ => rfl⟩

end Sys2Proof.Machine
end

section
/-! ## O37: SEND_CMD RAMWR (spec/40_command_protocol_framer.md R125) -/

namespace Sys2Proof.Machine

variable {s : State} {cs ce rs re : Word}

/-- The obligation of RAMWR over a window (spec/40_command_protocol_framer.md R121). -/
theorem openPayload_ramwr (hk : s.frKind = .idle) (h1 : s.winCs = some cs) (h2 : s.winCe = some ce) (h3 : s.winRs = some rs)
    (h4 : s.winRe = some re) (hc : cs.toNat ≤ ce.toNat ∧ rs.toNat ≤ re.toNat) :
    openPayload s.cfg.opRamwr s = .go { s with frKind := .stream, frRem := dataPhase cs ce rs re } := by
  simp [openPayload, openDataPhase, hk, h1, h2, h3, h4, hc]

/-- The state after RAMWR's opcode sent calmly over a window. -/
def ramwrSent (cs ce rs re : Word) (s : State) : State :=
  { pairSent .cmd s.cfg.opRamwr (panelOpcode s s.cfg.opRamwr) s with
    frKind := .stream, frRem := dataPhase cs ce rs re }

theorem runSteps_ramwr (hk : s.frKind = .idle) (h1 : s.winCs = some cs) (h2 : s.winCe = some ce) (h3 : s.winRs = some rs)
    (h4 : s.winRe = some re) (hc : cs.toNat ≤ ce.toNat ∧ rs.toNat ≤ re.toNat) (h : s.calm 2 2) :
    runSteps (commandSteps s.cfg.opRamwr) s = .go (ramwrSent cs ce rs re s) := by
  rw [runSteps_commandSteps h]
  exact openPayload_ramwr (s := pairSent .cmd s.cfg.opRamwr _ s) hk h1 h2 h3 h4 hc

/-- Under ORIENT 0 RAMWR puts the panel's cursor at the window's first pixel (spec/20_memory.md R70). -/
theorem panelOpcode_ramwr (hw : s.cfg.wf = true) (hh : s.panel.half = none) (ho : s.cfg.orient = 0) (h1 : s.winCs = some cs)
    (h3 : s.winRs = some rs) : panelOpcode s s.cfg.opRamwr = ⟨some (cs.toNat, rs.toNat), none, s.panel.gram⟩ := by
  simp [panelOpcode, hh, ho, h1, h3, Ne.symm (opcodes_ne hw).1]

/-- After a half pair, or under another ORIENT, RAMWR leaves nothing known (log 14). -/
theorem panelOpcode_ramwr_unknown (h : s.panel.half ≠ none ∨ s.cfg.orient ≠ 0) :
    panelOpcode s s.cfg.opRamwr = Panel.unknown := by
  unfold panelOpcode
  obtain hh | ho := h
  · rw [if_pos (.inl (Option.isSome_iff_ne_none.mpr hh))]
  · rw [if_pos rfl, if_neg ho, ite_self]

/-- SEND_CMD RAMWR performed calmly over a window. -/
theorem exec_sendCmd_ramwr (hs : s.ready) (hv : s.winValid = true) (h1 : s.winCs = some cs) (h2 : s.winCe = some ce)
    (h3 : s.winRs = some rs) (h4 : s.winRe = some re) (hc : cs.toNat ≤ ce.toNat ∧ rs.toNat ≤ re.toNat) (h : s.calm 2 2) :
    exec (.sendCmd s.cfg.opRamwr) s =
      .next (respond .ok 0 (ramwrSent cs ce rs re (accept (.sendCmd s.cfg.opRamwr) s))) := by
  obtain ⟨ht, hi, hk⟩ := hs
  have window : s.hasWindow = true := (hasWindow_iff s).mpr ⟨hv, cs, ce, rs, re, h1, h2, h3, h4, hc⟩
  have todo : planStart (.sendCmd s.cfg.opRamwr) (accept (.sendCmd s.cfg.opRamwr) s) = .todo _ (sendCmdProgram s.cfg.opRamwr) :=
    planSendCmd_todo (s := accept (.sendCmd s.cfg.opRamwr) s) ht hi hk window
  have sent : runSteps (commandSteps s.cfg.opRamwr) (accept (.sendCmd s.cfg.opRamwr) s) = _ :=
    runSteps_ramwr (s := accept (.sendCmd s.cfg.opRamwr) s) hk h1 h2 h3 h4 hc h
  rw [exec_request _ _ rfl, todo, Plan.run_todo, sendCmdProgram, sent]
  rfl

/-- Settles O37: the request is `exec_sendCmd_ramwr`, and the panel is that after RAMWR's opcode. -/
theorem sendCmdOpensTheDataPhase : Obligations.SendCmdOpensTheDataPhase := by
  intro cs ce rs re s hs hv h1 h2 h3 h4 hc hr h
  refine ⟨panelOpcode s s.cfg.opRamwr, ?_, fun hw hh ho => panelOpcode_ramwr hw hh ho h1 h3, panelOpcode_ramwr_unknown⟩
  rw [exec_sendCmd_ramwr hs hv h1 h2 h3 h4 ⟨hc, hr⟩ h, ramwrSent, dataPhase, Nat.mul_assoc]
  rfl

end Sys2Proof.Machine
end

section
/-! ## O38: SEND_DATA inside an open command (spec/40_command_protocol_framer.md R126) -/

namespace Sys2Proof.Machine

/-- Settles O38: a payload run of one byte (`exec_sendData_calm`). -/
theorem sendDataCountsTheByteOff : Obligations.SendDataCountsTheByteOff :=
  fun b s ht hi hk hr h => ⟨panelData s b, exec_sendData_calm ht hi hk hr h⟩

end Sys2Proof.Machine
end

section
/-! ## O20: line discipline (spec/40_command_protocol_framer.md R123)

A run that is cut leaves a part of its whole trace, with at most the fatal path's RELEASE after it (`runSteps_cutLog`). A disciplined trace
stays so when its newest events are left out, so only the whole trace of each request's program has to be looked at. -/

namespace Sys2Proof.Machine

variable {s t : State} {c : Config}

/-! ### Cut traces -/

/-- The events of a program's steps, newest first, as the log holds them. -/
def stepsLog (gs : List EvStep) : List Event := (gs.map fun g => g.ev).reverse

@[simp] theorem stepsLog_append (gs hs : List EvStep) : stepsLog (gs ++ hs) = stepsLog hs ++ stepsLog gs := by
  simp [stepsLog]

/-- The log is a part of `l` without its newest events, but for a RELEASE of the fatal path. -/
def CutLog (l : List Event) (t : State) : Prop := ∃ m, m <:+ l ∧ (t.log = m ∨ t.log = .release :: m)

/-- The fatal path emits at most RELEASE (spec/60_exceptions.md R305). -/
theorem releaseAndRespond_log (code : ErrCode) (s : State) :
    (releaseAndRespond code s).log = s.log ∨ (releaseAndRespond code s).log = .release :: s.log := by
  unfold releaseAndRespond
  split
  · exact .inl rfl
  · obtain e | e | e := emit_cases .release s <;> rw [e] <;> exact .inr rfl

theorem releaseAndRespond_cutLog (code : ErrCode) (s : State) : CutLog s.log (releaseAndRespond code s) :=
  ⟨s.log, List.suffix_rfl, releaseAndRespond_log code s⟩

/-- However a run of event steps comes out, the trace is its whole trace cut. -/
theorem runSteps_cutLog (gs : List EvStep) (s : State) : (runSteps gs s).Keeps (CutLog (stepsLog gs ++ s.log)) := by
  cases e : runSteps gs s with
  | go t => exact ⟨_, List.suffix_rfl, .inl (runSteps_go_log e).1⟩
  | stuck f => trivial
  | ended t =>
    obtain ⟨pre, g, post, u, rfl, through, cut⟩ := runSteps_ended e
    have log : (record g.ev u).log = g.ev :: (stepsLog pre ++ s.log) := congrArg _ (runSteps_go_log through).1
    refine ⟨(record g.ev u).log, log ▸ ⟨stepsLog post, by simp [stepsLog]⟩, ?_⟩
    obtain ⟨-, rfl⟩ | ⟨-, -, rfl⟩ := cut
    · exact .inl rfl
    · exact releaseAndRespond_log _ (markFatal _ _)

/-! ### Disciplined traces -/

/-- The newest event can be left out of a disciplined trace. -/
theorem disciplined_tail {ev : Event} {l : List Event} (h : disciplined c (ev :: l) = true) : disciplined c l = true := by
  cases ev with
  | xfer b =>
    match l with
    | .dc .cmd :: l => exact (Bool.and_eq_true_iff.mp h).2
    | .dc .data :: l => exact h
  | _ => exact h

theorem disciplined_of_suffix {m l : List Event} (hm : m <:+ l) (h : disciplined c l = true) : disciplined c m = true := by
  obtain ⟨newer, rfl⟩ := hm
  induction newer with
  | nil => exact h
  | cons ev newer ih => exact ih (disciplined_tail h)

theorem CutLog.inLine {l : List Event} (ht : CutLog l t) (h : disciplined c l = true) : disciplined c t.log = true := by
  obtain ⟨m, hm, log⟩ := ht
  have part : disciplined c m = true := disciplined_of_suffix hm h
  obtain log | log := log <;> rw [log] <;> exact part

/-- Event steps whose whole trace keeps line discipline. -/
def InLine (c : Config) (gs : List EvStep) : Prop :=
  ∀ l, disciplined c l = true → disciplined c (stepsLog gs ++ l) = true

theorem InLine.append {gs hs : List EvStep} (hg : InLine c gs) (hh : InLine c hs) : InLine c (gs ++ hs) := fun l h => by
  rw [stepsLog_append, List.append_assoc]
  exact hh _ (hg l h)

theorem InLine.flatMap {α : Type} {f : α → List EvStep} (h : ∀ a, InLine c (f a)) (l : List α) : InLine c (l.flatMap f) := by
  induction l with
  | nil => exact fun _ h => h
  | cons a l ih => exact (h a).append ih

theorem stepsLog_thenDo (gs : List EvStep) (as : List Act) : stepsLog (thenDo gs as) = stepsLog gs := by
  suffices (thenDo gs as).map (fun g => g.ev) = gs.map fun g => g.ev from congrArg List.reverse this
  induction gs with
  | nil => rfl
  | cons g gs ih =>
    cases gs with
    | nil => rfl
    | cons g' gs => exact congrArg (g.ev :: ·) ih

theorem InLine.thenDo {gs : List EvStep} (h : InLine c gs) (as : List Act) : InLine c (thenDo gs as) := fun l hl => by
  rw [stepsLog_thenDo]
  exact h l hl

theorem inLine_wait (ms : Nat) (as : List Act) : InLine c [⟨.wait ms, as⟩] := fun _ h => h

theorem inLine_command {op : Byte} (h : op ∈ c.opcodes) : InLine c (commandSteps op) := fun l hl => by
  simp [stepsLog, commandSteps, disciplined, h, hl]

theorem inLine_data (b : Byte) : InLine c (dataSteps b) := fun _ h => h

theorem inLine_frame {op : Byte} (h : op ∈ c.opcodes) (payload : List Byte) : InLine c (frameSteps op payload) :=
  (inLine_command h).append (.flatMap inLine_data _)

theorem inLine_setWindow (c : Config) (cs ce rs re : Word) : InLine c (setWindowSteps c cs ce rs re) :=
  (inLine_frame (by simp [Config.opcodes]) _).append ((inLine_frame (by simp [Config.opcodes]) _).thenDo _)

theorem inLine_draw (c : Config) (f : Frame) (samples : List ColorSample) : InLine c (drawSteps c f samples) :=
  ((inLine_setWindow c _ _ _ _).append (inLine_command (by simp [Config.opcodes]))).append
    (.flatMap (fun _ => (inLine_data _).append (inLine_data _)) _)

theorem inLine_init (c : Config) : InLine c (initSteps c) := by
  have pulse : InLine c (resetPulseSteps c) := fun _ h => h
  have command {op : Byte} (h : op ∈ c.opcodes) (ms : Nat) (as : List Act) :
      InLine c (frameSteps op [] ++ [⟨.wait ms, as⟩]) := (inLine_frame h []).append (inLine_wait ms as)
  have byte {op : Byte} (h : op ∈ c.opcodes) (b : Byte) (as : List Act) : InLine c (thenDo (frameSteps op [b]) as) :=
    (inLine_frame h [b]).thenDo as
  exact ((((pulse.append (command (by simp [Config.opcodes]) _ _)).append (command (by simp [Config.opcodes]) _ _)).append
    (byte (by simp [Config.opcodes]) _ _)).append (byte (by simp [Config.opcodes]) _ _)).append
    (command (by simp [Config.opcodes]) _ _)

/-! ### Plans -/

/-- What remains keeps line discipline: the trace so far has it, and every program's events have it together. -/
def Plan.InLine (c : Config) : Plan → Prop
  | .todo s p => disciplined c s.log = true ∧ Machine.InLine c p.steps
  | .sample _ stop go => stop.InLine c ∧ go.InLine c
  | .trap _ s => disciplined c s.log = true
  | .reset s => disciplined c s.log = true
  | .closed f => f.Keeps fun s => disciplined c s.log = true

theorem Plan.InLine.run {p : Plan} (h : p.InLine c) : p.run.Keeps fun t => disciplined c t.log = true := by
  induction p with
  | todo s p =>
    refine Flow.Keeps.andThen ((runSteps_cutLog p.steps s).mono fun t cut => cut.inLine (h.2 _ h.1)) fun t ht => ?_
    obtain ⟨u, e, same⟩ | ⟨f, e⟩ := runActs_keepsBus p.final t <;> rw [e]
    · exact (congrArg (disciplined c) same.log).trans ht
    · trivial
  | sample s stop go ihs ihg =>
    unfold Plan.run
    split
    · exact ihs h.1
    · exact ihg h.2
  | trap code s => exact (releaseAndRespond_cutLog code s).inLine h
  | reset s => exact h
  | closed f => exact h

namespace Plan.InLine

theorem ite {b : Prop} [Decidable b] {p q : Plan} (hp : p.InLine c) (hq : q.InLine c) : (if b then p else q).InLine c := by
  split
  · exact hp
  · exact hq

variable (h : disciplined s.cfg s.log = true)
include h

theorem refuse : (refuse s).InLine s.cfg := h

theorem fatal (code : ErrCode) : (fatal code s).InLine s.cfg := h

theorem planFrame (f : Frame) {mk : List ColorSample → Program} (hmk : ∀ samples, Machine.InLine s.cfg (mk samples).steps) :
    (planFrame f mk s).InLine s.cfg := by
  unfold Machine.planFrame
  split
  · exact fatal h _
  · split
    · trivial
    · exact ⟨h, hmk _⟩

theorem planPairStart (seq : List (Frame × Nat)) (policy : Policy) : (planPairStart seq policy s).InLine s.cfg := by
  unfold Machine.planPairStart
  split
  · trivial
  · exact planFrame h _ fun samples => (inLine_draw _ _ samples).append (inLine_wait _ _)

theorem planBoundary (seq : List (Frame × Nat)) (policy : Policy) : (planBoundary seq policy s).InLine s.cfg :=
  ⟨h, planPairStart (s := s.popStop) h seq policy⟩

theorem planInit : (planInit s).InLine s.cfg :=
  ite (refuse h) (ite (fatal h _) (ite (fatal (s := s.popTransport) h _) ⟨h, inLine_init _⟩))

theorem planSendData (b : Byte) : (planSendData b s).InLine s.cfg :=
  ite (refuse h) (ite (fatal h _) (ite (fatal h _) ⟨h, inLine_data b⟩))

/-- Only RAMWR is sent on request. -/
theorem planSendCmd (op : Byte) : (planSendCmd op s).InLine s.cfg := by
  refine ite (refuse h) (ite (fatal h _) ?_)
  split
  · exact fatal h _
  next ho =>
    obtain rfl : op = s.cfg.opRamwr := not_not.mp ho
    exact ite (fatal h _) (ite (fatal h _) ⟨h, inLine_command (by simp [Config.opcodes])⟩)

theorem planSetWindow (cs ce rs re : Word) : (planSetWindow cs ce rs re s).InLine s.cfg :=
  ite (refuse h) (ite (fatal h _) (ite (fatal h _) (ite (fatal h _) ⟨h, inLine_setWindow _ _ _ _ _⟩)))

theorem planDrawFrame (f : Frame) : (planDrawFrame f s).InLine s.cfg :=
  ite (refuse h) (ite (fatal h _) (ite (fatal h _) (planFrame h f (inLine_draw _ f))))

theorem planAnimate (seq : List (Frame × Nat)) (policy : Policy) : (planAnimate seq policy s).InLine s.cfg :=
  ite (refuse h) (ite (fatal h _) (ite (fatal h _) (ite (fatal h _)
    (planBoundary (s := { s with animActive := true, animIdx := 0 }) h seq policy))))

theorem planRelease : (planRelease s).InLine s.cfg := ite (refuse h) ⟨h, fun _ hl => hl⟩

theorem planStart (i : Instr) : (planStart i s).InLine s.cfg := by
  cases i with
  | init => exact planInit h
  | sendCmd op => exact planSendCmd h op
  | sendData b => exact planSendData h b
  | setWindow cs ce rs re => exact planSetWindow h cs ce rs re
  | encode r g b => exact ite (refuse h) h
  | drawFrame f => exact planDrawFrame h f
  | animate seq policy => exact planAnimate h seq policy
  | readStatus => exact h
  | release => exact planRelease h
  | reserved0 | reservedA | reservedB | reservedC | reservedD | reservedE | reservedF => exact ite (refuse h) (fatal h _)
  | _ => trivial

end Plan.InLine

/-- Settles O20: the plan of every request keeps line discipline (`Plan.InLine.planStart`), cut or not (`Plan.InLine.run`). -/
theorem requestsKeepLineDiscipline : Obligations.RequestsKeepLineDiscipline := by
  intro i s t hl h e
  rw [exec_request i s hl] at e
  exact (Plan.InLine.planStart (s := accept i s) h i).run.next e

end Sys2Proof.Machine
end

section
/-! ## O60: no instruction stops the model

A run that is stuck would be stuck with nothing failing and no block reset too (`runSteps_undisturbed`), and there the calm runs
of each event sequence go through (`runSteps_unstuck`). -/

namespace Sys2Proof.Machine

variable {s t : State}

/-! ### Flows that do not stop the model -/

/-- The model does not stop, and where the flow goes on `Q` holds. -/
def Flow.Unstuck (Q : State → Prop) : Flow → Prop
  | .go s => Q s
  | .ended _ => True
  | .stuck _ => False

theorem Flow.Unstuck.andThen {Q R : State → Prop} {f : Flow} {k : State → Flow} (hf : f.Unstuck Q)
    (hk : ∀ s, Q s → (k s).Unstuck R) : (f.andThen k).Unstuck R := by
  cases f with
  | go s => exact hk s hf
  | ended s => trivial
  | stuck f => exact hf

theorem Flow.Unstuck.mono {Q R : State → Prop} {f : Flow} (hf : f.Unstuck Q) (h : ∀ s, Q s → R s) : f.Unstuck R := by
  cases f with
  | go s => exact h s hf
  | ended s => trivial
  | stuck f => exact hf

theorem Flow.Unstuck.next {Q : State → Prop} {f : Flow} (h : f.Unstuck Q) : ∃ t, f.toOutcome = .next t := by
  cases f with
  | go s => exact ⟨s, rfl⟩
  | ended s => exact ⟨s, rfl⟩
  | stuck f => exact h.elim

/-- A run that goes through undisturbed does not stop the model, and comes to the same where it goes through. -/
theorem runSteps_unstuck {gs : List EvStep} (h : runSteps gs s.undisturbed = .go t) :
    (runSteps gs s).Unstuck fun u => u.undisturbed = t := by
  cases e : runSteps gs s with
  | go u =>
    rw [runSteps_undisturbed (by simp [e]), e] at h
    injection h
  | ended u => trivial
  | stuck f =>
    rw [runSteps_undisturbed (by simp [e]), e] at h
    cases h

/-- One event stops the model only by the register actions after it. -/
theorem perform_unstuck {g : EvStep} {Q : State → Prop} (h : (runActs g.after (record g.ev s)).Unstuck Q) :
    (perform g s).Unstuck Q := by
  unfold perform
  obtain e | e | e := emit_cases g.ev s <;> rw [e]
  · trivial
  · trivial
  · exact h

/-! ### INIT and the bus commands -/

/-- Between two commands of a build: none is open. -/
structure Closed (c : Config) (s : State) : Prop where
  cfg : s.cfg = c
  frKind : s.frKind = .idle

theorem Closed.event {c : Config} (h : Closed c s) (ev : Event) : (perform ⟨ev, []⟩ s).Unstuck (Closed c) :=
  perform_unstuck ⟨h.cfg, h.frKind⟩

theorem Closed.transition {c : Config} (h : Closed c s) (ev : Event) (st : InitState) :
    (perform ⟨ev, [.setInit st]⟩ s).Unstuck (Closed c) :=
  perform_unstuck ⟨h.cfg, h.frKind⟩

theorem frame_unstuck {op : Byte} {payload : List Byte} {c : Config} (h : Closed c s) (hm : op ≠ c.opRamwr)
    (hl : payloadLen c op = some payload.length) : (runSteps (frameSteps op payload) s).Unstuck (Closed c) := by
  obtain ⟨rfl, hk⟩ := h
  exact (runSteps_unstuck (runSteps_frameSteps (s := s.undisturbed) hk hm hl (undisturbed_calm s _ _))).mono fun u e =>
    ⟨show u.undisturbed.cfg = _ from e ▸ rfl, show u.undisturbed.frKind = _ from e ▸ rfl⟩

/-- A command without payload, its WAIT and its transition. -/
theorem commandWait_unstuck {op : Byte} {c : Config} (hm : op ≠ c.opRamwr) (hl : payloadLen c op = some 0) (ms : Nat)
    (st : InitState) (h : Closed c s) :
    (runSteps (frameSteps op [] ++ [⟨.wait ms, [.setInit st]⟩]) s).Unstuck (Closed c) := by
  rw [runSteps_append]
  refine (frame_unstuck (payload := []) h hm hl).andThen fun _ h => ?_
  rw [runSteps_one]
  exact h.transition _ st

/-- A command with one payload byte and its transition. -/
theorem commandByte_unstuck {op : Byte} {c : Config} (hm : op ≠ c.opRamwr) (hl : payloadLen c op = some 1) (b : Byte)
    (st : InitState) (h : Closed c s) : (runSteps (thenDo (frameSteps op [b]) [.setInit st]) s).Unstuck (Closed c) := by
  rw [runSteps_thenDo _ _ _ (by simp [frameSteps, commandSteps])]
  exact (frame_unstuck (payload := [b]) h hm hl).andThen fun _ ht => ⟨ht.cfg, ht.frKind⟩

theorem resetPulse_unstuck {c : Config} (h : Closed c s) : (runSteps (resetPulseSteps c) s).Unstuck (Closed c) := by
  simp only [resetPulseSteps, runSteps_cons]
  refine (h.event _).andThen fun _ h => (h.event _).andThen fun _ h => (h.event _).andThen fun _ h => ?_
  exact (h.transition _ _).andThen fun _ h => h

theorem init_unstuck {c : Config} (hw : c.wf = true) (h : Closed c s) : (runSteps (initSteps c) s).Unstuck (Closed c) := by
  obtain ⟨len1, len2, len3, len4, len5, -, -, -⟩ := payloadLen_wf hw
  obtain ⟨ne1, ne2, ne3, ne4, ne5, -, -, -, -⟩ := opcodes_ne hw
  simp only [initSteps, runSteps_append (_ ++ _), runSteps_append (resetPulseSteps _), Flow.andThen_assoc]
  refine (resetPulse_unstuck h).andThen fun _ h => ?_
  refine (commandWait_unstuck ne1 len1 _ _ h).andThen fun _ h => ?_
  refine (commandWait_unstuck ne2 len2 _ _ h).andThen fun _ h => ?_
  refine (commandByte_unstuck ne3 len3 _ _ h).andThen fun _ h => ?_
  refine (commandByte_unstuck ne4 len4 _ _ h).andThen fun _ h => ?_
  exact commandWait_unstuck ne5 len5 _ _ h

/-! ### Plans -/

/-- The plan, run to its end, does not stop the model. -/
def Plan.Unstuck (p : Plan) : Prop := p.run.Unstuck fun _ => True

/-- A check. A branch that refuses the request or takes a fault ends it, so `trivial` is its proof. -/
theorem Plan.Unstuck.check {b : Prop} [Decidable b] {p q : Plan} (hp : p.Unstuck) (hq : ¬ b → q.Unstuck) :
    (if b then p else q).Unstuck := by
  split
  · exact hp
  · exact hq ‹_›

/-- A program whose last register actions always go through stops the model only in its steps. -/
theorem todo_unstuck {Q : State → Prop} {p : Program} (hp : (runSteps p.steps s).Unstuck Q)
    (hf : ∀ t, ∃ u, runActs p.final t = .go u) : (Plan.todo s p).Unstuck :=
  hp.andThen fun t _ => by
    obtain ⟨u, e⟩ := hf t
    rw [e]
    trivial

/-- The same of a program that runs through undisturbed. -/
theorem todo_unstuck_of_go {p : Program} (hp : runSteps p.steps s.undisturbed = .go t)
    (hf : ∀ t, ∃ u, runActs p.final t = .go u) : (Plan.todo s p).Unstuck :=
  todo_unstuck (runSteps_unstuck hp) hf

theorem planCommand_unstuck {gs : List EvStep} {Q : State → Prop} (h : Closed s.cfg s → (runSteps gs s).Unstuck Q) :
    (planCommand gs s).Unstuck :=
  .check trivial fun hk => todo_unstuck (h ⟨rfl, not_not.mp hk⟩) fun t => ⟨t, rfl⟩

/-- Undisturbed, RAMWR's opcode goes through over a window. -/
theorem ramwr_undisturbed_go (hk : s.frKind = .idle) (hw : s.hasWindow = true) :
    ∃ t, runSteps (commandSteps s.cfg.opRamwr) s.undisturbed = .go t := by
  obtain ⟨-, cs, ce, rs, re, h1, h2, h3, h4, hc⟩ := (hasWindow_iff s).mp hw
  exact ⟨_, runSteps_ramwr (s := s.undisturbed) hk h1 h2 h3 h4 hc (undisturbed_calm s _ _)⟩

theorem planRamwr_unstuck (s : State) : (planRamwr s).Unstuck := by
  refine .check trivial fun hw => planCommand_unstuck (Q := fun _ => True) fun h => ?_
  obtain ⟨t, ht⟩ := ramwr_undisturbed_go h.frKind (by simpa using hw)
  exact (runSteps_unstuck ht).mono fun _ _ => trivial

theorem planSendCmd_unstuck (op : Byte) (s : State) : (planSendCmd op s).Unstuck := by
  refine .check trivial fun _ => .check trivial fun _ => .check trivial fun ho => .check trivial fun hk =>
    .check trivial fun hw => ?_
  obtain rfl : op = s.cfg.opRamwr := not_not.mp ho
  obtain ⟨t, ht⟩ := ramwr_undisturbed_go (not_not.mp hk) (by simpa using hw)
  exact todo_unstuck_of_go ht fun t => ⟨_, rfl⟩

theorem planRelease_unstuck (s : State) : (planRelease s).Unstuck := by
  refine .check trivial fun _ => todo_unstuck (Q := fun _ => True) ?_ fun t => ⟨_, rfl⟩
  rw [releaseProgram, runSteps_one]
  exact perform_unstuck trivial

/-- What an instruction needs so that the model does not stop: a build it takes, framer registers that agree, and no command open
before INIT. -/
structure State.Orderly (s : State) : Prop where
  wf : s.cfg.wf = true
  framer : s.framerAgrees
  unpowered : s.initState = .unpowered → s.frKind = .idle

namespace State.Orderly

variable (h : s.Orderly)
include h

theorem init : (planInit s).Unstuck := by
  refine .check trivial fun _ => .check trivial fun hi => .check trivial fun _ => ?_
  exact todo_unstuck (s := s.popTransport) (init_unstuck h.wf ⟨rfl, h.unpowered (not_not.mp hi)⟩) fun t => ⟨_, rfl⟩

theorem sendData (b : Byte) : (planSendData b s).Unstuck := by
  refine .check trivial fun _ => .check trivial fun _ => .check trivial fun hk => ?_
  have owed : 0 < s.frRem := Nat.pos_of_ne_zero fun h0 => hk (h.framer.mpr h0)
  have sent := runSteps_payload (ds := [b]) (s := s.undisturbed) hk owed owed (undisturbed_calm s _ _)
  exact todo_unstuck_of_go (by simpa [sendDataProgram] using sent) fun t => ⟨_, rfl⟩

theorem setWindow (cs ce rs re : Word) : (planSetWindow cs ce rs re s).Unstuck := by
  refine .check trivial fun _ => .check trivial fun _ => .check trivial fun hk => .check trivial fun _ => ?_
  have sent := setWindowSteps_run (cs := cs) (ce := ce) (rs := rs) (re := re)
    (s := (Machine.loadWindow cs ce rs re s).undisturbed) h.wf (not_not.mp hk) (undisturbed_calm _ _ _)
  exact todo_unstuck_of_go sent fun t => ⟨_, rfl⟩

/-- A frame that `draw_check` passes is drawn to its end. -/
theorem planFrame {f : Frame} {mk : List ColorSample → Program} (hk : s.frKind = .idle)
    (hmk : ∀ samples, (runSteps (drawSteps s.cfg f samples) (loadFrameWindow f s)).Unstuck (fun _ => True) →
      (Plan.todo (loadFrameWindow f s) (mk samples)).Unstuck) : (planFrame f mk s).Unstuck := by
  unfold Machine.planFrame
  cases hd : drawCheck s.cfg f with
  | some code => trivial
  | none =>
    obtain ⟨samples, hs⟩ := frameSamples_some hd
    have drawn := drawSteps_run (s := (loadFrameWindow f s).undisturbed) h.wf hk hd hs rfl rfl rfl rfl (undisturbed_calm _ _ _)
    simpa only [hs] using hmk samples ((runSteps_unstuck drawn).mono fun _ _ => trivial)

theorem drawFrame (f : Frame) : (planDrawFrame f s).Unstuck :=
  .check trivial fun _ => .check trivial fun _ => .check trivial fun hk =>
    h.planFrame (not_not.mp hk) fun _ drawn => todo_unstuck drawn fun _ => ⟨_, rfl⟩

theorem planPairStart {seq : List (Frame × Nat)} (policy : Policy) (hk : s.frKind = .idle) (hx : s.animIdx < seq.length) :
    (planPairStart seq policy s).Unstuck := by
  simp only [Machine.planPairStart, List.getElem?_eq_getElem hx]
  refine h.planFrame hk fun samples drawn => todo_unstuck (Q := fun _ => True) ?_ fun t => ⟨_, rfl⟩
  rw [pairProgram, runSteps_append]
  refine drawn.andThen fun _ _ => ?_
  rw [runSteps_one]
  exact perform_unstuck trivial

theorem animate (seq : List (Frame × Nat)) (policy : Policy) : (planAnimate seq policy s).Unstuck := by
  refine .check trivial fun _ => .check trivial fun _ => .check trivial fun hk => .check trivial fun hl => ?_
  unfold Machine.planBoundary Plan.Unstuck Plan.run
  split
  · trivial
  · exact planPairStart (s := State.popStop { s with animActive := true, animIdx := 0 }) { h with } policy (not_not.mp hk)
      (Nat.pos_of_ne_zero hl)

theorem request {i : Instr} (hl : i.level = .request) : (planStart i s).Unstuck := by
  cases i with
  | init => exact h.init
  | sendCmd op => exact planSendCmd_unstuck op s
  | sendData b => exact h.sendData b
  | setWindow cs ce rs re => exact h.setWindow cs ce rs re
  | encode r g b => exact .check trivial fun _ => trivial
  | drawFrame f => exact h.drawFrame f
  | animate seq policy => exact h.animate seq policy
  | readStatus => trivial
  | release => exact planRelease_unstuck s
  | reserved0 | reservedA | reservedB | reservedC | reservedD | reservedE | reservedF => exact .check trivial fun _ => trivial
  | _ => cases hl

theorem command {i : Instr} (hl : i.level = .command) : (planned i s).Unstuck := by
  obtain ⟨len1, len2, len3, len4, len5, len6, len7, -⟩ := payloadLen_wf h.wf
  obtain ⟨ne1, ne2, ne3, ne4, ne5, ne6, ne7, -, -⟩ := opcodes_ne h.wf
  cases i with
  | swreset => exact planCommand_unstuck (commandWait_unstuck ne1 len1 _ _)
  | slpout => exact planCommand_unstuck (commandWait_unstuck ne2 len2 _ _)
  | colmod => exact planCommand_unstuck (commandByte_unstuck ne3 len3 _ _)
  | madctl => exact planCommand_unstuck (commandByte_unstuck ne4 len4 _ _)
  | dispon => exact planCommand_unstuck (commandWait_unstuck ne5 len5 _ _)
  | caset cs ce => exact planCommand_unstuck fun closed => frame_unstuck (payload := rangePayload cs ce) closed ne6 len6
  | raset rs re => exact planCommand_unstuck fun closed => frame_unstuck (payload := rangePayload rs re) closed ne7 len7
  | ramwr => exact planRamwr_unstuck s
  | _ => cases hl

end State.Orderly

theorem exec_answers {i : Instr} (h : s.Orderly) : ∃ t, exec i s = .next t := by
  cases hl : i.level with
  | request =>
    rw [exec_request i s hl]
    exact (State.Orderly.request (s := accept i s) { h with } hl).next
  | command =>
    rw [exec_planned]
    exact (h.command hl).next

/-! ### A bus command out of turn -/

theorem planCommand_open {gs : List EvStep} (hk : s.frKind ≠ .idle) : planCommand gs s = fatal .protocol s := if_pos hk

theorem planRamwr_outOfTurn (h : s.frKind ≠ .idle ∨ s.hasWindow = false) : planRamwr s = fatal .protocol s := by
  unfold planRamwr
  cases hw : s.hasWindow with
  | false => rfl
  | true => exact planCommand_open (h.resolve_right (by simp [hw]))

theorem planned_open {i : Instr} (hl : i.level = .command) (hk : s.frKind ≠ .idle) : planned i s = fatal .protocol s := by
  cases i with
  | ramwr => exact planRamwr_outOfTurn (.inl hk)
  | swreset | slpout | colmod | madctl | dispon | caset | raset => exact planCommand_open hk
  | _ => cases hl

/-- Settles O60: no plan of an instruction stops the model (`exec_answers`), and a bus command out of turn takes PROTOCOL from its
checks (`planned_open`, `planRamwr_outOfTurn`). -/
theorem everyInstructionAnswersANextState : Obligations.EveryInstructionAnswersANextState := by
  refine ⟨fun i s hw hf hu => exec_answers ⟨hw, hf, hu⟩, fun i s hl hr hq out => ?_⟩
  have plan : planned i s = fatal .protocol s := by
    obtain hk | ⟨rfl, hw⟩ := out
    · exact planned_open hl hk
    · exact planRamwr_outOfTurn (.inr (hasWindow_eq_false hw))
  rw [exec_planned, plan, fatal_run, raise_faulted hr hq]
  rfl

end Sys2Proof.Machine
end

section
/-! ## Transitions of INIT performed calmly (spec/41_display_init_fsm.md R153 to R158)

One lemma for each shape of transition: the reset pulse, a command with its WAIT, a command with its payload byte. The bus commands run
by themselves (O56, O57) and INIT (O34) are made of them. -/

namespace Sys2Proof.Machine

variable {s t : State} {op : Byte} {st : InitState}

/-! ### One event -/

/-- A calm event leaves the state calm for the readings after it. -/
theorem State.calm.record {ev : Event} {a b : Nat} (h : s.calm (ev.cost + a) (1 + b)) : (record ev s).calm a b :=
  h.later (inputsAfter_eq ev s.inputs)

/-- A run that went through leaves the state calm for the readings after it. -/
theorem State.calm.after_run {gs : List EvStep} {a b : Nat} (h : s.calm (stepsCost gs + a) (gs.length + b))
    (e : runSteps gs s = .go t) : t.calm a b := h.later (runSteps_go_log e).2.2

theorem perform_rst {v : Level} {as : List Act} (h : s.calm 1 1) : perform ⟨.rst v, as⟩ s = runActs as (record (.rst v) s) :=
  perform_calm h

theorem perform_wait {ms : Nat} {as : List Act} (h : s.calm 0 1) : perform ⟨.wait ms, as⟩ s = runActs as (record (.wait ms) s) :=
  perform_calm h

/-! ### The panel after an opcode -/

/-- R12: the opcodes after SWRESET's differ from it. -/
theorem ne_opSwreset {c : Config} (hw : c.wf = true) (h : op ∈ c.opcodes.tail) : op ≠ c.opSwreset :=
  (List.pairwise_cons.mp (Config.wf_opcodes_pairwise hw)).1 op h

/-- SWRESET leaves nothing known of the panel (log 14). -/
theorem panelOpcode_swreset (s : State) : panelOpcode s s.cfg.opSwreset = Panel.unknown := if_pos (.inr rfl)

/-- Any other opcode than SWRESET and RAMWR closes the memory write (spec/20_memory.md R70). -/
theorem panelOpcode_closed (hm : op ≠ s.cfg.opRamwr) (hs : op ≠ s.cfg.opSwreset) :
    panelOpcode s op = if s.panel.half = none then ⟨none, none, s.panel.gram⟩ else Panel.unknown := by
  simp [panelOpcode_of_ne_ramwr hm, hs]

/-- An opcode other than RAMWR tells nothing of a panel of which nothing is known. -/
theorem panelOpcode_unknown (hm : op ≠ s.cfg.opRamwr) (h : s.panel = Panel.unknown) : panelOpcode s op = Panel.unknown := by
  rw [panelOpcode_of_ne_ramwr hm, h]
  exact ite_self _

/-! ### Transitions -/

/-- The state after the reset pulse (R153). -/
def pulseSent (s : State) : State :=
  { s with
    initState := .resetting
    rstLine := .high
    evPtr := s.evPtr + 4
    log := .wait s.cfg.tRstHigh :: .rst .high :: .wait s.cfg.tRstLow :: .rst .low :: s.log
    panel := Panel.unknown
    inputs := s.inputs.after 2 4 }

theorem runSteps_resetPulse (h : s.calm 2 4) : runSteps (resetPulseSteps s.cfg) s = .go (pulseSent s) := by
  have h1 : (record (.rst .low) s).calm 1 3 := h.record
  have h2 : (record (.wait s.cfg.tRstLow) (record (.rst .low) s)).calm 1 2 := h1.record
  have h3 : (record (.rst .high) (record (.wait s.cfg.tRstLow) (record (.rst .low) s))).calm 0 1 := h2.record
  rw [resetPulseSteps, runSteps_cons, perform_rst (h.mono (by omega) (by omega)), runActs_nil, Flow.go_andThen,
    runSteps_cons, perform_wait (h1.mono (by omega) (by omega)), runActs_nil, Flow.go_andThen,
    runSteps_cons, perform_rst (h2.mono (by omega) (by omega)), runActs_nil, Flow.go_andThen,
    runSteps_one, perform_wait h3, runActs_cons, act, Flow.go_andThen, runActs_nil, Flow.go.injEq]
  apply State.ext
  case panel => exact record_panel_calm (ev := .rst .high) h2
  case inputs => simp [inputsAfter_eq, pulseSent]
  all_goals rfl

/-- The state after a command without payload, its WAIT and the transition they complete (R154, R155, R158). -/
def waitSent (op : Byte) (ms : Nat) (st : InitState) (s : State) : State :=
  { s with
    dcLine := .cmd
    evPtr := s.evPtr + 3
    log := .wait ms :: .xfer op :: .dc .cmd :: s.log
    frKind := .idle
    frRem := 0
    initState := st
    panel := panelOpcode s op
    inputs := s.inputs.after 2 3 }

theorem runSteps_commandWait (h : s.calm 2 3) (hk : s.frKind = .idle) (hm : op ≠ s.cfg.opRamwr)
    (hl : payloadLen s.cfg op = some 0) (ms : Nat) :
    runSteps (frameSteps op [] ++ [⟨.wait ms, [.setInit st]⟩]) s = .go (waitSent op ms st s) := by
  have sent : (commandSent op [] s).calm 0 1 := h.later rfl
  rw [runSteps_append, runSteps_frameSteps (ps := []) hk hm hl (h.mono le_rfl (by simp)), Flow.go_andThen, runSteps_one,
    perform_wait sent, runActs_cons, act, Flow.go_andThen, runActs_nil, Flow.go.injEq]
  apply State.ext
  case inputs => simp [inputsAfter_eq, commandSent, waitSent]
  all_goals rfl

/-- The state after a command with one payload byte and the transition it completes (R156, R157). -/
def byteSent (op b : Byte) (st : InitState) (s : State) : State :=
  { s with
    dcLine := .data
    evPtr := s.evPtr + 4
    log := .xfer b :: .dc .data :: .xfer op :: .dc .cmd :: s.log
    frKind := .idle
    frRem := 0
    initState := st
    panel := panelOpcode s op
    inputs := s.inputs.after 4 4 }

theorem runSteps_commandByte (h : s.calm 4 4) (hk : s.frKind = .idle) (hm : op ≠ s.cfg.opRamwr)
    (hl : payloadLen s.cfg op = some 1) (b : Byte) :
    runSteps (thenDo (frameSteps op [b]) [.setInit st]) s = .go (byteSent op b st s) := by
  rw [runSteps_thenDo _ _ _ (by simp [frameSteps, commandSteps]), runSteps_frameSteps (ps := [b]) hk hm hl h]
  rfl

end Sys2Proof.Machine
end

section
/-! ## O56, O57: SWRESET, SLPOUT, DISPON, COLMOD and MADCTL by themselves (spec/41_display_init_fsm.md R154 to R158) -/

namespace Sys2Proof.Machine

variable {s t : State}

/-- A bus command by itself with none open goes where its events go. -/
theorem planCommand_go {gs : List EvStep} (hk : s.frKind = .idle) (h : runSteps gs s = .go t) :
    (planCommand gs s).run.toOutcome = .next t := by
  rw [planCommand_run, if_neg (not_not.mpr hk), h]
  rfl

/-- Settles O56: each is a command with its WAIT (`runSteps_commandWait`), and the panel is that after its opcode. -/
theorem commandsWithAWaitComplete : Obligations.CommandsWithAWaitComplete := by
  intro s hw hk h
  obtain ⟨len1, len2, -, -, len5, -, -, -⟩ := payloadLen_wf hw
  obtain ⟨ne1, ne2, -, -, ne5, -, -, -, -⟩ := opcodes_ne hw
  have sent {op : Byte} (hm : op ≠ s.cfg.opRamwr) (hl : payloadLen s.cfg op = some 0) (ms : Nat) (st : InitState) :=
    planCommand_go hk (runSteps_commandWait (st := st) h hk hm hl ms)
  refine ⟨(sent ne1 len1 _ _).trans ?_, (sent ne2 len2 _ _).trans ?_, (sent ne5 len5 _ _).trans ?_⟩
  · rw [waitSent, panelOpcode_swreset, hk]
  · rw [waitSent, panelOpcode_closed ne2 (ne_opSwreset hw (by simp [Config.opcodes])), hk]
  · rw [waitSent, panelOpcode_closed ne5 (ne_opSwreset hw (by simp [Config.opcodes])), hk]

/-- Settles O57: each is a command with its payload byte (`runSteps_commandByte`), and the panel is that after its opcode. -/
theorem commandsWithAPayloadByteComplete : Obligations.CommandsWithAPayloadByteComplete := by
  intro s hw hk h
  obtain ⟨-, -, len3, len4, -, -, -, -⟩ := payloadLen_wf hw
  obtain ⟨-, -, ne3, ne4, -, -, -, -, -⟩ := opcodes_ne hw
  have sent {op : Byte} (hm : op ≠ s.cfg.opRamwr) (hl : payloadLen s.cfg op = some 1) (b : Byte) (st : InitState) :=
    planCommand_go hk (runSteps_commandByte (st := st) h hk hm hl b)
  refine ⟨(sent ne3 len3 _ _).trans ?_, (sent ne4 len4 _ _).trans ?_⟩
  · rw [byteSent, panelOpcode_closed ne3 (ne_opSwreset hw (by simp [Config.opcodes])), hk]
  · rw [byteSent, panelOpcode_closed ne4 (ne_opSwreset hw (by simp [Config.opcodes])), hk]

end Sys2Proof.Machine
end

section
/-! ## O34: INIT performed calmly (spec/41_display_init_fsm.md R152) -/

namespace Sys2Proof.Machine

variable {s t u : State}

/-- The state after the 21 events of INIT (R152): the reset pulse leaves nothing known of the panel (log 14). -/
def initSent (s : State) : State :=
  { s with
    initState := .on
    evPtr := s.evPtr + 21
    dcLine := .cmd
    rstLine := .high
    frKind := .idle
    frRem := 0
    log := (initTrace s.cfg).reverse ++ s.log
    panel := Panel.unknown
    inputs := s.inputs.after 16 21 }

/-- Two runs that went through, one after the other. -/
theorem runSteps_append_go {gs hs : List EvStep} (hg : runSteps gs s = .go t) (hh : runSteps hs t = .go u) :
    runSteps (gs ++ hs) s = .go u := by
  rw [runSteps_append, hg]
  exact hh

theorem runSteps_init (hw : s.cfg.wf = true) (hk : s.frKind = .idle) (h : s.calm 16 21) :
    runSteps (initSteps s.cfg) s = .go (initSent s) := by
  obtain ⟨len1, len2, len3, len4, len5, -, -, -⟩ := payloadLen_wf hw
  obtain ⟨ne1, ne2, ne3, ne4, ne5, -, -, -, -⟩ := opcodes_ne hw
  have pulse := runSteps_resetPulse (h.mono (by omega) (by omega))
  have c1 : State.calm 14 17 _ := h.after_run pulse
  have swreset := runSteps_commandWait (st := .softwareReset) (c1.mono (by omega) (by omega)) hk ne1 len1 s.cfg.tSwreset
  have c2 : State.calm 12 14 _ := c1.after_run swreset
  have slpout := runSteps_commandWait (st := .wakingUp) (c2.mono (by omega) (by omega)) rfl ne2 len2 s.cfg.tSlpout
  have c3 : State.calm 10 11 _ := c2.after_run slpout
  have colmod := runSteps_commandByte (st := .configuringFormat) (c3.mono (by omega) (by omega)) rfl ne3 len3 s.cfg.pixfmt565
  have c4 : State.calm 6 7 _ := c3.after_run colmod
  have madctl := runSteps_commandByte (st := .configuringOrientation) (c4.mono (by omega) (by omega)) rfl ne4 len4 s.cfg.orient
  have c5 : State.calm 2 3 _ := c4.after_run madctl
  have dispon := runSteps_commandWait (st := .on) c5 rfl ne5 len5 s.cfg.tDispon
  have run := runSteps_append_go (runSteps_append_go (runSteps_append_go (runSteps_append_go (runSteps_append_go
    pulse swreset) slpout) colmod) madctl) dispon
  refine run.trans (congrArg Flow.go ?_)
  apply State.ext
  case panel =>
    exact panelOpcode_unknown ne5 (panelOpcode_unknown ne4 (panelOpcode_unknown ne3 (panelOpcode_unknown ne2
      (panelOpcode_swreset (pulseSent s)))))
  case inputs => simp [waitSent, byteSent, pulseSent, initSent]
  all_goals rfl

theorem planInit_todo (ht : s.takes) (hi : s.initState = .unpowered) (hr : s.transportReads = true) :
    planInit s = .todo s.popTransport (initProgram s.cfg) := by
  simp [planInit, refuses_of_takes ht, hi, hr]

theorem planInit_transport (ht : s.takes) (hi : s.initState = .unpowered) (hr : s.transportReads = false) :
    planInit s = fatal .transportInit s.popTransport := by
  simp [planInit, refuses_of_takes ht, hi, hr]

/-- The state in which INIT's first event is emitted: accepted, `transport_ok` read (R164). -/
def initAccepted (s : State) : State := (accept .init s).popTransport

/-- INIT past its checks is its events and its response. -/
theorem exec_init (ht : s.takes) (hi : s.initState = .unpowered) (hr : s.transportReads = true) : exec .init s =
    ((runSteps (initSteps s.cfg) (initAccepted s)).andThen (runActs [.answer .ok 0])).toOutcome := by
  have todo : planStart .init (accept .init s) = .todo (initAccepted s) (initProgram s.cfg) :=
    planInit_todo (s := accept .init s) ht hi hr
  rw [exec_request _ _ rfl, todo, Plan.run_todo, initProgram]

/-- Settles O34: past its checks (`exec_init`) INIT is its 21 events performed calmly (`runSteps_init`) and its response. -/
theorem initCompletes : Obligations.InitCompletes := by
  intro s hw ht hi hk hr h
  have run : runSteps (initSteps s.cfg) (initAccepted s) = _ := runSteps_init (s := initAccepted s) hw hk h
  rw [exec_init ht hi hr, run]
  rfl

end Sys2Proof.Machine
end

section
/-! ## O35: an INIT that answers OK (spec/41_display_init_fsm.md R159)

Such an INIT was calm: a run of events that is cut answers FAULT or nothing. -/

namespace Sys2Proof.Machine

variable {s t u : State} {gs : List EvStep} {c : Config}

/-! ### What a run that went through leaves as it is -/

/-- The registers of the fatal path (spec/60_exceptions.md R305) and the responses are the same. -/
structure SameFaults (s t : State) : Prop where
  err : t.err = s.err
  released : t.released = s.released
  responses : t.responses = s.responses

theorem SameFaults.trans (h : SameFaults s t) (k : SameFaults t u) : SameFaults s u :=
  ⟨k.err.trans h.err, k.released.trans h.released, k.responses.trans h.responses⟩

theorem record_sameFaults {ev : Event} (h : ev ≠ .release) (s : State) : SameFaults s (record ev s) where
  err := rfl
  released := by
    cases ev with
    | release => exact absurd rfl h
    | _ => rfl
  responses := rfl

theorem runActs_sameFaults {as : List Act} (hs : Silent as) (h : runActs as s = .go t) : SameFaults s t := by
  have still : (runActs as s).Keeps (Still s) := hs.runActs s
  rw [h] at still
  exact ⟨(runActs_go h).err, (runActs_go h).released, still.responses⟩

theorem Flow.andThen_eq_go {f : Flow} {k : State → Flow} (h : f.andThen k = .go t) : ∃ u, f = .go u ∧ k u = .go t := by
  cases f with
  | go u => exact ⟨u, rfl, h⟩
  | ended u => cases h
  | stuck f => cases h

/-- In a run that went through, the first event was performed and the rest of the run went through. -/
theorem runSteps_cons_go {g : EvStep} (h : runSteps (g :: gs) s = .go t) :
    ∃ u, runActs g.after (record g.ev s) = .go u ∧ runSteps gs u = .go t := by
  obtain ⟨u, first, rest⟩ := Flow.andThen_eq_go h
  obtain ⟨-, -, acts⟩ := perform_go first
  exact ⟨u, acts, rest⟩

theorem runSteps_sameFaults (hs : SilentSteps gs) (hr : ∀ g ∈ gs, g.ev ≠ .release) (h : runSteps gs s = .go t) :
    SameFaults s t := by
  induction gs generalizing s with
  | nil => cases h; exact ⟨rfl, rfl, rfl⟩
  | cons g gs ih =>
    obtain ⟨silent, silents⟩ := (silentSteps_cons g gs).mp hs
    obtain ⟨hg, hgs⟩ := List.forall_mem_cons.mp hr
    obtain ⟨v, acts, rest⟩ := runSteps_cons_go h
    exact ((record_sameFaults hg s).trans (runActs_sameFaults silent acts)).trans (ih silents hgs rest)

/-! ### INIT's events -/

/-- INIT's events one by one, each with the register actions up to the next. -/
theorem initSteps_eq (c : Config) : initSteps c =
    [⟨.rst .low, []⟩, ⟨.wait c.tRstLow, []⟩, ⟨.rst .high, []⟩, ⟨.wait c.tRstHigh, [.setInit .resetting]⟩,
      ⟨.dc .cmd, []⟩, ⟨.xfer c.opSwreset, [.openPayload c.opSwreset]⟩, ⟨.wait c.tSwreset, [.setInit .softwareReset]⟩,
      ⟨.dc .cmd, []⟩, ⟨.xfer c.opSlpout, [.openPayload c.opSlpout]⟩, ⟨.wait c.tSlpout, [.setInit .wakingUp]⟩,
      ⟨.dc .cmd, []⟩, ⟨.xfer c.opColmod, [.openPayload c.opColmod]⟩,
      ⟨.dc .data, []⟩, ⟨.xfer c.pixfmt565, [.countOff, .setInit .configuringFormat]⟩,
      ⟨.dc .cmd, []⟩, ⟨.xfer c.opMadctl, [.openPayload c.opMadctl]⟩,
      ⟨.dc .data, []⟩, ⟨.xfer c.orient, [.countOff, .setInit .configuringOrientation]⟩,
      ⟨.dc .cmd, []⟩, ⟨.xfer c.opDispon, [.openPayload c.opDispon]⟩, ⟨.wait c.tDispon, [.setInit .on]⟩] := rfl

/-- The events of INIT are the 21 of R159. -/
theorem initSteps_events (c : Config) : (initSteps c).map (fun g => g.ev) = initTrace c := rfl

theorem initSteps_length (c : Config) : (initSteps c).length = 21 := rfl

/-- All of INIT's events but its five WAITs can fail. -/
theorem initSteps_cost (c : Config) : stepsCost (initSteps c) = 16 := by
  simp [initSteps_eq, stepsCost]

theorem initSteps_not_release : ∀ g ∈ initSteps c, g.ev ≠ .release := by
  intro g hg e
  have mem : Event.release ∈ initTrace c := e ▸ List.mem_map_of_mem hg
  simp [initTrace, cmdTrace, dataTrace] at mem

theorem initSteps_silent : SilentSteps (initSteps c) := (initProgram_answersOnce c).steps

/-! ### Answers -/

/-- The request has been answered by FAULT, or not at all. -/
def Unanswered (s t : State) : Prop := t.responses = s.responses ∨ ∃ v, t.responses = ⟨.fault, v⟩ :: s.responses

theorem Unanswered.ne_ok {v : Word} (h : Unanswered s t) : t.responses ≠ ⟨.ok, v⟩ :: s.responses := by
  obtain e | ⟨_, e⟩ := h <;> simp [e]

theorem raise_unanswered (code : ErrCode) (s : State) : Unanswered s (raise code s) := by
  unfold raise releaseAndRespond
  split
  · exact .inr ⟨_, rfl⟩
  · obtain e | e | e := emit_cases .release (markFatal code s) <;> rw [e]
    · exact .inl rfl
    · exact .inr ⟨_, rfl⟩
    · exact .inr ⟨_, rfl⟩

/-- A run that is cut does not answer OK. -/
theorem runSteps_ended_unanswered (hs : SilentSteps gs) (hr : ∀ g ∈ gs, g.ev ≠ .release) (h : runSteps gs s = .ended t) :
    Unanswered s t := by
  obtain ⟨pre, g, post, u, rfl, through, cut⟩ := runSteps_ended h
  have same := runSteps_sameFaults ((silentSteps_append _ _).mp hs).1 (fun g hg => hr g (List.mem_append_left _ hg)) through
  have here : Unanswered u t := by
    obtain ⟨-, rfl⟩ | ⟨-, -, rfl⟩ := cut
    · exact .inl rfl
    · exact raise_unanswered .busError (record g.ev u)
  rwa [Unanswered, same.responses] at here

/-- An INIT that answers OK read `transport_ok` true, and met no failure and no block reset. -/
theorem exec_init_ok (ht : s.takes) (hi : s.initState = .unpowered) (e : exec .init s = .next t)
    (ok : t.responses = ⟨.ok, 0⟩ :: s.responses) : s.transportReads = true ∧ s.calm 16 21 := by
  cases hr : s.transportReads with
  | false =>
    have plan : planStart .init (accept .init s) = fatal .transportInit (initAccepted s) :=
      planInit_transport (s := accept .init s) ht hi hr
    rw [exec_request _ _ rfl, plan, fatal_run] at e
    cases e
    exact absurd ok (raise_unanswered .transportInit (initAccepted s)).ne_ok
  | true =>
    rw [exec_init ht hi hr] at e
    cases run : runSteps (initSteps s.cfg) (initAccepted s) with
    | go u =>
      have calm := runSteps_go_calm run
      rw [initSteps_cost, initSteps_length] at calm
      exact ⟨rfl, calm⟩
    | ended u =>
      rw [run] at e
      cases e
      exact absurd ok (runSteps_ended_unanswered initSteps_silent initSteps_not_release run).ne_ok
    | stuck f => rw [run] at e; cases e

/-- Settles O35: an INIT that answers OK was calm (`exec_init_ok`), so it completed as O34 says. -/
theorem initEmitsTheTwentyOneEvents : Obligations.InitEmitsTheTwentyOneEvents := by
  intro s t hc ht hi hk e ok
  obtain ⟨hr, calm⟩ := exec_init_ok ht hi e ok
  have wf : s.cfg.wf = true := by rw [hc]; decide
  rw [initCompletes s wf ht hi hk hr calm] at e
  cases e
  refine ⟨?_, rfl, rfl, rfl, rfl, rfl⟩
  dsimp only
  rw [hc]
  rfl

end Sys2Proof.Machine
end

section
/-! ## O33: an INIT that fails at an event (spec/41_display_init_fsm.md R152, R161; spec/60_exceptions.md R309)

The run before the failed event goes through (`runSteps_go_of_calm`), and the transitions it has completed are the register actions of
its steps (`runSteps_initState`). The table of the statement is what a walk along INIT's events says (`failures_initSteps`). -/

namespace Sys2Proof.Machine

variable {s t u : State} {g : EvStep} {gs pre post : List EvStep}

/-! ### The transitions a run completes -/

/-- `INIT_STATE` after a register action. -/
def Act.initAfter : InitState → Act → InitState
  | _, .setInit st => st
  | st, _ => st

/-- `INIT_STATE` after an event and its register actions. -/
def EvStep.initAfter (st : InitState) (g : EvStep) : InitState := g.after.foldl Act.initAfter st

theorem act_initState {a : Act} (h : act a s = .go t) : t.initState = a.initAfter s.initState := by
  cases a with
  | openPayload op =>
    obtain ⟨f, e⟩ | ⟨k, n, e, -⟩ := openPayload_cases op s <;> rw [act, e] at h <;> cases h
    rfl
  | countOff =>
    obtain ⟨e, -⟩ | ⟨e, -⟩ | ⟨-, -, e⟩ := countOff_cases s <;> rw [act, e] at h <;> cases h
    rfl
  | setInit st => cases h; rfl
  | windowSent => cases h; rfl
  | pairDone len policy =>
    cases h
    unfold pairDone
    split
    · cases policy <;> rfl
    · rfl
  | answer st v => cases h; rfl

theorem runActs_initState {as : List Act} (h : runActs as s = .go t) :
    t.initState = as.foldl Act.initAfter s.initState := by
  induction as generalizing s with
  | nil => cases h; rfl
  | cons a as ih =>
    obtain ⟨v, first, rest⟩ := Flow.andThen_eq_go h
    rw [ih rest, act_initState first, List.foldl_cons]

theorem runSteps_initState (h : runSteps gs s = .go t) : t.initState = gs.foldl EvStep.initAfter s.initState := by
  induction gs generalizing s with
  | nil => cases h; rfl
  | cons g gs ih =>
    obtain ⟨v, acts, rest⟩ := runSteps_cons_go h
    rw [ih rest, runActs_initState acts]
    rfl

/-! ### Where a run can fail -/

/-- For each event that can fail: how many such come before it, how many events stand in the trace once it has failed, and the
`INIT_STATE` it leaves. -/
def failures : InitState → List EvStep → List (Nat × Nat × InitState)
  | _, [] => []
  | st, g :: gs =>
    (if g.ev.canFail then [(0, 1, st)] else [])
      ++ (failures (g.initAfter st) gs).map fun (n, events, st') => (n + g.ev.cost, events + 1, st')

theorem mem_failures {st st' : InitState} {n events : Nat} (h : (n, events, st') ∈ failures st gs) :
    ∃ pre g post, gs = pre ++ g :: post ∧ g.ev.canFail = true ∧ n = stepsCost pre ∧ events = pre.length + 1 ∧
      st' = pre.foldl EvStep.initAfter st := by
  induction gs generalizing st n events with
  | nil => cases h
  | cons g gs ih =>
    obtain first | later := List.mem_append.mp h
    · cases hc : g.ev.canFail with
      | false => simp [hc] at first
      | true =>
        simp only [hc, if_true, List.mem_singleton, Prod.mk.injEq] at first
        obtain ⟨rfl, rfl, rfl⟩ := first
        exact ⟨[], g, gs, rfl, hc, rfl, rfl, rfl⟩
    · obtain ⟨⟨m, k, st''⟩, mem, e⟩ := List.mem_map.mp later
      cases e
      obtain ⟨pre, g', post, rfl, hc, rfl, rfl, rfl⟩ := ih mem
      exact ⟨g :: pre, g', post, rfl, hc, by simp [stepsCost, Nat.add_comm], rfl, rfl⟩

/-- Where INIT can fail: the 16 DC, RST and XFER events of R159. -/
theorem failures_initSteps (c : Config) : failures .unpowered (initSteps c) =
    [(0, 1, .unpowered), (1, 3, .unpowered), (2, 5, .resetting), (3, 6, .resetting),
      (4, 8, .softwareReset), (5, 9, .softwareReset), (6, 11, .wakingUp), (7, 12, .wakingUp), (8, 13, .wakingUp),
      (9, 14, .wakingUp), (10, 15, .configuringFormat), (11, 16, .configuringFormat), (12, 17, .configuringFormat),
      (13, 18, .configuringFormat), (14, 19, .configuringOrientation), (15, 20, .configuringOrientation)] := by
  simp [initSteps_eq, failures, EvStep.initAfter, Act.initAfter, Event.canFail]

/-! ### A run that fails -/

/-- A calm run that does not stop the model goes through. -/
theorem runSteps_go_of_calm {Q : State → Prop} (h : s.calm (stepsCost gs) gs.length) (hu : (runSteps gs s).Unstuck Q) :
    ∃ t, runSteps gs s = .go t := by
  cases e : runSteps gs s with
  | go t => exact ⟨t, rfl⟩
  | stuck f => rw [e] at hu; exact hu.elim
  | ended t =>
    obtain ⟨pre, g, post, u, rfl, through, cut⟩ := runSteps_ended e
    have left : s.calm (stepsCost pre + g.ev.cost) (pre.length + 1) :=
      h.mono (by simp [stepsCost]) (by simp)
    have calm : u.calm g.ev.cost 1 := left.after_run through
    obtain ⟨reset, -⟩ | ⟨-, failed, -⟩ := cut
    · simp [rstReads_calm calm] at reset
    · simp [eventFails_calm calm] at failed

/-- A run whose first steps go through fails at the event that the transport reports failed (spec/60_exceptions.md R309). -/
theorem runSteps_fails (through : runSteps pre s = .go u) (hr : u.rstReads = false) (hf : eventFails g.ev u = true) :
    runSteps (pre ++ g :: post) s = .ended (raise .busError (record g.ev u)) := by
  rw [runSteps_append, through, Flow.go_andThen, runSteps_cons, perform, emit, hr, hf]
  rfl

/-- The first part of a run that does not stop the model does not either. -/
theorem runSteps_unstuck_left {Q : State → Prop} (h : (runSteps (pre ++ post) s).Unstuck Q) :
    (runSteps pre s).Unstuck fun _ => True := by
  rw [runSteps_append] at h
  cases e : runSteps pre s with
  | go t => trivial
  | ended t => trivial
  | stuck f => rw [e] at h; exact h

/-- A run that does not stop the model, at the event named by a row of `failures`: it takes BUS_ERROR with the events up to that one
in the trace and the transitions before it complete. -/
theorem runSteps_fails_at {Q : State → Prop} {n events : Nat} {st : InitState} {rest : List Bool}
    (row : (n, events, st) ∈ failures s.initState gs) (hs : SilentSteps gs) (hr : ∀ g ∈ gs, g.ev ≠ .release)
    (hu : (runSteps gs s).Unstuck Q) (hf : s.inputs.fail = List.replicate n false ++ true :: rest)
    (hq : quiet (events + 1) s.inputs.rst = true) :
    ∃ t, runSteps gs s = .ended (raise .busError t) ∧ SameFaults s t ∧ t.initState = st ∧
      t.log = ((gs.map fun g => g.ev).take events).reverse ++ s.log ∧ quiet 1 t.inputs.rst = true := by
  obtain ⟨pre, g, post, rfl, hc, rfl, rfl, rfl⟩ := mem_failures row
  have calm : s.calm (stepsCost pre) pre.length := ⟨by rw [hf]; simp [quiet], quiet_take hq (by omega)⟩
  obtain ⟨u, through⟩ := runSteps_go_of_calm calm (runSteps_unstuck_left hu)
  obtain ⟨log, -, inputs⟩ := runSteps_go_log through
  have same := runSteps_sameFaults ((silentSteps_append _ _).mp hs).1 (fun x hx => hr x (List.mem_append_left _ hx)) through
  have reports : u.inputs.fail = true :: rest := by
    rw [inputs, Inputs.after]
    exact (congrArg _ hf).trans (List.drop_left' List.length_replicate)
  have resets : quiet 2 u.inputs.rst = true := by
    rw [inputs]
    exact quiet_drop (l := s.inputs.rst) hq
  obtain ⟨quietNow, quietNext⟩ := quiet_succ resets
  have init : (record g.ev u).initState = pre.foldl EvStep.initAfter s.initState :=
    (record_initState u g.ev).trans (runSteps_initState through)
  exact ⟨record g.ev u, runSteps_fails through quietNow (by simp [eventFails, hc, reports]),
    same.trans (record_sameFaults (hr g (by simp)) u), init, by simp [log, List.take_append], quietNext⟩

/-- Settles O33: the statement's table is where INIT's run can fail (`failures_initSteps`), and there it fails as `runSteps_fails_at`
says. -/
theorem failedInitNamesTheLastTransition : Obligations.FailedInitNamesTheLastTransition := by
  intro n events st rest s row hw ht hi hk he hr hf hq
  rw [← failures_initSteps s.cfg, ← hi] at row
  have unstuck := init_unstuck (s := initAccepted s) hw ⟨rfl, hk⟩
  obtain ⟨u, run, same, init, log, quietRelease⟩ :=
    runSteps_fails_at (s := initAccepted s) row initSteps_silent initSteps_not_release unstuck hf hq
  rw [exec_init ht hi hr, run, raise_faulted (same.released.trans ht.2) quietRelease]
  exact ⟨_, rfl, init, if_pos (same.err.trans he), rfl, rfl, congrArg _ log, congrArg _ same.responses⟩

end Sys2Proof.Machine
end

section
/-! ## O29: the faults of SET_WINDOW (spec/42_address_window_adder.md R185, R186) -/

namespace Sys2Proof.Machine

variable {s : State} {cs ce rs re : Word}

/-- The window check, spelled out (R186). -/
theorem windowOk_iff {c : Config} : windowOk c cs ce rs re = true ↔
    cs.toNat ≤ ce.toNat ∧ ce.toNat < c.panelW ∧ rs.toNat ≤ re.toNat ∧ re.toNat < c.panelH := by
  simp [windowOk, rangeOk, and_assoc]

theorem planSetWindow_open (ht : s.takes) (hi : s.initState = .on) (hk : s.frKind ≠ .idle) :
    planSetWindow cs ce rs re s = fatal .protocol s := by
  simp [planSetWindow, refuses_of_takes ht, hi, hk]

theorem planSetWindow_outside (hs : s.ready) (hw : windowOk s.cfg cs ce rs re = false) :
    planSetWindow cs ce rs re s = fatal .windowRange s := by
  obtain ⟨ht, hi, hk⟩ := hs
  simp [planSetWindow, refuses_of_takes ht, hi, hk, hw]

theorem planSetWindow_todo (hs : s.ready) (hw : windowOk s.cfg cs ce rs re = true) :
    planSetWindow cs ce rs re s = .todo (loadWindow cs ce rs re s) (setWindowProgram s.cfg cs ce rs re) := by
  obtain ⟨ht, hi, hk⟩ := hs
  simp [planSetWindow, refuses_of_takes ht, hi, hk, hw]

/-- Settles O29: each clause is the fault its checks come to, taken before any event (`exec_fatal`). -/
theorem setWindowFaults : Obligations.SetWindowFaults := by
  intro cs ce rs re s ht hi h
  refine ⟨fun hk => ?_, fun hk outside => ?_⟩
  · exact exec_fatal rfl ht h (planSetWindow_open (s := accept (.setWindow cs ce rs re) s) ht hi hk)
  · have refused : windowOk s.cfg cs ce rs re = false := by
      rw [Bool.eq_false_iff, ne_eq, windowOk_iff]
      omega
    exact exec_fatal rfl ht h (planSetWindow_outside (s := accept (.setWindow cs ce rs re) s) ⟨ht, hi, hk⟩ refused)

end Sys2Proof.Machine
end

section
/-! ## O58: CASET and RASET by themselves (spec/42_address_window_adder.md R183, R184) -/

namespace Sys2Proof.Machine

/-- Settles O58: each is a command with its four payload bytes (`runSteps_frameSteps`), and the panel is that after its opcode. -/
theorem rangeCommandsComplete : Obligations.RangeCommandsComplete := by
  intro lo hi s hw hk h
  obtain ⟨-, -, -, -, -, lenC, lenR, -⟩ := payloadLen_wf hw
  obtain ⟨-, -, -, -, -, neC, neR, neC', neR'⟩ := opcodes_ne hw
  have sent {op : Byte} (hm : op ≠ s.cfg.opRamwr) (hl : payloadLen s.cfg op = some 4) :=
    planCommand_go hk (runSteps_frameSteps (ps := rangePayload lo hi) hk hm hl h)
  refine ⟨(sent neC lenC).trans ?_, (sent neR lenR).trans ?_⟩
  · rw [commandSent, panelOpcode_closed neC neC', hk]
    rfl
  · rw [commandSent, panelOpcode_closed neR neR', hk]
    rfl

end Sys2Proof.Machine
end

section
/-! ## O40: SET_WINDOW performed calmly (spec/42_address_window_adder.md R182, R185) -/

namespace Sys2Proof.Machine

variable {s : State} {cs ce rs re : Word}

/-- The state in which SET_WINDOW's first event is emitted: accepted, the window registers loaded (R182). -/
def windowAccepted (cs ce rs re : Word) (s : State) : State := loadWindow cs ce rs re (accept (.setWindow cs ce rs re) s)

/-- SET_WINDOW past its checks is the window's events and its response. -/
theorem exec_setWindow (hs : s.ready) (hw : windowOk s.cfg cs ce rs re = true) : exec (.setWindow cs ce rs re) s =
    (Plan.todo (windowAccepted cs ce rs re s) (setWindowProgram s.cfg cs ce rs re)).run.toOutcome := by
  have todo : planStart (.setWindow cs ce rs re) (accept (.setWindow cs ce rs re) s) =
      .todo (windowAccepted cs ce rs re s) (setWindowProgram s.cfg cs ce rs re) :=
    planSetWindow_todo (s := accept (.setWindow cs ce rs re) s) hs hw
  rw [exec_request _ _ rfl, todo]

/-- Settles O40: past its checks (`exec_setWindow`) SET_WINDOW is its 20 events performed calmly (`setWindowSteps_run`) and its
response, and the panel is that after CASET's opcode. -/
theorem setWindowCompletes : Obligations.SetWindowCompletes := by
  intro cs ce rs re s hw hs hc hcW hr hrH h
  obtain ⟨-, -, -, -, -, ne, -, ne', -⟩ := opcodes_ne hw
  have closed : (windowAccepted cs ce rs re s).frKind = .idle := hs.2.2
  have run : runSteps (setWindowSteps s.cfg cs ce rs re) (windowAccepted cs ce rs re s) = _ :=
    setWindowSteps_run (s := windowAccepted cs ce rs re s) hw closed h
  refine ⟨panelOpcode (windowAccepted cs ce rs re s) s.cfg.opCaset, ?_, ?_⟩
  · rw [exec_setWindow hs (windowOk_iff.mpr ⟨hc, hcW, hr, hrH⟩), Plan.run_todo, setWindowProgram, run]
    rfl
  · rw [panelOpcode_closed (s := windowAccepted cs ce rs re s) ne ne', windowAccepted, loadWindow_panel, accept_panel]
    split
    · exact ⟨rfl, rfl, fun _ => rfl⟩
    · exact ⟨rfl, rfl, fun _ => rfl⟩

end Sys2Proof.Machine
end

section
/-! ## O41: WIN_VALID is 1 only once the window is sent (spec/42_address_window_adder.md R187)

Only the register action after the last event of a window sets WIN_VALID. `Onward` is what every other update does: where WIN_VALID is 1
the window that stood before still stands. A window's program begins with WIN_VALID = 0, so a run of it that is cut before that action
leaves 0, and one that is cut later has the window's 20 events in its trace (`Program.Sends.run`). -/

namespace Sys2Proof.Machine

variable {s t u : State} {c : Config} {cs ce rs re : Word}

/-! ### Updates that send no window -/

/-- The window registers are the same. -/
def SameWindow (s t : State) : Prop :=
  t.winCs = s.winCs ∧ t.winCe = s.winCe ∧ t.winRs = s.winRs ∧ t.winRe = s.winRe

theorem SameWindow.trans (h : SameWindow s t) (k : SameWindow t u) : SameWindow s u := by
  obtain ⟨h1, h2, h3, h4⟩ := h
  obtain ⟨k1, k2, k3, k4⟩ := k
  exact ⟨k1.trans h1, k2.trans h2, k3.trans h3, k4.trans h4⟩

theorem SameBus.sameWindow (h : SameBus s t) : SameWindow s t := ⟨h.winCs, h.winCe, h.winRs, h.winRe⟩

/-- Events may have been added to the trace, and where WIN_VALID is 1 it was, over the same window. -/
structure Onward (s t : State) : Prop where
  log : s.log <:+ t.log
  window : t.winValid = true → s.winValid = true ∧ SameWindow s t

theorem Onward.of_same (log : s.log <:+ t.log) (valid : t.winValid = s.winValid) (same : SameWindow s t) : Onward s t :=
  ⟨log, fun hv => ⟨valid.symm.trans hv, same⟩⟩

theorem Onward.refl (s : State) : Onward s s := .of_same List.suffix_rfl rfl ⟨rfl, rfl, rfl, rfl⟩

theorem Onward.trans (h : Onward s t) (k : Onward t u) : Onward s u where
  log := h.log.trans k.log
  window hv := by
    obtain ⟨valid, later⟩ := k.window hv
    obtain ⟨valid, earlier⟩ := h.window valid
    exact ⟨valid, earlier.trans later⟩

theorem record_onward (ev : Event) (s : State) : Onward s (record ev s) :=
  .of_same (List.suffix_cons _ _) rfl ⟨rfl, rfl, rfl, rfl⟩

theorem respond_onward (st : Status) (v : Word) (s : State) : Onward s (respond st v s) :=
  .of_same List.suffix_rfl rfl ⟨rfl, rfl, rfl, rfl⟩

theorem blockReset_onward (s : State) : Onward s (blockReset s) := ⟨List.suffix_rfl, nofun⟩

/-- The fatal path. -/
theorem raise_onward (code : ErrCode) (s : State) : Onward s (raise code s) := by
  have released : Onward s (record .release (markFatal code s)) := .of_same (List.suffix_cons _ _) rfl ⟨rfl, rfl, rfl, rfl⟩
  unfold raise releaseAndRespond
  split
  · exact .of_same List.suffix_rfl rfl ⟨rfl, rfl, rfl, rfl⟩
  · obtain e | e | e := emit_cases .release (markFatal code s) <;> rw [e]
    · exact released.trans (blockReset_onward _)
    · exact .of_same released.log rfl ⟨rfl, rfl, rfl, rfl⟩
    · exact .of_same released.log rfl ⟨rfl, rfl, rfl, rfl⟩

theorem act_winValid {a : Act} (ha : a ≠ .windowSent) (h : act a s = .go t) : t.winValid = s.winValid := by
  cases a with
  | openPayload op =>
    obtain ⟨f, e⟩ | ⟨k, n, e, -⟩ := openPayload_cases op s <;> rw [act, e] at h <;> cases h
    rfl
  | countOff =>
    obtain ⟨e, -⟩ | ⟨e, -⟩ | ⟨-, -, e⟩ := countOff_cases s <;> rw [act, e] at h <;> cases h
    rfl
  | setInit st => cases h; rfl
  | windowSent => exact absurd rfl ha
  | pairDone len policy =>
    cases h
    unfold pairDone
    split
    · cases policy <;> rfl
    · rfl
  | answer st v => cases h; rfl

theorem act_onward {a : Act} (ha : a ≠ .windowSent) (s : State) : (act a s).Keeps (Onward s) := by
  obtain ⟨t, e, same⟩ | ⟨f, e⟩ := act_keepsBus a s <;> rw [e]
  · exact .of_same (same.log ▸ List.suffix_rfl) (act_winValid ha e) same.sameWindow
  · trivial

/-- What follows a piece of a request that sends no window goes on from there. -/
theorem Flow.Keeps.onward {f : Flow} {k : State → Flow} (hf : f.Keeps (Onward s)) (hk : ∀ t, (k t).Keeps (Onward t)) :
    (f.andThen k).Keeps (Onward s) :=
  hf.andThen fun t ht => (hk t).mono fun _ => ht.trans

theorem runActs_onward {as : List Act} (h : .windowSent ∉ as) (s : State) : (runActs as s).Keeps (Onward s) := by
  induction as generalizing s with
  | nil => exact .refl s
  | cons a as ih =>
    have ha : a ≠ .windowSent := (List.ne_of_not_mem_cons h).symm
    exact (act_onward ha s).onward (ih (List.not_mem_of_not_mem_cons h))

/-- The register actions between events send no window. -/
def Windowless (gs : List EvStep) : Prop := ∀ g ∈ gs, .windowSent ∉ g.after

theorem perform_onward {g : EvStep} (h : .windowSent ∉ g.after) (s : State) : (perform g s).Keeps (Onward s) := by
  have recorded := record_onward g.ev s
  unfold perform
  obtain e | e | e := emit_cases g.ev s <;> rw [e]
  · exact recorded.trans (blockReset_onward _)
  · exact recorded.trans (raise_onward _ _)
  · exact (runActs_onward h _).mono fun _ => recorded.trans

theorem Windowless.runSteps {gs : List EvStep} (h : Windowless gs) (s : State) : (runSteps gs s).Keeps (Onward s) := by
  induction gs generalizing s with
  | nil => exact .refl s
  | cons g gs ih =>
    obtain ⟨hg, hgs⟩ := List.forall_mem_cons.mp h
    exact (perform_onward hg s).onward (ih hgs)

/-! ### The events of the block's sequences -/

@[simp] theorem windowless_nil : Windowless [] := nofun

@[simp] theorem windowless_cons (g : EvStep) (gs : List EvStep) :
    Windowless (g :: gs) ↔ .windowSent ∉ g.after ∧ Windowless gs :=
  List.forall_mem_cons

@[simp] theorem windowless_append (gs hs : List EvStep) : Windowless (gs ++ hs) ↔ Windowless gs ∧ Windowless hs :=
  List.forall_mem_append

@[simp] theorem windowless_commandSteps (op : Byte) : Windowless (commandSteps op) := by simp [commandSteps]

@[simp] theorem windowless_dataSteps (b : Byte) : Windowless (dataSteps b) := by simp [dataSteps]

@[simp] theorem windowless_payload (ds : List Byte) : Windowless (ds.flatMap dataSteps) := fun g hg => by
  obtain ⟨b, -, hb⟩ := List.mem_flatMap.mp hg
  exact windowless_dataSteps b g hb

@[simp] theorem windowless_frameSteps (op : Byte) (payload : List Byte) : Windowless (frameSteps op payload) := by
  simp [frameSteps]

theorem windowless_initSteps (c : Config) : Windowless (initSteps c) := by simp [initSteps_eq]

theorem windowSent_not_mem_answer (st : Status) (v : Word) : Act.windowSent ∉ [Act.answer st v] := by simp

/-! ### A window's program -/

/-- The events of `set_window` are those of its two commands, and then the window is sent (R182). -/
theorem runSteps_setWindowSteps (c : Config) (cs ce rs re : Word) (s : State) : runSteps (setWindowSteps c cs ce rs re) s =
    (runSteps (casetSteps c cs ce ++ rasetSteps c rs re) s).andThen (runActs [.windowSent]) := by
  have rows (t : State) : runSteps (thenDo (rasetSteps c rs re) [.windowSent]) t =
      (runSteps (rasetSteps c rs re) t).andThen (runActs [.windowSent]) :=
    runSteps_thenDo _ _ _ (by simp [rasetSteps, frameSteps, commandSteps])
  rw [setWindowSteps, runSteps_append, runSteps_append, Flow.andThen_assoc, funext rows]

theorem windowSteps_events (c : Config) (cs ce rs re : Word) :
    (casetSteps c cs ce ++ rasetSteps c rs re).map (fun g => g.ev) = windowTrace c cs ce rs re := rfl

theorem runSteps_go_sameWindow {gs : List EvStep} (h : runSteps gs s = .go t) : SameWindow s t := by
  induction gs generalizing s with
  | nil => cases h; exact ⟨rfl, rfl, rfl, rfl⟩
  | cons g gs ih =>
    obtain ⟨u, acts, rest⟩ := runSteps_cons_go h
    have first : SameWindow s u := (runActs_go acts).sameWindow
    exact first.trans (ih rest)

/-- WIN_VALID is 1 only over the window `cs, ce, rs, re`, sent whole since `s`. -/
def SentOnly (cs ce rs re : Word) (s t : State) : Prop :=
  t.winValid = true → t.winCs = some cs ∧ t.winCe = some ce ∧ t.winRs = some rs ∧ t.winRe = some re ∧
    (windowTrace s.cfg cs ce rs re).reverse ++ s.log <:+ t.log

/-- The program begins with the events of the window `cs, ce, rs, re` and sends no other. -/
def Program.Sends (c : Config) (cs ce rs re : Word) (p : Program) : Prop :=
  ∃ rest, p.steps = setWindowSteps c cs ce rs re ++ rest ∧ Windowless rest ∧ .windowSent ∉ p.final

/-- Whatever fails or is reset in such a program, begun with the window loaded, WIN_VALID is 1 only once the window is sent. -/
theorem Program.Sends.run {p : Program} (h : p.Sends s.cfg cs ce rs re) :
    (Plan.todo (loadWindow cs ce rs re s) p).run.Keeps (SentOnly cs ce rs re s) := by
  obtain ⟨rest, steps, windowless, final⟩ := h
  rw [Plan.run_todo, steps, runSteps_append, runSteps_setWindowSteps]
  have commands : Windowless (casetSteps s.cfg cs ce ++ rasetSteps s.cfg rs re) := by simp [casetSteps, rasetSteps]
  have before := commands.runSteps (loadWindow cs ce rs re s)
  cases e : runSteps (casetSteps s.cfg cs ce ++ rasetSteps s.cfg rs re) (loadWindow cs ce rs re s) with
  | stuck f => trivial
  | ended t =>
    rw [e] at before
    intro valid
    cases (before.window valid).1
  | go v =>
    have log := (runSteps_go_log e).1
    have loaded := runSteps_go_sameWindow e
    rw [windowSteps_events] at log
    have after : (((runSteps rest { v with winValid := true }).andThen (runActs p.final))).Keeps
        (Onward { v with winValid := true }) := (windowless.runSteps _).onward (runActs_onward final)
    refine Flow.Keeps.mono after fun t onward valid => ?_
    have kept : SameWindow v t := (onward.window valid).2
    obtain ⟨h1, h2, h3, h4⟩ := loaded.trans kept
    exact ⟨h1, h2, h3, h4, log ▸ onward.log⟩

theorem setWindowProgram_sends (c : Config) (cs ce rs re : Word) : (setWindowProgram c cs ce rs re).Sends c cs ce rs re :=
  ⟨[], (List.append_nil _).symm, windowless_nil, windowSent_not_mem_answer _ _⟩

/-- The events of a frame after those of its window: the memory write. -/
theorem windowless_memoryWrite (c : Config) (samples : List ColorSample) :
    Windowless (ramwrSteps c ++ samples.flatMap pixelSteps) := by
  simp [ramwrSteps, pixelSteps_flatMap]

theorem drawProgram_sends (c : Config) (f : Frame) (samples : List ColorSample) :
    (drawProgram c f samples).Sends c 0 (frameColEnd f) 0 (frameRowEnd f) :=
  ⟨_, List.append_assoc _ _ _, windowless_memoryWrite c samples, windowSent_not_mem_answer _ _⟩

theorem pairProgram_sends (c : Config) (f : Frame) (d len : Nat) (policy : Policy) (samples : List ColorSample) :
    (pairProgram c f d len policy samples).Sends c 0 (frameColEnd f) 0 (frameRowEnd f) :=
  ⟨ramwrSteps c ++ samples.flatMap pixelSteps ++ [⟨.wait d, []⟩], by simp [pairProgram, drawSteps],
    (windowless_append _ _).mpr ⟨windowless_memoryWrite c samples, by simp⟩, by simp [pairProgram]⟩

/-- A frame that `draw_check` passes. -/
theorem planFrame_sentOnly {f : Frame} {mk : List ColorSample → Program} (hd : drawCheck s.cfg f = none)
    (hmk : ∀ samples, (mk samples).Sends s.cfg 0 (frameColEnd f) 0 (frameRowEnd f)) :
    (planFrame f mk s).run.Keeps (SentOnly 0 (frameColEnd f) 0 (frameRowEnd f) s) := by
  simp only [planFrame, hd]
  split
  · trivial
  · exact (hmk _).run

/-- The window of a frame, its ends written out (spec/44_frame_streamer.md R222). -/
theorem frameWindow_ends (f : Frame) :
    frameColEnd f = BitVec.ofNat 16 (f.w - 1) ∧ frameRowEnd f = BitVec.ofNat 16 (f.h - 1) := by
  simp [frameColEnd, frameRowEnd, winEnd]

theorem exec_drawFrame (hs : s.ready) (f : Frame) : exec (.drawFrame f) s =
    (planFrame f (drawProgram s.cfg f) (accept (.drawFrame f) s)).run.toOutcome := by
  obtain ⟨ht, hi, hk⟩ := hs
  have checked : planStart (.drawFrame f) (accept (.drawFrame f) s) =
      planFrame f (drawProgram s.cfg f) (accept (.drawFrame f) s) := by
    simp [planStart, planDrawFrame, refuses_of_takes (s := accept (.drawFrame f) s) ht, hi, hk]
  rw [exec_request _ _ rfl, checked]

/-! ### Plans -/

/-- Where WIN_VALID is 1, the window stood at `s` already or has been sent whole since. -/
def WindowStands (s t : State) : Prop :=
  t.winValid = true → (s.winValid = true ∧ SameWindow s t) ∨
    ∃ cs ce rs re, t.winCs = some cs ∧ t.winCe = some ce ∧ t.winRs = some rs ∧ t.winRe = some re ∧
      (windowTrace s.cfg cs ce rs re).reverse ++ s.log <:+ t.log

/-- So it is, however the plan comes out. -/
def Plan.WindowStands (s : State) (p : Plan) : Prop := p.run.Keeps (Machine.WindowStands s)

namespace Plan.WindowStands

theorem of_onward {p : Plan} (h : p.run.Keeps (Onward s)) : p.WindowStands s :=
  h.mono fun _ ht valid => .inl (ht.window valid)

theorem of_sentOnly {p : Plan} (h : p.run.Keeps (SentOnly cs ce rs re s)) : p.WindowStands s :=
  h.mono fun _ ht valid => .inr ⟨cs, ce, rs, re, ht valid⟩

theorem ite {b : Prop} [Decidable b] {p q : Plan} (hp : p.WindowStands s) (hq : q.WindowStands s) :
    (if b then p else q).WindowStands s := by
  split
  · exact hp
  · exact hq

theorem refuse (s : State) : (refuse s).WindowStands s := of_onward (respond_onward _ _ s)

theorem fatal (code : ErrCode) (s : State) : (fatal code s).WindowStands s := of_onward (raise_onward code s)

theorem todo {p : Program} (h : Windowless p.steps) (hf : .windowSent ∉ p.final) (s : State) :
    (Plan.todo s p).WindowStands s :=
  of_onward ((h.runSteps s).onward (runActs_onward hf))

theorem planFrame (f : Frame) {mk : List ColorSample → Program}
    (hmk : ∀ samples, (mk samples).Sends s.cfg 0 (frameColEnd f) 0 (frameRowEnd f)) : (planFrame f mk s).WindowStands s := by
  cases hd : drawCheck s.cfg f with
  | none => exact of_sentOnly (planFrame_sentOnly hd hmk)
  | some code =>
    simp only [Machine.planFrame, hd]
    exact fatal code s

theorem planPairStart (seq : List (Frame × Nat)) (policy : Policy) (s : State) :
    (planPairStart seq policy s).WindowStands s := by
  unfold Machine.planPairStart
  split
  · trivial
  · exact planFrame _ (pairProgram_sends _ _ _ _ _)

theorem planBoundary (seq : List (Frame × Nat)) (policy : Policy) (s : State) : (planBoundary seq policy s).WindowStands s := by
  unfold Machine.planBoundary Plan.WindowStands Plan.run
  split
  · exact of_onward (p := stopped s.popStop) (.of_same List.suffix_rfl rfl ⟨rfl, rfl, rfl, rfl⟩)
  · exact planPairStart seq policy s.popStop

theorem planInit (s : State) : (planInit s).WindowStands s :=
  ite (refuse s) (ite (fatal _ s) (ite (fatal _ s.popTransport)
    (todo (windowless_initSteps s.cfg) (windowSent_not_mem_answer _ _) s.popTransport)))

theorem planSendCmd (op : Byte) (s : State) : (planSendCmd op s).WindowStands s :=
  ite (refuse s) (ite (fatal _ s) (ite (fatal _ s) (ite (fatal _ s) (ite (fatal _ s)
    (todo (windowless_commandSteps op) (windowSent_not_mem_answer _ _) s)))))

theorem planSendData (b : Byte) (s : State) : (planSendData b s).WindowStands s :=
  ite (refuse s) (ite (fatal _ s) (ite (fatal _ s) (todo (windowless_dataSteps b) (windowSent_not_mem_answer _ _) s)))

theorem planSetWindow (cs ce rs re : Word) (s : State) : (planSetWindow cs ce rs re s).WindowStands s :=
  ite (refuse s) (ite (fatal _ s) (ite (fatal _ s) (ite (fatal _ s) (of_sentOnly (setWindowProgram_sends _ _ _ _ _).run))))

theorem planDrawFrame (f : Frame) (s : State) : (planDrawFrame f s).WindowStands s :=
  ite (refuse s) (ite (fatal _ s) (ite (fatal _ s) (planFrame f (drawProgram_sends _ f))))

theorem planAnimate (seq : List (Frame × Nat)) (policy : Policy) (s : State) : (planAnimate seq policy s).WindowStands s :=
  ite (refuse s) (ite (fatal _ s) (ite (fatal _ s) (ite (fatal _ s)
    (planBoundary seq policy { s with animActive := true, animIdx := 0 }))))

theorem planRelease (s : State) : (planRelease s).WindowStands s :=
  ite (refuse s) (todo (by simp [releaseProgram]) (windowSent_not_mem_answer _ _) s)

theorem planStart (i : Instr) (s : State) : (planStart i s).WindowStands s := by
  cases i with
  | init => exact planInit s
  | sendCmd op => exact planSendCmd op s
  | sendData b => exact planSendData b s
  | setWindow cs ce rs re => exact planSetWindow cs ce rs re s
  | encode r g b => exact ite (refuse s) (of_onward (respond_onward _ _ s))
  | drawFrame f => exact planDrawFrame f s
  | animate seq policy => exact planAnimate seq policy s
  | readStatus => exact of_onward (respond_onward _ _ s)
  | release => exact planRelease s
  | reserved0 | reservedA | reservedB | reservedC | reservedD | reservedE | reservedF => exact ite (refuse s) (fatal _ s)
  | _ => trivial

end Plan.WindowStands

/-! ### The step -/

theorem step_windowStands (g : s.Good) (e : step s = .next t) : WindowStands s t := by
  obtain ⟨hw, ⟨-, rfl⟩ | ⟨-, ⟨-, -, -, rfl⟩ | ⟨-, busy, e⟩ | ⟨_, _, port, -, -⟩ | ⟨_, rest, i, -, -, -, hd, e⟩⟩⟩ :=
    step_next_cases e
  · exact nofun
  · exact fun valid => .inl ⟨valid, rfl, rfl, rfl, rfl⟩
  · obtain ⟨seq, policy, pair⟩ := State.AtPair.of_good g hw busy
    have read : s.popRst.AtPair seq policy := { pair with active := { pair.active with } }
    rw [resume, planOf_atPair read] at e
    exact (Plan.WindowStands.planBoundary seq policy s.popRst).next e
  · simp [g.port] at port
  · rw [exec_request _ _ (decodeRequest_level hd)] at e
    exact (Plan.WindowStands.planStart i (accept i (s.popRst.withRequests rest))).next e

/-- Settles O41: a window's program sets WIN_VALID only once its 20 events are sent (`Program.Sends.run`), and nothing else a step of
the machine runs sets it (`step_windowStands`). -/
theorem windowIsValidOnlyWhenSent : Obligations.WindowIsValidOnlyWhenSent := by
  refine ⟨fun s t _ hs => ⟨fun cs ce rs re ok e valid => ?_, fun f hd e valid => ?_⟩, fun s t g e valid => ?_⟩
  · rw [exec_setWindow hs ok] at e
    have sent := (setWindowProgram_sends s.cfg cs ce rs re).run (s := accept (.setWindow cs ce rs re) s)
    obtain ⟨-, -, -, -, l, log⟩ := sent.next e valid
    exact ⟨l, by rw [← log, List.append_assoc]; rfl⟩
  · rw [exec_drawFrame hs] at e
    have sent := planFrame_sentOnly (s := accept (.drawFrame f) s) hd (drawProgram_sends s.cfg f)
    obtain ⟨-, -, -, -, l, log⟩ := sent.next e valid
    obtain ⟨cols, rows⟩ := frameWindow_ends f
    exact ⟨l, by rw [← log, cols, rows, List.append_assoc]; rfl⟩
  · obtain ⟨old, same⟩ | ⟨cs, ce, rs, re, h1, h2, h3, h4, l, log⟩ := step_windowStands g e valid
    · exact .inl ⟨old, same⟩
    · exact .inr ⟨cs, ce, rs, re, l, h1, h2, h3, h4, by rw [← log, List.append_assoc]⟩

end Sys2Proof.Machine
end

section
/-! ## The RGB565 quantizer: O43, O44, O42 (spec/43_rgb565_quantizer.md R200-R205)

An EncodedPixel is the three channels' kept bits side by side (`rgb565_eq_append`), so a sample encodes to a pixel exactly when each
of its channels has the pixel's field as its top bits (`rgb565_eq_iff`). -/

namespace Sys2Proof.Machine

/-! ### The top bits of a bit vector -/

section
variable {m n w : Nat}

theorem toNat_topBits {x : BitVec w} (h : w ≤ n + m) : (x.extractLsb' n m).toNat = x.toNat / 2 ^ n := by
  have wide : x.toNat < 2 ^ n * 2 ^ m := Nat.pow_add 2 n m ▸ BitVec.toNat_lt_twoPow_of_le h
  rw [BitVec.extractLsb'_toNat, Nat.shiftRight_eq_div_pow, Nat.mod_eq_of_lt (Nat.div_lt_of_lt_mul wide)]

theorem toNat_topBits_eq_ushiftRight {x : BitVec w} (h : w ≤ n + m) : (x.extractLsb' n m).toNat = (x >>> n).toNat := by
  rw [toNat_topBits h, BitVec.toNat_ushiftRight, Nat.shiftRight_eq_div_pow]

theorem topBits_eq_iff_ushiftRight_eq {x y : BitVec w} (h : w ≤ n + m) :
    x.extractLsb' n m = y.extractLsb' n m ↔ x >>> n = y >>> n := by
  simp only [← BitVec.toNat_inj, toNat_topBits_eq_ushiftRight h]

theorem setWidth_topBits {x : BitVec w} (h : w ≤ n + m) (v : Nat) : (x.extractLsb' n m).setWidth v = (x >>> n).setWidth v :=
  BitVec.eq_of_toNat_eq (by simp only [BitVec.toNat_setWidth, toNat_topBits_eq_ushiftRight h])

theorem toNat_append_eq_add (x : BitVec m) (y : BitVec n) : (x ++ y).toNat = x.toNat * 2 ^ n + y.toNat := by
  rw [BitVec.toNat_append, ← Nat.shiftLeft_add_eq_or_of_lt y.isLt, Nat.shiftLeft_eq]

/-- The bit vectors whose top bits are `top`, one for each value of the `n` bits below. -/
def extensions (n : Nat) (top : BitVec m) : List (BitVec (m + n)) :=
  (List.finRange (2 ^ n)).map fun low => top ++ BitVec.ofFin low

theorem length_extensions (top : BitVec m) : (extensions n top).length = 2 ^ n := by simp [extensions]

theorem nodup_extensions (top : BitVec m) : (extensions n top).Nodup :=
  (List.nodup_finRange _).map fun _ _ e => BitVec.ofFin.inj ((BitVec.append_right_inj top).mp e)

theorem mem_extensions {x : BitVec (m + n)} {top : BitVec m} : x ∈ extensions n top ↔ x.extractLsb' n m = top := by
  simp only [extensions, List.mem_map, List.mem_finRange, true_and]
  constructor
  · rintro ⟨low, rfl⟩
    exact BitVec.extractLsb'_append_eq_left
  · rintro rfl
    exact ⟨(x.extractLsb' 0 n).toFin, BitVec.extractLsb'_append_extractLsb'⟩

end

/-! ### The fields of an encoding -/

/-- R200's second line: `{ r[7:3], g[7:2], b[7:3] }`. -/
theorem rgb565_eq_append (r g b : Byte) :
    rgb565 r g b = r.extractLsb' 3 5 ++ g.extractLsb' 2 6 ++ b.extractLsb' 3 5 := by
  calc rgb565 r g b
      = (r.extractLsb' 3 5).setWidth 16 <<< (6 + 5) ||| (g.extractLsb' 2 6).setWidth 16 <<< 5 ||| (b.extractLsb' 3 5).setWidth 16 := by
        rw [setWidth_topBits (by decide), setWidth_topBits (by decide), setWidth_topBits (by decide)]
        rfl
    _ = (r.extractLsb' 3 5 ++ g.extractLsb' 2 6 ++ b.extractLsb' 3 5).setWidth 16 :=
        BitVec.setWidth_append_append_eq_shiftLeft_setWidth_or.symm
    _ = _ := BitVec.setWidth_eq _

/-- Settles O43: each field is a part of `rgb565_eq_append`. -/
theorem encodedFieldsAreTheTopBits : Obligations.EncodedFieldsAreTheTopBits := by
  intro r g b
  simp only [rgb565_eq_append]
  refine ⟨?_, ?_, BitVec.extractLsb'_append_eq_right⟩ <;> rw [BitVec.extractLsb'_append_eq_of_le (by decide)]
  · exact BitVec.extractLsb'_append_eq_left
  · exact BitVec.extractLsb'_append_eq_right

theorem rgb565_eq_iff {r g b : Byte} {p : Word} : rgb565 r g b = p ↔
    r.extractLsb' 3 5 = p.extractLsb' 11 5 ∧ g.extractLsb' 2 6 = p.extractLsb' 5 6 ∧ b.extractLsb' 3 5 = p.extractLsb' 0 5 := by
  constructor
  · rintro rfl
    obtain ⟨red, green, blue⟩ := encodedFieldsAreTheTopBits r g b
    exact ⟨red.symm, green.symm, blue.symm⟩
  · rintro ⟨red, green, blue⟩
    rw [rgb565_eq_append, red, green, blue, BitVec.extractLsb'_append_extractLsb'_eq_extractLsb' (by decide),
      BitVec.extractLsb'_append_extractLsb'_eq_extractLsb' (by decide)]
    exact BitVec.extractLsb'_eq_self

theorem rgb565_eq_rgb565_iff {r g b r' g' b' : Byte} : rgb565 r g b = rgb565 r' g' b' ↔
    r.extractLsb' 3 5 = r'.extractLsb' 3 5 ∧ g.extractLsb' 2 6 = g'.extractLsb' 2 6 ∧ b.extractLsb' 3 5 = b'.extractLsb' 3 5 := by
  obtain ⟨red, green, blue⟩ := encodedFieldsAreTheTopBits r' g' b'
  rw [rgb565_eq_iff, red, green, blue]

/-- The samples that encode to `p`: its fields, with every value of the dropped bits below them (R204). -/
def preimages (p : Word) : List (Byte × Byte × Byte) :=
  extensions 3 (p.extractLsb' 11 5) ×ˢ extensions 2 (p.extractLsb' 5 6) ×ˢ extensions 3 (p.extractLsb' 0 5)

theorem nodup_preimages (p : Word) : (preimages p).Nodup :=
  (nodup_extensions _).product ((nodup_extensions _).product (nodup_extensions _))

/-- R204: `8 * 4 * 8`. -/
theorem length_preimages (p : Word) : (preimages p).length = 256 := by
  simp only [preimages, List.length_product, length_extensions]
  rfl

theorem mem_preimages {r g b : Byte} {p : Word} : (r, g, b) ∈ preimages p ↔ rgb565 r g b = p := by
  simp only [preimages, List.mem_product, mem_extensions, rgb565_eq_iff]

/-- Settles O44: the masks clear only bits below the fields, equal fields are equal shifts, and `preimages` lists the samples. -/
theorem encodeTruncatesOntoEveryPixel : Obligations.EncodeTruncatesOntoEveryPixel := by
  refine ⟨fun r g b => ?_, fun r g b r' g' b' => ?_, fun p => ?_⟩
  · -- the masks' own fields are all ones
    have kept {m : Nat} (x : BitVec m) : x = x &&& BitVec.allOnes m := BitVec.and_allOnes.symm
    simp only [rgb565_eq_rgb565_iff, BitVec.extractLsb'_and]
    exact ⟨kept _, kept _, kept _⟩
  · rw [rgb565_eq_rgb565_iff, topBits_eq_iff_ushiftRight_eq (by decide), topBits_eq_iff_ushiftRight_eq (by decide),
      topBits_eq_iff_ushiftRight_eq (by decide)]
  · exact ⟨preimages p, nodup_preimages p, length_preimages p, fun _ _ _ => mem_preimages⟩

/-! ### The request ENCODE -/

/-- R205: each lane is a floor, and no lane carries into another. -/
theorem rgb565_eq_ofNat (r g b : Byte) :
    rgb565 r g b = BitVec.ofNat 16 (r.toNat / 8 * 2048 + g.toNat / 4 * 32 + b.toNat / 8) := by
  have value : (rgb565 r g b).toNat = r.toNat / 8 * 2048 + g.toNat / 4 * 32 + b.toNat / 8 := by
    rw [rgb565_eq_append, toNat_append_eq_add, toNat_append_eq_add, toNat_topBits (by decide), toNat_topBits (by decide),
      toNat_topBits (by decide)]
    omega
  rw [← value, BitVec.ofNat_toNat, BitVec.setWidth_eq]

theorem exec_encode {s : State} (r g b : Byte) (ht : s.takes) :
    exec (.encode r g b) s = .next (respond .ok (rgb565 r g b) (accept (.encode r g b) s)) := by
  have taken : (accept (.encode r g b) s).refuses = false := refuses_of_takes (s := accept (.encode r g b) s) ht
  rw [exec_request _ _ rfl, planStart, planEncode, taken]
  rfl

/-- Settles O42: ENCODE is its response (`exec_encode`), whose value is that of the three lanes (`rgb565_eq_ofNat`). -/
theorem encodeAnswersThePixel : Obligations.EncodeAnswersThePixel := by
  intro r g b s ht
  rw [exec_encode r g b ht, rgb565_eq_ofNat]
  rfl

end Sys2Proof.Machine
end

section
/-! ## O30: `draw_check` (spec/44_frame_streamer.md R221) -/

namespace Sys2Proof.Machine

variable {c : Config} {f : Frame}

/-- Check 2 of R221, spelled out. -/
theorem sizeOk_iff : sizeOk c f = true ↔ 1 ≤ f.w ∧ f.w ≤ c.panelW ∧ 1 ≤ f.h ∧ f.h ≤ c.panelH := by
  simp [sizeOk, and_assoc]

/-- Checks 4 and 5 of R221 fail of an indexed frame only. -/
theorem paletteOk_eq_false_iff {src : ColorSource} : paletteOk c src = false ↔
    (∃ indices palette, src = .indexed indices palette ∧ c.palMax < palette.length) ∨
      ∃ indices palette, src = .indexed indices palette ∧ ∃ i ∈ indices, palette.length ≤ i := by
  cases src with
  | direct pixels => simp [paletteOk]
  | indexed indices palette => simp [paletteOk, imp_iff_not_or]

/-- Settles O30: each of R221's checks spelled out decides the next branch of `drawCheck`. -/
theorem drawCheckReportsTheFirstFailure : Obligations.DrawCheckReportsTheFirstFailure := by
  intro c f sized raster longPalette badIndex
  have size : sizeOk c f = true ↔ sized := sizeOk_iff
  have length : rasterLength f.src = raster := rfl
  have palette : paletteOk c f.src = false ↔ longPalette ∨ badIndex := paletteOk_eq_false_iff
  refine ⟨fun bad => ?_, fun good off => ?_, fun good fits short => ?_, fun good fits full wrong => ?_,
    fun good fits full short below => ?_⟩
  · simp [drawCheck, bad]
  · simp [drawCheck, good, size, off]
  · simp [drawCheck, good, size.mpr fits, length, short]
  · simp [drawCheck, good, size.mpr fits, length, full, palette.mpr wrong]
  · have passes : paletteOk c f.src = true := by simpa [short, below] using palette
    simp [drawCheck, good, size.mpr fits, length, full, passes]

end Sys2Proof.Machine
end

section
/-! ## O31: the faults of DRAW_FRAME (spec/44_frame_streamer.md R226) -/

namespace Sys2Proof.Machine

variable {f : Frame} {mk : List ColorSample → Program} {s : State}

theorem planFrame_refused {code : ErrCode} (h : drawCheck s.cfg f = some code) : planFrame f mk s = fatal code s := by
  simp only [planFrame, h]

theorem planFrame_todo {samples : List ColorSample} (h : drawCheck s.cfg f = none) (hs : frameSamples f = some samples) :
    planFrame f mk s = .todo (loadFrameWindow f s) (mk samples) := by
  simp only [planFrame, h, hs]

theorem planDrawFrame_open (ht : s.takes) (hi : s.initState = .on) (hk : s.frKind ≠ .idle) :
    planDrawFrame f s = fatal .protocol s := by
  simp [planDrawFrame, refuses_of_takes ht, hi, hk]

theorem planDrawFrame_ready (hs : s.ready) : planDrawFrame f s = planFrame f (drawProgram s.cfg f) s := by
  obtain ⟨ht, hi, hk⟩ := hs
  simp [planDrawFrame, refuses_of_takes ht, hi, hk]

/-- Settles O31: each clause is the fault its checks come to, taken before any event (`exec_fatal`). -/
theorem drawFrameFaults : Obligations.DrawFrameFaults := by
  intro f s ht hi h
  refine ⟨fun hk => ?_, fun code hk hd => ?_⟩
  · exact exec_fatal rfl ht h (planDrawFrame_open (s := accept (.drawFrame f) s) ht hi hk)
  · have checked := planDrawFrame_ready (f := f) (s := accept (.drawFrame f) s) ⟨ht, hi, hk⟩
    exact exec_fatal rfl ht h (checked.trans (planFrame_refused (s := accept (.drawFrame f) s) hd))

end Sys2Proof.Machine
end

section
/-! ## O59: RAMWR by itself (spec/44_frame_streamer.md R223) -/

namespace Sys2Proof.Machine

/-- RAMWR by itself with no command open and a window goes where its events go. -/
theorem planRamwr_go {s t : State} (hk : s.frKind = .idle) (hw : s.hasWindow = true)
    (h : runSteps (ramwrSteps s.cfg) s = .go t) : (planRamwr s).run.toOutcome = .next t := by
  rw [planRamwr_run, if_neg (by simp [hk, hw]), h]
  rfl

/-- Settles O59: RAMWR's opcode sent calmly over a window (`runSteps_ramwr`), and the panel is that after its opcode. -/
theorem memoryWriteCommandCompletes : Obligations.MemoryWriteCommandCompletes := by
  intro cs ce rs re s hw hk hv h1 h2 h3 h4 hc hr h
  have window : s.hasWindow = true := (hasWindow_iff s).mpr ⟨hv, cs, ce, rs, re, h1, h2, h3, h4, hc, hr⟩
  have panel : panelOpcode s s.cfg.opRamwr = if s.panel.half = none ∧ s.cfg.orient = 0 then
      ⟨some (cs.toNat, rs.toNat), none, s.panel.gram⟩ else Panel.unknown := by
    split
    next known =>
      obtain ⟨half, orient⟩ := known
      exact panelOpcode_ramwr hw half orient h1 h3
    next unknown => exact panelOpcode_ramwr_unknown (not_and_or.mp unknown)
  refine (planRamwr_go hk window (runSteps_ramwr hk h1 h2 h3 h4 ⟨hc, hr⟩ h)).trans ?_
  rw [ramwrSent, panel, dataPhase, Nat.mul_assoc]
  rfl

end Sys2Proof.Machine
end

section
/-! ## O45: DRAW_FRAME performed calmly (spec/44_frame_streamer.md R222, R226; spec/20_memory.md R70) -/

namespace Sys2Proof.Machine

variable {f : Frame} {samples : List ColorSample} {s : State}

/-- Position `y * w + x` of a raster (spec/20_memory.md R62) lies in it. -/
theorem rasterIndex_lt {w h x y : Nat} (hx : x < w) (hy : y < h) : y * w + x < w * h := by
  obtain ⟨hi, -⟩ := List.getElem?_eq_some_iff.mp (rasterOrder_getElem hx hy)
  rwa [rasterOrder_length] at hi

/-- The samples a frame shows are those DRAW_FRAME reads. -/
theorem frameSamples_of_showsRaster (hd : drawCheck s.cfg f = none) (h : showsRaster f samples) :
    frameSamples f = some samples := by
  obtain ⟨cs, hcs⟩ := frameSamples_some hd
  obtain ⟨length, shown⟩ := h
  have same : samples = cs := by
    refine List.ext_getElem? fun i => ?_
    by_cases hi : i < f.w * f.h
    · have wide : 0 < f.w := Nat.pos_of_mul_pos_right (Nat.zero_lt_of_lt hi)
      have col : i % f.w < f.w := Nat.mod_lt i wide
      have row : i / f.w < f.h := Nat.div_lt_of_lt_mul hi
      rw [← Nat.div_add_mod' i f.w, shown _ _ col row, frameSamples_getElem hcs col row]
    · rw [List.getElem?_eq_none (by omega), List.getElem?_eq_none (by rw [frameSamples_length hcs]; omega)]
  rw [hcs, same]

/-! ### The panel -/

/-- A frame that passes its check fits in the panel's coordinates (spec/20_memory.md R71). -/
theorem frame_width_le (hw : s.cfg.wf = true) (hd : drawCheck s.cfg f = none) : f.w ≤ 65536 := by
  obtain ⟨-, ⟨-, fits, -, -⟩, -, -⟩ := drawCheck_none hd
  simp only [Config.wf, Bool.and_eq_true, decide_eq_true_eq] at hw
  obtain ⟨-, -, wide, -⟩ := hw
  exact fits.trans wide

/-- Stored pixels read back at their places. -/
theorem gramPixel_pixelsPut_raster {w x y : Nat} {m : Memory} (hw : w ≤ 65536) (hx : x < w) (hi : y * w + x < samples.length) :
    gramPixel (pixelsPut w 0 m samples) x y = some (encodeSample samples[y * w + x]) := by
  have stored := gramPixel_pixelsPut (k := 0) (m := m) (Nat.zero_lt_of_lt hx) hw hi
  have col : (y * w + x) % w = x := by rw [Nat.mul_add_mod_self_right, Nat.mod_eq_of_lt hx]
  have row : (y * w + x) / w = y := by
    rw [Nat.mul_comm, Nat.mul_add_div (Nat.zero_lt_of_lt hx), Nat.div_eq_of_lt hx, Nat.add_zero]
  rwa [Nat.zero_add, col, row] at stored

/-- Bytes outside the frame read as before. -/
theorem read_pixelsPut_outside {w h a : Nat} {m : Memory} (hn : samples.length = w * h) (ha : ¬ inFrame w h a) :
    (pixelsPut w 0 m samples).read a = m.read a := by
  refine read_pixelsPut_other fun j _ hj => ?_
  rw [Nat.zero_add, hn] at hj
  have col : j % w < w := Nat.mod_lt j (Nat.pos_of_mul_pos_right (Nat.zero_lt_of_lt hj))
  have row : j / w < h := Nat.div_lt_of_lt_mul hj
  exact ⟨fun e => ha ⟨_, _, col, row, .inl e⟩, fun e => ha ⟨_, _, col, row, .inr e⟩⟩

/-- What the panel holds after a frame drawn calmly (spec/20_memory.md R70). -/
theorem panelShows_drawnPanel (hw : s.cfg.wf = true) (hd : drawCheck s.cfg f = none) (h : showsRaster f samples) :
    panelShows s f (drawnPanel f samples s) := by
  obtain ⟨-, -, -, -, -, ne, -, ne', -⟩ := opcodes_ne hw
  obtain ⟨length, shown⟩ := h
  unfold panelShows drawnPanel
  split
  · refine ⟨rfl, rfl, fun x y hx hy => ?_, fun a ha => ?_⟩
    · have hi : y * f.w + x < samples.length := length ▸ rasterIndex_lt hx hy
      rw [gramPixel_pixelsPut_raster (frame_width_le hw hd) hx hi, ← shown x y hx hy, List.getElem?_eq_getElem hi]
      rfl
    · rw [read_pixelsPut_outside length ha, panelOpcode_closed ne ne']
      split <;> rfl
  · rfl

/-! ### The request -/

/-- The state in which DRAW_FRAME's first event is emitted: accepted, the window registers loaded (R222). -/
def frameAccepted (f : Frame) (s : State) : State := loadFrameWindow f (accept (.drawFrame f) s)

/-- DRAW_FRAME of a frame that passes its check, performed calmly. -/
theorem exec_drawFrame_calm (hw : s.cfg.wf = true) (hs : s.ready) (hd : drawCheck s.cfg f = none)
    (hf : frameSamples f = some samples) (h : s.calm (22 + 4 * f.w * f.h) (22 + 4 * f.w * f.h)) :
    exec (.drawFrame f) s = .next (respond .ok 0 (frameDrawn f samples (frameAccepted f s))) := by
  have todo : planFrame f (drawProgram s.cfg f) (accept (.drawFrame f) s) = .todo (frameAccepted f s) _ :=
    planFrame_todo (s := accept (.drawFrame f) s) hd hf
  have drawn : runSteps (drawSteps s.cfg f samples) (frameAccepted f s) = .go _ :=
    drawSteps_run (s := frameAccepted f s) hw hs.2.2 hd hf rfl rfl rfl rfl h
  rw [exec_drawFrame hs, todo, Plan.run_todo, drawProgram, drawn]
  rfl

/-- Settles O45: the request is `exec_drawFrame_calm`, and the panel is `panelShows_drawnPanel`. -/
theorem drawFrameDrawsTheFrame : Obligations.DrawFrameDrawsTheFrame := by
  intro f samples s hw hs hd shows h
  refine ⟨drawnPanel f samples (frameAccepted f s), ?_, ?_⟩
  · exact panelShows_drawnPanel (s := frameAccepted f s) hw hd shows
  · obtain ⟨cols, rows⟩ := frameWindow_ends f
    have accepted : (frameAccepted f s).evPtr = 0 := rfl
    rw [exec_drawFrame_calm hw hs hd (frameSamples_of_showsRaster hd shows) h, frameDrawn, accepted, Nat.zero_add, drawTrace,
      frameAccepted, loadFrameWindow, cols, rows]
    rfl

end Sys2Proof.Machine
end

section
/-! ## O46: what a DRAW_FRAME that answers OK sends (spec/44_frame_streamer.md R229)

Such a DRAW_FRAME passed its checks and was not cut, so its whole trace stands in the log. -/

namespace Sys2Proof.Machine

variable {f : Frame} {s t : State}

/-- The events of `draw_frame` are those of its trace (spec/30_encoding.md R105). -/
theorem drawSteps_events (c : Config) (f : Frame) (samples : List ColorSample) :
    (drawSteps c f samples).map (fun g => g.ev) = drawTrace c f samples := by
  have pixels : (samples.flatMap pixelSteps).map (fun g => g.ev) = dataTrace (pixelBytes samples) := by
    rw [pixelSteps_flatMap, List.map_flatMap]
    rfl
  rw [drawSteps, List.map_append, pixels]
  rfl

theorem drawSteps_not_release {c : Config} {samples : List ColorSample} : ∀ g ∈ drawSteps c f samples, g.ev ≠ .release := by
  intro g hg e
  have mem : Event.release ∈ drawTrace c f samples := drawSteps_events c f samples ▸ e ▸ List.mem_map_of_mem hg
  simp [drawTrace, windowTrace, cmdTrace, dataTrace] at mem

/-- Everything DRAW_FRAME can do at its checks (R226). -/
theorem planDrawFrame_cases (f : Frame) (s : State) :
    planDrawFrame f s = refuse s ∨ (∃ code, planDrawFrame f s = fatal code s) ∨
      ∃ samples, frameSamples f = some samples ∧
        planDrawFrame f s = .todo (loadFrameWindow f s) (drawProgram s.cfg f samples) := by
  unfold planDrawFrame
  split_ifs
  · exact .inl rfl
  · exact .inr (.inl ⟨_, rfl⟩)
  · exact .inr (.inl ⟨_, rfl⟩)
  · cases hd : drawCheck s.cfg f with
    | some code => exact .inr (.inl ⟨code, planFrame_refused hd⟩)
    | none =>
      obtain ⟨samples, hs⟩ := frameSamples_some hd
      exact .inr (.inr ⟨samples, hs, planFrame_todo hd hs⟩)

/-- A DRAW_FRAME that answers OK sent its whole trace. -/
theorem exec_drawFrame_ok (e : exec (.drawFrame f) s = .next t) (ok : t.responses = ⟨.ok, 0⟩ :: s.responses) :
    ∃ samples, frameSamples f = some samples ∧ t.log = (drawTrace s.cfg f samples).reverse ++ s.log := by
  rw [exec_request _ _ rfl, planStart] at e
  obtain plan | ⟨code, plan⟩ | ⟨samples, hs, plan⟩ := planDrawFrame_cases f (accept (.drawFrame f) s) <;> rw [plan] at e
  · cases e
    simp [respond] at ok
  · cases e
    exact absurd ok (raise_unanswered code (accept (.drawFrame f) s)).ne_ok
  · rw [Plan.run_todo] at e
    cases run : runSteps (drawProgram s.cfg f samples).steps (frameAccepted f s) with
    | go u =>
      cases run ▸ e
      exact ⟨samples, hs, drawSteps_events s.cfg f samples ▸ (runSteps_go_log run).1⟩
    | ended u =>
      cases run ▸ e
      exact absurd ok (runSteps_ended_unanswered (silent_drawSteps _ _ _) drawSteps_not_release run).ne_ok
    | stuck x => cases run ▸ e

/-- Settles O46: the whole trace ends in the opcode and the bytes of the frame's samples, two to each (`exec_drawFrame_ok`). -/
theorem drawFrameSendsTwoBytesAPixel : Obligations.DrawFrameSendsTwoBytesAPixel := by
  intro f s t e ok
  obtain ⟨samples, hs, log⟩ := exec_drawFrame_ok e ok
  refine ⟨pixelBytes samples, (windowTrace s.cfg 0 (frameColEnd f) 0 (frameRowEnd f)).reverse ++ s.log, ?_, ?_⟩
  · rw [pixelBytes_length, frameSamples_length hs, Nat.mul_assoc]
  · rw [log]
    simp [drawTrace, cmdTrace, dataTrace]

end Sys2Proof.Machine
end

section
/-! ## O47: frames of the same samples (spec/44_frame_streamer.md R220)

The only difference between DRAW_FRAME of one and of the other is the request CUR_REQ names. No event, action or fault reads it
(`runSteps_unnamed`), and each way the request ends clears it. -/

namespace Sys2Proof.Machine

variable {f g : Frame}

/-! ### CUR_REQ is not read -/

/-- The state with no request named. -/
def State.unnamed (s : State) : State := { s with curReq := none }

/-- A flow that goes on with no request named. -/
def Flow.unnamed : Flow → Flow
  | .go s => .go s.unnamed
  | .ended s => .ended s
  | .stuck f => .stuck f

theorem openDataPhase_unnamed (s : State) : openDataPhase s.unnamed = (openDataPhase s).unnamed := by
  simp only [openDataPhase, State.unnamed]
  split
  · split <;> rfl
  · rfl

theorem openPayload_unnamed (op : Byte) (s : State) : openPayload op s.unnamed = (openPayload op s).unnamed := by
  have same : payloadLen s.unnamed.cfg op = payloadLen s.cfg op := rfl
  unfold openPayload
  rw [openDataPhase_unnamed, same, apply_ite Flow.unnamed, apply_ite Flow.unnamed]
  congr 2
  rcases payloadLen s.cfg op with _ | _ | n <;> rfl

theorem countOff_unnamed (s : State) : countOff s.unnamed = (countOff s).unnamed := by
  have same : s.unnamed.frRem = s.frRem := rfl
  unfold countOff
  rw [same, apply_ite Flow.unnamed]
  congr 1
  rcases s.frRem with _ | _ | n <;> rfl

theorem pairDone_unnamed (len : Nat) (policy : Policy) (s : State) :
    pairDone len policy s.unnamed = (pairDone len policy s).unnamed := by
  unfold pairDone
  rw [apply_ite State.unnamed]
  congr 1
  cases policy <;> rfl

theorem act_unnamed (a : Act) (s : State) : act a s.unnamed = (act a s).unnamed := by
  cases a with
  | openPayload op => exact openPayload_unnamed op s
  | countOff => exact countOff_unnamed s
  | setInit st => rfl
  | windowSent => rfl
  | pairDone len policy => exact congrArg Flow.go (pairDone_unnamed len policy s)
  | answer st v => rfl

theorem runActs_unnamed (as : List Act) (s : State) : runActs as s.unnamed = (runActs as s).unnamed := by
  induction as generalizing s with
  | nil => rfl
  | cons a as ih =>
    rw [runActs_cons, runActs_cons, act_unnamed]
    cases e : act a s with
    | go t => exact ih t
    | ended t => rfl
    | stuck f => rfl

theorem record_unnamed (ev : Event) (s : State) : record ev s.unnamed = (record ev s).unnamed := by
  cases ev <;> rfl

theorem emit_unnamed (ev : Event) (s : State) : emit ev s.unnamed =
    if s.rstReads then .reset (record ev s).unnamed else if eventFails ev s then .failed (record ev s).unnamed
    else .performed (record ev s).unnamed := by
  rw [← record_unnamed]
  rfl

theorem raise_unnamed (code : ErrCode) (s : State) : raise code s.unnamed = raise code s := by
  have marked : markFatal code s.unnamed = (markFatal code s).unnamed := rfl
  unfold raise releaseAndRespond
  rw [marked, emit_unnamed, emit]
  congr 1
  split_ifs <;> rfl

/-- One event: a failure or a block reset clears CUR_REQ. -/
theorem perform_unnamed (g : EvStep) (s : State) : perform g s.unnamed = (perform g s).unnamed := by
  unfold perform
  rw [emit_unnamed, emit]
  split_ifs
  · rfl
  · exact congrArg Flow.ended (raise_unnamed _ _)
  · exact runActs_unnamed _ _

theorem runSteps_unnamed (gs : List EvStep) (s : State) : runSteps gs s.unnamed = (runSteps gs s).unnamed := by
  induction gs generalizing s with
  | nil => rfl
  | cons g gs ih =>
    rw [runSteps_cons, runSteps_cons, perform_unnamed]
    cases perform g s with
    | go t => exact ih t
    | ended t => rfl
    | stuck f => rfl

/-- A program that ends in a response comes out the same whatever request is named. -/
theorem todo_unnamed (gs : List EvStep) (st : Status) (v : Word) (s : State) :
    (Plan.todo s.unnamed ⟨gs, [.answer st v]⟩).run = (Plan.todo s ⟨gs, [.answer st v]⟩).run := by
  rw [Plan.run_todo, Plan.run_todo, runSteps_unnamed]
  cases runSteps gs s <;> rfl

theorem fatal_unnamed (code : ErrCode) (s : State) : (fatal code s.unnamed).run = (fatal code s).run :=
  congrArg Flow.ended (raise_unnamed code s)

theorem planFrame_unnamed (f : Frame) (s : State) :
    (planFrame f (drawProgram s.cfg f) s.unnamed).run = (planFrame f (drawProgram s.cfg f) s).run := by
  cases hd : drawCheck s.cfg f with
  | some code =>
    rw [planFrame_refused hd, planFrame_refused (s := s.unnamed) hd]
    exact fatal_unnamed code s
  | none =>
    obtain ⟨samples, hs⟩ := frameSamples_some hd
    rw [planFrame_todo hd hs, planFrame_todo (s := s.unnamed) hd hs]
    exact todo_unnamed _ _ _ (loadFrameWindow f s)

/-- The same check before plans that come to the same. -/
theorem run_ite_congr {b : Prop} [Decidable b] {p q p' q' : Plan} (hp : p.run = p'.run) (hq : q.run = q'.run) :
    (if b then p else q).run = (if b then p' else q').run := by
  split
  · exact hp
  · exact hq

theorem planDrawFrame_unnamed (f : Frame) (s : State) : (planDrawFrame f s.unnamed).run = (planDrawFrame f s).run :=
  run_ite_congr rfl (run_ite_congr (fatal_unnamed _ s) (run_ite_congr (fatal_unnamed _ s) (planFrame_unnamed f s)))

/-! ### Frames -/

theorem resolveAll_congr {ps : List (Nat × Nat)} (h : ∀ p ∈ ps, resolve f p.1 p.2 = resolve g p.1 p.2) :
    resolveAll f ps = resolveAll g ps := by
  induction ps with
  | nil => rfl
  | cons p ps ih =>
    obtain ⟨first, rest⟩ := List.forall_mem_cons.mp h
    simp only [resolveAll, first, ih rest]

/-- DRAW_FRAME does the same with two frames that pass their checks and show the same samples. -/
theorem planDrawFrame_congr {s : State} (hf : drawCheck s.cfg f = none) (hg : drawCheck s.cfg g = none) (hw : f.w = g.w)
    (hh : f.h = g.h) (h : ∀ x y, x < f.w → y < f.h → resolve f x y = resolve g x y) :
    planDrawFrame f s = planDrawFrame g s := by
  have samples : frameSamples f = frameSamples g := by
    rw [frameSamples, frameSamples, ← hw, ← hh]
    refine resolveAll_congr fun p hp => ?_
    obtain ⟨col, row⟩ := mem_rasterOrder.mp hp
    exact h _ _ col row
  unfold planDrawFrame planFrame
  simp only [hf, hg, samples, loadFrameWindow, drawProgram, drawSteps, frameColEnd, frameRowEnd, hw, hh]

/-- Settles O47: with no request named both requests are one plan (`planDrawFrame_congr`). -/
theorem sameSamplesRunTheSame : Obligations.SameSamplesRunTheSame := by
  intro f g s hf hg hw hh h
  have plans := planDrawFrame_congr (s := (accept (.drawFrame f) s).unnamed) hf hg hw hh h
  rw [exec_request _ _ rfl, exec_request _ _ rfl, planStart, planStart, ← planDrawFrame_unnamed, plans,
    ← planDrawFrame_unnamed g (accept (.drawFrame g) s)]
  rfl

end Sys2Proof.Machine
end

section
/-! ## The checks of ANIMATE and its frame boundaries (spec/45_animation_sequencer.md R251, R253)

What ANIMATE does is what it does from a frame boundary on: the first one once its checks pass (`exec_animate`), a later one where a step
finds it (`step_atBoundary`). -/

namespace Sys2Proof.Machine

variable {seq : List (Frame × Nat)} {policy : Policy} {s : State} {f : Frame} {d : Nat}

/-! ### Acceptance -/

theorem planAnimate_open (ht : s.takes) (hi : s.initState = .on) (hk : s.frKind ≠ .idle) :
    planAnimate seq policy s = fatal .protocol s := by
  simp [planAnimate, refuses_of_takes ht, hi, hk]

theorem planAnimate_empty (hs : s.ready) : planAnimate [] policy s = fatal .illegalRequest s := by
  obtain ⟨ht, hi, hk⟩ := hs
  simp [planAnimate, refuses_of_takes ht, hi, hk]

theorem planAnimate_ready (hs : s.ready) (hl : seq ≠ []) :
    planAnimate seq policy s = planBoundary seq policy { s with animActive := true, animIdx := 0 } := by
  obtain ⟨ht, hi, hk⟩ := hs
  simp [planAnimate, refuses_of_takes ht, hi, hk, hl]

/-- The first frame boundary of an accepted ANIMATE. -/
def animateAccepted (seq : List (Frame × Nat)) (policy : Policy) (s : State) : State :=
  { accept (.animate seq policy) s with animActive := true, animIdx := 0 }

theorem exec_animate (hs : s.ready) (hl : seq ≠ []) :
    exec (.animate seq policy) s = (planBoundary seq policy (animateAccepted seq policy s)).run.toOutcome := by
  rw [exec_request _ _ rfl, planStart, planAnimate_ready (s := accept (.animate seq policy) s) hs hl]
  rfl

/-! ### A step at a frame boundary -/

/-- With ANIM_ACTIVE = 1 the step pointer, not the request's checks, says where ANIMATE goes on (spec/10_state.md R25). -/
theorem planOf_boundary (hq : s.curReq = some (.animate seq policy)) (ha : s.animActive = true)
    (ho : pairOffset seq policy s.animIdx s.evPtr = 0) : planOf s = planBoundary seq policy s := by
  simp [planOf, hq, ha, planRest, planPair, ho]

theorem step_atBoundary (hw : s.cfg.wf = true) (hr : s.rstReads = false) (hc : s.cmdPort = none) (hb : s.busy = true)
    (hq : s.curReq = some (.animate seq policy)) (ha : s.animActive = true)
    (ho : pairOffset seq policy s.animIdx s.evPtr = 0) :
    step s = (planBoundary seq policy s.popRst).run.toOutcome := by
  rw [step_running hw hr hc hb, resume, planOf_boundary (s := s.popRst) hq ha ho]

/-! ### The stop sample (R253) -/

theorem planBoundary_stopped (h : s.stopReads = true) :
    (planBoundary seq policy s).run = .go (respond .stopped 0 { s.popStop with animActive := false }) := if_pos h

theorem planBoundary_unstopped (h : s.stopReads = false) (hp : seq[s.animIdx]? = some (f, d)) :
    (planBoundary seq policy s).run = (planFrame f (pairProgram s.cfg f d seq.length policy) s.popStop).run := by
  have index : seq[s.popStop.animIdx]? = some (f, d) := hp
  simp only [planBoundary, Plan.run, h, planPairStart, index]
  rfl

/-- A pair whose frame fails its check takes the fatal path at its boundary (R258). -/
theorem planBoundary_refused {code : ErrCode} (h : s.stopReads = false) (hp : seq[s.animIdx]? = some (f, d))
    (hd : drawCheck s.cfg f = some code) (ht : s.released = false) (hr : quiet 1 s.inputs.rst = true) :
    (planBoundary seq policy s).run =
      .ended { faulted code (faultValue code) s.popStop.inputs s with evPtr := s.evPtr } := by
  rw [planBoundary_unstopped h hp, planFrame_refused (s := s.popStop) hd, fatal_run, raise_faulted (s := s.popStop) ht hr]
  rfl

end Sys2Proof.Machine
end

section
/-! ## O32, O50: how ANIMATE ends without drawing (spec/45_animation_sequencer.md R251, R256, R257, R258) -/

namespace Sys2Proof.Machine

/-- Settles O32: the first two clauses are faults of ANIMATE's checks (`exec_fatal`), the last one of its first boundary
(`planBoundary_refused`). -/
theorem animateFaults : Obligations.AnimateFaults := by
  intro seq policy s ht hi h
  refine ⟨fun hk => ?_, fun hk hl => ?_, fun f d rest code hk hl hr hd => ?_⟩
  · exact exec_fatal rfl ht h (planAnimate_open (s := accept (.animate seq policy) s) ht hi hk)
  · subst hl
    exact exec_fatal rfl ht h (planAnimate_empty (s := accept (.animate [] policy) s) ⟨ht, hi, hk⟩)
  · subst hl
    rw [exec_animate ⟨ht, hi, hk⟩ (by simp), planBoundary_refused (s := animateAccepted _ policy s) hr rfl hd ht.2 h]
    rfl

/-- Settles O50: at each of the two boundaries the stop sample decides (`planBoundary_stopped`), and where it reads false the frame's
check does (`planBoundary_refused`). -/
theorem animateEndsAtABoundary : Obligations.AnimateEndsAtABoundary := by
  intro seq policy s
  refine ⟨fun hs hl stop => ?_, fun hw hc hb hq ha _ ho => ⟨fun hr stop => ?_, fun f d code h stop ht hp hd => ?_⟩⟩
  · rw [exec_animate hs hl, planBoundary_stopped (s := animateAccepted seq policy s) stop]
    rfl
  · rw [step_atBoundary hw hr hc hb hq ha ho, planBoundary_stopped (s := s.popRst) stop]
    rfl
  · obtain ⟨hr, later⟩ := quiet_succ h
    rw [step_atBoundary hw hr hc hb hq ha ho, planBoundary_refused (s := s.popRst) stop hp hd ht.2 later]
    rfl

end Sys2Proof.Machine
end

section
/-! ## O48, O49: a pair drawn and waited (spec/45_animation_sequencer.md R251 to R255, R259)

A frame boundary whose stop sample reads false draws its pair (`planBoundary_calm`); `pairDone` says where the request then stands. -/

namespace Sys2Proof.Machine

variable {seq : List (Frame × Nat)} {policy : Policy} {s : State} {f : Frame} {d : Nat} {samples : List ColorSample}

/-! ### The events of a pair -/

/-- The state after a frame boundary's stop sample and the events of its pair performed calmly. -/
def pairDrawn (f : Frame) (d : Nat) (samples : List ColorSample) (s : State) : State :=
  { s with
    evPtr := s.evPtr + (23 + 4 * f.w * f.h)
    dcLine := .data
    frKind := .idle
    frRem := 0
    winCs := some 0
    winCe := some (BitVec.ofNat 16 (f.w - 1))
    winRs := some 0
    winRe := some (BitVec.ofNat 16 (f.h - 1))
    winValid := true
    log := .wait d :: ((drawTrace s.cfg f samples).reverse ++ s.log)
    panel := drawnPanel f samples (loadFrameWindow f s)
    inputs := { s.inputs.after (22 + 4 * f.w * f.h) (23 + 4 * f.w * f.h) with stop := s.inputs.stop.tail } }

/-- The WAIT after the frame (R259) adds one event, one reading of `rst_in` and no failure report. -/
theorem record_wait_frameDrawn (f : Frame) (d : Nat) (samples : List ColorSample) (s : State) :
    record (.wait d) (frameDrawn f samples (loadFrameWindow f s.popStop)) = pairDrawn f d samples s := by
  obtain ⟨cols, rows⟩ := frameWindow_ends f
  apply State.ext
  case evPtr =>
    simp only [record_evPtr, frameDrawn, pairDrawn, loadFrameWindow, loadWindow_evPtr, popStop_evPtr]
    omega
  case inputs =>
    rw [record_inputs, inputsAfter_eq, frameDrawn, Inputs.after_after, Nat.add_comm _ 1, ← Nat.add_assoc]
    rfl
  case winCe => exact congrArg some cols
  case winRe => exact congrArg some rows
  all_goals rfl

theorem runSteps_pair (hw : s.cfg.wf = true) (hk : s.frKind = .idle) (hd : drawCheck s.cfg f = none)
    (hs : frameSamples f = some samples) (h : s.calm (22 + 4 * f.w * f.h) (23 + 4 * f.w * f.h)) (len : Nat) :
    runSteps (pairProgram s.cfg f d len policy samples).steps (loadFrameWindow f s.popStop) = .go (pairDrawn f d samples s) := by
  have drawn : runSteps (drawSteps s.cfg f samples) (loadFrameWindow f s.popStop) = .go _ :=
    drawSteps_run (s := loadFrameWindow f s.popStop) hw hk hd hs rfl rfl rfl rfl (h.mono le_rfl (by omega))
  have waits : (frameDrawn f samples (loadFrameWindow f s.popStop)).calm 0 1 :=
    State.calm.later (s := s.popStop) (h.mono le_rfl (by omega)) rfl
  rw [pairProgram, runSteps_append, drawn, Flow.go_andThen, runSteps_one, perform_wait waits, record_wait_frameDrawn, runActs_nil]

/-- A frame boundary whose stop sample reads false and whose frame passes its check, performed calmly. -/
theorem planBoundary_calm (hw : s.cfg.wf = true) (hk : s.frKind = .idle) (stop : s.stopReads = false)
    (hp : seq[s.animIdx]? = some (f, d)) (hd : drawCheck s.cfg f = none) (hs : frameSamples f = some samples)
    (h : s.calm (22 + 4 * f.w * f.h) (23 + 4 * f.w * f.h)) :
    (planBoundary seq policy s).run = .go (pairDone seq.length policy (pairDrawn f d samples s)) := by
  rw [planBoundary_unstopped stop hp, planFrame_todo (s := s.popStop) hd hs, Plan.run_todo, runSteps_pair hw hk hd hs h]
  rfl

/-! ### The end of a pair -/

/-- ANIM_IDX set to `n`. -/
def State.withIndex (n : Nat) (s : State) : State := { s with animIdx := n }

@[simp] theorem withIndex_cfg (n : Nat) (s : State) : (s.withIndex n).cfg = s.cfg := rfl
@[simp] theorem withIndex_evPtr (n : Nat) (s : State) : (s.withIndex n).evPtr = s.evPtr := rfl
@[simp] theorem withIndex_log (n : Nat) (s : State) : (s.withIndex n).log = s.log := rfl

theorem pairDone_more {len : Nat} (h : s.animIdx + 1 ≠ len) : pairDone len policy s = s.withIndex (s.animIdx + 1) := if_neg h

theorem pairDone_last_once {len : Nat} (h : s.animIdx + 1 = len) :
    pairDone len .once s = respond .ok 0 { s with animIdx := s.animIdx + 1, animActive := false } := if_pos h

theorem pairDone_last_repeating {len : Nat} (h : s.animIdx + 1 = len) : pairDone len .repeating s = s.withIndex 0 := if_pos h

/-! ### The first pair and a later one -/

/-- Settles O48: ANIMATE's first boundary (`exec_animate`) draws its pair (`planBoundary_calm`); then the three cases of its end. -/
theorem animateDrawsItsFirstPair : Obligations.AnimateDrawsItsFirstPair := by
  intro f d rest policy samples s hw hs stop hd shows h
  refine ⟨drawnPanel f samples (loadFrameWindow f (animateAccepted ((f, d) :: rest) policy s)), ?_, ?_⟩
  · exact panelShows_drawnPanel (s := loadFrameWindow f (animateAccepted ((f, d) :: rest) policy s)) hw hd shows
  · have drawn : exec (.animate ((f, d) :: rest) policy) s = .next (pairDone (rest.length + 1) policy
        (pairDrawn f d samples (animateAccepted ((f, d) :: rest) policy s))) := by
      rw [exec_animate hs (by simp), planBoundary_calm (s := animateAccepted _ policy s) hw hs.2.2 stop rfl hd
        (frameSamples_of_showsRaster hd shows) h]
      rfl
    rw [drawn, pairDrawn, show (animateAccepted ((f, d) :: rest) policy s).evPtr = 0 from rfl, Nat.zero_add]
    cases rest with
    | nil =>
      cases policy with
      | once => rfl
      | repeating => rfl
    | cons p ps =>
      rw [pairDone_more (by simp [animateAccepted])]
      rfl

/-- A reading of `rst_in` before others. -/
theorem Inputs.after_tail_rst (i : Inputs) (a b : Nat) : { i with rst := i.rst.tail }.after a b = i.after a (1 + b) := by
  simp [Inputs.after, Nat.add_comm 1]

theorem State.calm.popRst {a b : Nat} (h : s.calm a (1 + b)) : s.popRst.calm a b :=
  State.calm.later (a := 0) (b := 1) (by rwa [Nat.zero_add]) (by simp [Inputs.after])

/-- Settles O49: the step goes on at the boundary (`step_atBoundary`) and draws its pair (`planBoundary_calm`); then the three cases of
its end. -/
theorem animateDrawsItsNextPair : Obligations.AnimateDrawsItsNextPair := by
  intro seq policy f d samples s hw hc hb hq ha _ ho hp hk stop hd shows h
  refine ⟨drawnPanel f samples (loadFrameWindow f s.popRst), ?_, ?_⟩
  · exact panelShows_drawnPanel (s := loadFrameWindow f s.popRst) hw hd shows
  · have readings : 24 + 4 * f.w * f.h = 1 + (23 + 4 * f.w * f.h) := by omega
    rw [readings] at h ⊢
    obtain ⟨inside, -⟩ := List.getElem?_eq_some_iff.mp hp
    rw [step_atBoundary hw (rstReads_calm (Nat.add_comm 1 _ ▸ h)) hc hb hq ha ho,
      planBoundary_calm (s := s.popRst) hw hk stop hp hd (frameSamples_of_showsRaster hd shows) h.popRst, pairDrawn,
      popRst_inputs, Inputs.after_tail_rst]
    split
    next more =>
      rw [pairDone_more (by exact Nat.ne_of_lt more)]
      rfl
    next last =>
      have last : s.animIdx + 1 = seq.length := by omega
      cases policy with
      | once =>
        rw [pairDone_last_once (by exact last)]
        rfl
      | repeating =>
        rw [pairDone_last_repeating (by exact last)]
        rfl

end Sys2Proof.Machine
end

section
/-! ## Runs of ANIMATE

Between two pairs the block stands at a frame boundary (`State.AtFrame`), and the events of a pair lead to the next one
(`State.AtFrame.drawn`). -/

namespace Sys2Proof.Machine

variable {seq : List (Frame × Nat)} {policy : Policy} {s t : State} {f : Frame} {d : Nat} {samples : List ColorSample}

theorem run_succ (h : step s = .next t) (n : Nat) : core.run (n + 1) s = core.run n t := by
  have core_step : core.step s = .next t := h
  simp only [Host.Core.run, core_step]

/-! ### The events of a pair, counted and in the trace -/

theorem seqEvents_cons (p : Frame × Nat) (pairs : List (Frame × Nat)) :
    seqEvents (p :: pairs) = pairEvents p + seqEvents pairs := rfl

theorem pairEvents_eq (f : Frame) (d : Nat) : pairEvents (f, d) = 23 + 4 * f.w * f.h := by
  simp only [pairEvents]
  omega

theorem pairDrawn_evPtr : (pairDrawn f d samples s).evPtr = s.evPtr + pairEvents (f, d) :=
  congrArg (s.evPtr + ·) (pairEvents_eq f d).symm

theorem pairDrawn_log (hs : frameSamples f = some samples) :
    (pairDrawn f d samples s).log = (pairTrace s.cfg (f, d)).reverse ++ s.log := by
  simp [pairDrawn, pairTrace, hs]

theorem pairTrace_length (hs : frameSamples f = some samples) (c : Config) : (pairTrace c (f, d)).length = pairEvents (f, d) := by
  simp only [pairTrace, hs, ← drawSteps_events, List.length_append, List.length_map, drawSteps_length hs]
  rfl

/-! ### Frame boundaries -/

/-- A well-formed build that stands at a frame boundary of the ANIMATE it runs: what a step needs of `State.AtPair`. -/
structure State.AtFrame (seq : List (Frame × Nat)) (policy : Policy) (s : State) : Prop where
  wf : s.cfg.wf = true
  port : s.cmdPort = none
  frKind : s.frKind = .idle
  busy : s.busy = true
  curReq : s.curReq = some (.animate seq policy)
  animActive : s.animActive = true
  index : s.animIdx < seq.length
  offset : pairOffset seq policy s.animIdx s.evPtr = 0

theorem animateAccepted_atFrame (hw : s.cfg.wf = true) (hc : s.cmdPort = none) (hk : s.frKind = .idle) (hl : seq ≠ [])
    (policy : Policy) : (animateAccepted seq policy s).AtFrame seq policy where
  wf := hw
  port := hc
  frKind := hk
  busy := rfl
  curReq := rfl
  animActive := rfl
  index := List.length_pos_of_ne_nil hl
  offset := by cases policy <;> simp [animateAccepted, pairOffset, seqEvents]

namespace State.AtFrame

theorem popRst (h : s.AtFrame seq policy) : s.popRst.AtFrame seq policy := { h with }

theorem step (h : s.AtFrame seq policy) (hr : s.rstReads = false) :
    step s = (planBoundary seq policy s.popRst).run.toOutcome :=
  step_atBoundary h.wf hr h.port h.busy h.curReq h.animActive h.offset

/-- With the pair drawn, a step pointer at the boundary of pair `k` is a frame boundary. -/
theorem drawn {k : Nat} (h : s.AtFrame seq policy) (hk : k < seq.length)
    (ho : pairOffset seq policy k (s.evPtr + pairEvents (f, d)) = 0) :
    ((pairDrawn f d samples s).withIndex k).AtFrame seq policy :=
  { h with
    frKind := rfl
    index := hk
    offset := by rwa [← pairDrawn_evPtr (samples := samples)] at ho }

end State.AtFrame

end Sys2Proof.Machine
end

section
/-! ## O51: an undisturbed ANIMATE under ONCE (spec/45_animation_sequencer.md R254, R261)

By induction on the pairs that remain at a frame boundary (`planBoundary_once_ends`). -/

namespace Sys2Proof.Machine

variable {seq : List (Frame × Nat)} {s t : State} {f : Frame} {d : Nat} {samples : List ColorSample}

/-- From a frame boundary on, the frames of `pairs` pass their checks, and no stop, failure or block reset comes while they are drawn;
`rst_in` is read before the step of each pair but the first, whose step has read it. -/
structure RunsCalmly (pairs : List (Frame × Nat)) (s : State) : Prop where
  checks : ∀ p ∈ pairs, drawCheck s.cfg p.1 = none
  stop : quiet pairs.length s.inputs.stop = true
  calm : s.calm (seqEvents pairs) (seqEvents pairs + pairs.tail.length)

namespace RunsCalmly

variable {p q : Frame × Nat} {pairs : List (Frame × Nat)}

theorem stopReads (h : RunsCalmly (p :: pairs) s) : s.stopReads = false := (quiet_succ h.stop).1

theorem pair_calm (h : RunsCalmly ((f, d) :: pairs) s) : s.calm (22 + 4 * f.w * f.h) (23 + 4 * f.w * f.h) := by
  have events := pairEvents_eq f d
  have total := seqEvents_cons (f, d) pairs
  exact h.calm.mono (by omega) (by omega)

/-- The pair of the boundary is drawn. -/
theorem draws {seq : List (Frame × Nat)} {policy : Policy} (h : RunsCalmly ((f, d) :: pairs) s) (hs : s.AtFrame seq policy)
    (hp : seq[s.animIdx]? = some (f, d)) : ∃ samples, frameSamples f = some samples ∧
      (planBoundary seq policy s).run = .go (pairDone seq.length policy (pairDrawn f d samples s)) := by
  have hd : drawCheck s.cfg f = none := h.checks (f, d) List.mem_cons_self
  obtain ⟨samples, shown⟩ := frameSamples_some hd
  exact ⟨samples, shown, planBoundary_calm hs.wf hs.frKind h.stopReads hp hd shown h.pair_calm⟩

/-- With the first pair drawn no block reset comes before the next, and nothing disturbs the rest. -/
theorem next (h : RunsCalmly ((f, d) :: q :: pairs) s) (k : Nat) :
    (pairDrawn f d samples s).rstReads = false ∧
      RunsCalmly (q :: pairs) ((pairDrawn f d samples s).withIndex k).popRst := by
  have events := pairEvents_eq f d
  have total := seqEvents_cons (f, d) (q :: pairs)
  have later : (pairDrawn f d samples s).calm (seqEvents (q :: pairs)) (1 + (seqEvents (q :: pairs) + pairs.length)) :=
    State.calm.later (s := s.popStop) (h.calm.mono (by omega) (by simp only [List.tail_cons, List.length_cons]; omega)) rfl
  refine ⟨rstReads_calm (Nat.add_comm 1 _ ▸ later), ?_, ?_, ?_⟩
  · exact (List.forall_mem_cons.mp h.checks).2
  · exact (quiet_succ h.stop).2
  · exact later.popRst

end RunsCalmly

/-- The animation is over: from `s` on `pairs` were drawn and waited for, and OK is the one answer. -/
structure AnimationEnded (pairs : List (Frame × Nat)) (s t : State) : Prop where
  busy : t.busy = false
  curReq : t.curReq = none
  animActive : t.animActive = false
  responses : t.responses = ⟨.ok, 0⟩ :: s.responses
  log : t.log = (sequenceTrace s.cfg pairs).reverse ++ s.log
  evPtr : t.evPtr = s.evPtr + seqEvents pairs
  requests : t.inputs.requests = s.inputs.requests
  halted : t.halted = s.halted
  err : t.err = s.err

namespace AnimationEnded

variable {pairs : List (Frame × Nat)}

/-- R254: the last pair's WAIT ends the request. -/
theorem last (hs : frameSamples f = some samples) (n : Nat) :
    AnimationEnded [(f, d)] s (respond .ok 0 { pairDrawn f d samples s with animIdx := n, animActive := false }) where
  busy := rfl
  curReq := rfl
  animActive := rfl
  responses := rfl
  log := by simpa [sequenceTrace] using pairDrawn_log (d := d) (s := s) hs
  evPtr := pairDrawn_evPtr (samples := samples)
  requests := rfl
  halted := rfl
  err := rfl

/-- A pair before the others. -/
theorem cons (hs : frameSamples f = some samples) {k : Nat}
    (h : AnimationEnded pairs ((pairDrawn f d samples s).withIndex k).popRst t) : AnimationEnded ((f, d) :: pairs) s t :=
  { h with
    log := by
      rw [h.log, popRst_log, withIndex_log, pairDrawn_log hs]
      simp [sequenceTrace, pairDrawn]
    evPtr := by
      rw [h.evPtr, popRst_evPtr, withIndex_evPtr, pairDrawn_evPtr, seqEvents_cons, Nat.add_assoc] }

end AnimationEnded

/-- The pairs left at a frame boundary begin with its own, and the others are left at the next one. -/
theorem pairs_left {i : Nat} {p : Frame × Nat} {pairs : List (Frame × Nat)} (left : seq.drop i = p :: pairs) :
    seq[i]? = some p ∧ seq.drop (i + 1) = pairs ∧ seq.length = i + 1 + pairs.length := by
  have here : seq[i]? = some p := by simpa [left] using (List.getElem?_drop (xs := seq) (i := i) (j := 0)).symm
  have after : seq.drop (i + 1) = pairs := by rw [← List.tail_drop, left, List.tail_cons]
  obtain ⟨inside, -⟩ := List.getElem?_eq_some_iff.mp here
  refine ⟨here, after, ?_⟩
  rw [← after, List.length_drop]
  omega

/-- From the boundary of pair `p` on, one step of the machine a pair. -/
theorem planBoundary_once_ends {p : Frame × Nat} {pairs : List (Frame × Nat)} (h : s.AtFrame seq .once)
    (left : seq.drop s.animIdx = p :: pairs) (calm : RunsCalmly (p :: pairs) s) :
    ∃ u t, (planBoundary seq .once s).run = .go u ∧ core.run pairs.length u = .next t ∧ AnimationEnded (p :: pairs) s t := by
  induction pairs generalizing p s with
  | nil =>
    obtain ⟨f, d⟩ := p
    obtain ⟨hp, -, last⟩ := pairs_left left
    obtain ⟨samples, hs, drawn⟩ := calm.draws h hp
    exact ⟨_, _, drawn.trans (congrArg Flow.go (pairDone_last_once last.symm)), rfl, .last hs _⟩
  | cons q pairs ih =>
    obtain ⟨f, d⟩ := p
    obtain ⟨hp, after, length⟩ := pairs_left left
    obtain ⟨samples, hs, drawn⟩ := calm.draws h hp
    have inside : s.animIdx + 1 < seq.length := by rw [length, List.length_cons]; omega
    obtain ⟨noReset, later⟩ := calm.next (samples := samples) (s.animIdx + 1)
    have boundary := h.drawn (samples := samples) inside (pairOffset_next hp h.offset)
    obtain ⟨u, t, goes, run, ended⟩ := ih boundary.popRst after later
    refine ⟨_, t, drawn.trans (congrArg Flow.go (pairDone_more inside.ne)), ?_, .cons hs ended⟩
    exact (run_succ ((boundary.step noReset).trans (by rw [goes]; rfl)) pairs.length).trans run

/-- Settles O51: the accepted request stands at the boundary of its first pair and ends as `planBoundary_once_ends` says. -/
theorem animateOnceRunsToItsEnd : Obligations.AnimateOnceRunsToItsEnd := by
  intro seq bytes rest s hw hb hc hs hl hq hdec checks stop h
  obtain ⟨p, pairs, rfl⟩ := List.exists_cons_of_ne_nil hl
  have readings : s.calm (seqEvents (p :: pairs)) (1 + (seqEvents (p :: pairs) + pairs.length)) :=
    h.mono le_rfl (by rw [List.length_cons]; omega)
  have first := animateAccepted_atFrame (s := s.popRst.withRequests rest) hw hc hs.2.2 hl .once
  obtain ⟨u, t, goes, run, ended⟩ := planBoundary_once_ends first rfl ⟨checks, stop, readings.popRst⟩
  have accepted : step s = .next u := by
    rw [step_presented hw (rstReads_calm (Nat.add_comm 1 _ ▸ readings)) hc hb hq hdec,
      exec_animate (s := s.popRst.withRequests rest) hs hl, goes]
    rfl
  exact ⟨t, (run_succ accepted pairs.length).trans run, ended.busy, ended.curReq, ended.animActive, ended.responses, ended.log,
    ended.evPtr.trans (Nat.zero_add _), ended.requests, ended.halted.trans hs.1.1, ended.err⟩

end Sys2Proof.Machine
end

section
/-! ## O52: a REPEAT that is never stopped (spec/45_animation_sequencer.md R255, R260)

Each step draws one pair and leads to another boundary of the same request (`Repeats.draws`). -/

namespace Sys2Proof.Machine

variable {seq : List (Frame × Nat)} {s t u : State} {f : Frame} {d : Nat} {samples : List ColorSample}

/-! ### Schedules that stay quiet -/

/-- No stop, no failure and no block reset ever comes. -/
def State.quietForever (s : State) : Prop := ∀ n, quiet n s.inputs.stop = true ∧ s.calm n n

theorem State.quietForever.popRst (h : s.quietForever) : s.popRst.quietForever := fun n =>
  ⟨(h n).1, ((h (1 + n)).2.mono (by omega) le_rfl).popRst⟩

theorem State.quietForever.pairDrawn (h : s.quietForever) (k : Nat) :
    ((pairDrawn f d samples s).withIndex k).quietForever := fun _ =>
  ⟨(quiet_succ (h _).1).2, quiet_drop (h _).2.1, quiet_drop (h _).2.2⟩

/-! ### Steps -/

/-- A REPEAT at a frame boundary whose frames all pass their checks, never to be stopped. -/
structure Repeats (seq : List (Frame × Nat)) (s : State) : Prop extends s.AtFrame seq .repeating where
  checks : ∀ p ∈ seq, drawCheck s.cfg p.1 = none
  quiet : s.quietForever

/-- From `s` to `t` no response was given and no packet taken; EV_PTR and the trace grew alike, by `n` of the smallest pairs or more. -/
structure DrawsOn (n : Nat) (s t : State) : Prop where
  responses : t.responses = s.responses
  requests : t.inputs.requests = s.inputs.requests
  evPtr : s.evPtr + 27 * n ≤ t.evPtr
  log : t.log.length + s.evPtr = s.log.length + t.evPtr

theorem DrawsOn.trans {m n : Nat} (h : DrawsOn m s t) (k : DrawsOn n t u) : DrawsOn (m + n) s u where
  responses := k.responses.trans h.responses
  requests := k.requests.trans h.requests
  evPtr := by
    have := h.evPtr
    have := k.evPtr
    omega
  log := by
    have := h.log
    have := k.log
    omega

theorem DrawsOn.of_popRst {n : Nat} (h : DrawsOn n s.popRst t) : DrawsOn n s t := ⟨h.responses, h.requests, h.evPtr, h.log⟩

/-- The smallest frame has one pixel (spec/44_frame_streamer.md R221). -/
theorem pairEvents_ge {c : Config} (hd : drawCheck c f = none) (d : Nat) : 27 ≤ pairEvents (f, d) := by
  obtain ⟨-, ⟨wide, -, high, -⟩, -, -⟩ := drawCheck_none hd
  have area : 0 < f.w * f.h := Nat.mul_pos wide high
  rw [pairEvents_eq, Nat.mul_assoc]
  omega

theorem pairDrawn_drawsOn (hd : drawCheck s.cfg f = none) (hs : frameSamples f = some samples) (k : Nat) :
    DrawsOn 1 s ((pairDrawn f d samples s).withIndex k) where
  responses := rfl
  requests := rfl
  evPtr := by
    rw [withIndex_evPtr, pairDrawn_evPtr]
    exact Nat.add_le_add_left (pairEvents_ge hd d) s.evPtr
  log := by
    rw [withIndex_log, withIndex_evPtr, pairDrawn_evPtr, pairDrawn_log hs, List.length_append, List.length_reverse,
      pairTrace_length hs]
    omega

/-- Under REPEAT every pair leads to a frame boundary: the next pair's, or after the last pair the first one's (R255). -/
theorem State.AtFrame.pairDone_repeating (h : s.AtFrame seq .repeating) (hp : seq[s.animIdx]? = some (f, d)) :
    ∃ k, pairDone seq.length .repeating (pairDrawn f d samples s) = (pairDrawn f d samples s).withIndex k ∧
      ((pairDrawn f d samples s).withIndex k).AtFrame seq .repeating := by
  by_cases last : s.animIdx + 1 = seq.length
  · exact ⟨0, pairDone_last_repeating last, h.drawn (Nat.zero_lt_of_lt h.index) (pairOffset_wrap hp last h.offset)⟩
  · have inside : s.animIdx + 1 < seq.length := Nat.lt_of_le_of_ne h.index last
    exact ⟨_, pairDone_more last, h.drawn inside (pairOffset_next hp h.offset)⟩

namespace Repeats

theorem popRst (h : Repeats seq s) : Repeats seq s.popRst :=
  { h.toAtFrame.popRst with
    checks := h.checks
    quiet := h.quiet.popRst }

theorem draws (h : Repeats seq s) : ∃ u, (planBoundary seq .repeating s).run = .go u ∧ Repeats seq u ∧ DrawsOn 1 s u := by
  obtain ⟨⟨f, d⟩, hp⟩ : ∃ p, seq[s.animIdx]? = some p := ⟨_, List.getElem?_eq_getElem h.index⟩
  have hd : drawCheck s.cfg f = none := h.checks (f, d) (List.mem_of_getElem? hp)
  have calm : RunsCalmly [(f, d)] s := ⟨by simpa using hd, (h.quiet 1).1, (h.quiet _).2⟩
  obtain ⟨samples, hs, drawn⟩ := calm.draws h.toAtFrame hp
  obtain ⟨k, done, boundary⟩ := h.pairDone_repeating (samples := samples) hp
  refine ⟨_, drawn.trans (congrArg Flow.go done), ?_, pairDrawn_drawsOn hd hs k⟩
  exact { boundary with
    checks := h.checks
    quiet := h.quiet.pairDrawn k }

theorem run (h : Repeats seq s) (n : Nat) : ∃ t, core.run n s = .next t ∧ Repeats seq t ∧ DrawsOn n s t := by
  induction n generalizing s with
  | zero => exact ⟨s, rfl, h, rfl, rfl, le_rfl, rfl⟩
  | succ n ih =>
    obtain ⟨u, goes, again, first⟩ := h.popRst.draws
    obtain ⟨t, run, repeats, rest⟩ := ih again
    have step : step s = .next u := by
      rw [h.step (rstReads_calm (h.quiet 1).2), goes]
      rfl
    exact ⟨t, (run_succ step n).trans run, repeats, Nat.add_comm 1 n ▸ (first.trans rest).of_popRst⟩

end Repeats

/-- Settles O52: the accepted request stands at the boundary of its first pair, and every step draws on (`Repeats.run`). -/
theorem unstoppedRepeatNeverAnswers : Obligations.UnstoppedRepeatNeverAnswers := by
  intro seq bytes rest s hw hb hc hs hl hq hdec checks forever n
  have quiet : s.popRst.quietForever := State.quietForever.popRst forever
  have accepted : Repeats seq (animateAccepted seq .repeating (s.popRst.withRequests rest)) :=
    { animateAccepted_atFrame (s := s.popRst.withRequests rest) hw hc hs.2.2 hl .repeating with
      checks := checks
      quiet := quiet }
  obtain ⟨u, goes, again, first⟩ := accepted.draws
  obtain ⟨t, run, repeats, more⟩ := again.run n
  have step : step s = .next u := by
    rw [step_presented hw (rstReads_calm (forever 1).2) hc hb hq hdec,
      exec_animate (s := s.popRst.withRequests rest) hs hl, goes]
    rfl
  obtain ⟨responses, requests, evPtr, log⟩ := first.trans more
  simp only [animateAccepted, accept_evPtr] at evPtr log
  refine ⟨t, (run_succ step n).trans run, repeats.busy, repeats.curReq, responses, requests, by omega, ?_⟩
  exact log

end Sys2Proof.Machine
end

section
/-! ## O3: bytes that decode are an encoding (spec/30_encoding.md R90)

The header byte picks the branch of the decoder and is the code the encoder puts first; in that branch every field's reader takes
only what its writer writes (`ReadsOnly`), and the last leaves nothing. A reserved code's branch reads no operands (R282). -/

namespace Sys2Proof

variable {bs : List Byte} {i j : Instr}

/-! ### Operands -/

theorem ReadsOnly.last {α : Type} {read : List Byte → Read α} {write : α → List Byte} (h : ReadsOnly read write) {a : α}
    (e : read bs = .ok (a, [])) : bs = write a := by
  simpa using h bs a [] e

theorem readByte_only : ReadsOnly readByte fun b => [b] := fun bs b rest h => by
  cases bs with
  | nil => cases h
  | cons c bs =>
    cases h
    rfl

theorem decodeSetWindow_only (h : decodeSetWindow bs = .ok i) : ∃ cs ce rs re,
    i = .setWindow cs ce rs re ∧ bs = wordBytes cs ++ (wordBytes ce ++ (wordBytes rs ++ wordBytes re)) := by
  unfold decodeSetWindow at h
  split at h
  · cases h
  next cs bs₁ h₁ =>
  split at h
  · cases h
  next ce bs₂ h₂ =>
  split at h
  · cases h
  next rs bs₃ h₃ =>
  split at h
  · cases h
  next re bs₄ h₄ =>
  obtain ⟨rfl, rfl⟩ := finish_ok h
  refine ⟨cs, ce, rs, re, rfl, ?_⟩
  rw [readWord_only _ _ _ h₁, readWord_only _ _ _ h₂, readWord_only _ _ _ h₃, readWord_only.last h₄]

theorem decodeAnimate_only (h : decodeAnimate bs = .ok i) : ∃ seq policy,
    i = .animate seq policy ∧ bs = policyByte policy :: listBytes pairBytes seq := by
  unfold decodeAnimate at h
  split at h
  · cases h
  next policy bs₁ h₁ =>
  split at h
  · cases h
  next seq bs₂ h₂ =>
  obtain ⟨rfl, rfl⟩ := finish_ok h
  refine ⟨seq, policy, rfl, ?_⟩
  rw [readPolicy_only h₁, (readList_only readPair_only).last h₂]

theorem decodeRange_only {mk : Word → Word → Instr} (h : decodeRange mk bs = .ok i) : ∃ start stop,
    i = mk start stop ∧ bs = wordBytes start ++ wordBytes stop := by
  unfold decodeRange at h
  split at h
  · cases h
  next start bs₁ h₁ =>
  split at h
  · cases h
  next stop bs₂ h₂ =>
  obtain ⟨rfl, rfl⟩ := finish_ok h
  refine ⟨start, stop, rfl, ?_⟩
  rw [readWord_only _ _ _ h₁, readWord_only.last h₂]

theorem finishPayload_only {p : Byte} (h : finishPayload i p bs = .ok j) : bs = [p] ∧ j = i := by
  cases bs with
  | nil => cases h
  | cons q bs =>
    rw [finishPayload] at h
    split at h
    next same =>
      obtain ⟨rfl, rfl⟩ := finish_ok h
      exact ⟨by rw [same], rfl⟩
    · cases h

/-! ### Requests -/

theorem encode_of_decodeRequest (cfg : Config) (h : decodeRequest bs = .ok i) (hr : i.reserved = false) :
    encode cfg i = bs := by
  unfold decodeRequest at h
  split at h
  · cases h
  next code ops =>
  split at h
  · cases h
    cases hr
  next hc =>
    obtain rfl : code = 0x01 := BitVec.eq_of_toNat_eq hc
    obtain ⟨rfl, rfl⟩ := finish_ok h
    rfl
  next hc =>
    obtain rfl : code = 0x02 := BitVec.eq_of_toNat_eq hc
    split at h
    · cases h
    next op rest read =>
    obtain ⟨rfl, rfl⟩ := finish_ok h
    rw [readByte_only.last read, encode]
  next hc =>
    obtain rfl : code = 0x03 := BitVec.eq_of_toNat_eq hc
    split at h
    · cases h
    next b rest read =>
    obtain ⟨rfl, rfl⟩ := finish_ok h
    rw [readByte_only.last read, encode]
  next hc =>
    obtain rfl : code = 0x04 := BitVec.eq_of_toNat_eq hc
    obtain ⟨cs, ce, rs, re, rfl, rfl⟩ := decodeSetWindow_only h
    rfl
  next hc =>
    obtain rfl : code = 0x05 := BitVec.eq_of_toNat_eq hc
    split at h
    · cases h
    next c rest read =>
    obtain ⟨rfl, rfl⟩ := finish_ok h
    rw [readSample_only.last read, encode, sampleBytes]
  next hc =>
    obtain rfl : code = 0x06 := BitVec.eq_of_toNat_eq hc
    split at h
    · cases h
    next f rest read =>
    obtain ⟨rfl, rfl⟩ := finish_ok h
    rw [readFrame_only.last read, encode]
  next hc =>
    obtain rfl : code = 0x07 := BitVec.eq_of_toNat_eq hc
    obtain ⟨seq, policy, rfl, rfl⟩ := decodeAnimate_only h
    rfl
  next hc =>
    obtain rfl : code = 0x08 := BitVec.eq_of_toNat_eq hc
    obtain ⟨rfl, rfl⟩ := finish_ok h
    rfl
  next hc =>
    obtain rfl : code = 0x09 := BitVec.eq_of_toNat_eq hc
    obtain ⟨rfl, rfl⟩ := finish_ok h
    rfl
  -- codes 0xA to 0xF (R93), then every other first byte
  iterate 6
    · cases h
      cases hr
  · cases h

/-! ### Commands -/

theorem decodeCommand_only {cfg : Config} (h : decodeCommand cfg bs = .ok i) : i.level = .command ∧ encode cfg i = bs := by
  cases bs with
  | nil => cases h
  | cons op bs =>
    rw [decodeCommand] at h
    split_ifs at h with swreset slpout colmod madctl dispon caset raset ramwr
    · obtain ⟨rfl, rfl⟩ := finish_ok h
      exact ⟨rfl, by rw [swreset, encode]⟩
    · obtain ⟨rfl, rfl⟩ := finish_ok h
      exact ⟨rfl, by rw [slpout, encode]⟩
    · obtain ⟨rfl, rfl⟩ := finishPayload_only h
      exact ⟨rfl, by rw [colmod, encode]⟩
    · obtain ⟨rfl, rfl⟩ := finishPayload_only h
      exact ⟨rfl, by rw [madctl, encode]⟩
    · obtain ⟨rfl, rfl⟩ := finish_ok h
      exact ⟨rfl, by rw [dispon, encode]⟩
    · obtain ⟨cs, ce, rfl, rfl⟩ := decodeRange_only h
      exact ⟨rfl, by rw [caset, encode]⟩
    · obtain ⟨rs, re, rfl, rfl⟩ := decodeRange_only h
      exact ⟨rfl, by rw [raset, encode]⟩
    · obtain ⟨rfl, rfl⟩ := finish_ok h
      exact ⟨rfl, by rw [ramwr, encode]⟩

/-- Settles O3: at either level the decoder accepts only what the encoder writes (`encode_of_decodeRequest`,
`decodeCommand_only`). -/
theorem decodedBytesAreTheEncoding : Obligations.DecodedBytesAreTheEncoding := by
  intro cfg l bs i _ h
  cases l with
  | request => exact ⟨Machine.decodeRequest_level h, encode_of_decodeRequest cfg h⟩
  | command =>
    obtain ⟨level, bytes⟩ := decodeCommand_only h
    exact ⟨level, fun _ => bytes⟩

end Sys2Proof
end

section
/-! ## O25, O54 and O55: the system requests (spec/46_system_requests.md) -/

namespace Sys2Proof.Machine

variable {s : State} {i : Instr}

/-! ### Reserved request codes (R282) -/

theorem level_of_reserved (h : i.reserved = true) : i.level = .request := by
  cases i with
  | reserved0 | reservedA | reservedB | reservedC | reservedD | reservedE | reservedF => rfl
  | _ => cases h

theorem planStart_of_reserved (h : i.reserved = true) (s : State) : planStart i s = planReserved s := by
  cases i with
  | reserved0 | reservedA | reservedB | reservedC | reservedD | reservedE | reservedF => rfl
  | _ => cases h

theorem planReserved_fatal (ht : s.takes) : planReserved s = fatal .illegalRequest s := by
  simp [planReserved, refuses_of_takes ht]

/-- Settles O25: a reserved code has no check but the one `planReserved_fatal` passes, and faults before any event
(`exec_fatal`). -/
theorem reservedCodesTakeIllegalRequest : Obligations.ReservedCodesTakeIllegalRequest := by
  intro i s hr ht h
  have fault : planStart i (accept i s) = fatal .illegalRequest (accept i s) :=
    (planStart_of_reserved hr _).trans (planReserved_fatal ht)
  exact exec_fatal (level_of_reserved hr) ht h fault

/-! ### READ_STATUS (R280) -/

/-- Settles O54: READ_STATUS has no check and no event, only its acceptance and its answer (`exec_readStatus`). -/
theorem readStatusCompletes : Obligations.ReadStatusCompletes := exec_readStatus

/-! ### RELEASE (R281) -/

theorem planRelease_todo (ht : s.takes) : planRelease s = .todo s releaseProgram := by
  simp [planRelease, refuses_of_takes ht]

/-- RELEASE cannot fail (spec/60_exceptions.md R309), so it reads no failure report and leaves the panel as it is. -/
theorem record_release (s : State) : record .release s =
    { s with evPtr := s.evPtr + 1, released := true, log := .release :: s.log, inputs := s.inputs.after 0 1 } := by
  rw [← Event.cost_release, ← inputsAfter_eq]
  rfl

theorem runSteps_release (h : quiet 1 s.inputs.rst = true) : runSteps releaseProgram.steps s = .go (record .release s) := by
  rw [releaseProgram, runSteps_one, perform_calm ⟨rfl, h⟩, runActs_nil]

/-- Settles O55: past the check of HALTED and RELEASED, RELEASE is its one event (`runSteps_release`) and its answer. -/
theorem releaseCompletes : Obligations.ReleaseCompletes := by
  intro s ht h
  have todo : planStart .release (accept .release s) = .todo _ releaseProgram := planRelease_todo ht
  rw [exec_request _ _ rfl, todo, Plan.run_todo, runSteps_release (s := accept .release s) h, record_release]
  rfl

end Sys2Proof.Machine
end

section
/-! ## O21: the fatal path (spec/60_exceptions.md R305) -/

namespace Sys2Proof.Machine

variable {s : State}

/-- A block that has released the bus takes the fatal path without an event. -/
theorem raise_released (code : ErrCode) (hr : s.released = true) :
    raise code s = respond .fault (faultValue code) (markFatal code s) := by
  rw [raise, releaseAndRespond, if_pos (show (markFatal code s).released = true from hr)]

/-- Block reset right after the fatal path's RELEASE (spec/70_reset_and_hazards.md R341). -/
theorem raise_reset (code : ErrCode) (hr : s.released = false) (reads : s.rstReads = true) :
    raise code s = blockReset (record .release (markFatal code s)) := by
  have released : (markFatal code s).released = false := hr
  have reads : (markFatal code s).rstReads = true := reads
  rw [raise, releaseAndRespond, released, emit_release, reads]
  rfl

theorem blockReset_freshlyReset (s : State) : (blockReset s).freshlyReset := rfl

/-- Settles O21: one lemma about `raise` for each clause. -/
theorem fatalPathRecordsReleasesAndHalts : Obligations.FatalPathRecordsReleasesAndHalts := by
  intro code s
  refine ⟨fun hr reads => ?_, fun hr => raise_released code hr, fun hr reads => ?_⟩
  · exact raise_faulted hr (quiet_cons (n := 0) reads rfl)
  · rw [raise_reset code hr reads]
    exact ⟨blockReset_freshlyReset _, rfl, rfl, rfl⟩

end Sys2Proof.Machine
end

section
/-! ## O22, O13: an event that fails, and block reset at an event (spec/60_exceptions.md R309, spec/70_reset_and_hazards.md R341) -/

namespace Sys2Proof.Machine

variable {s : State} {g : EvStep}

/-- Block reset goes before a failure report (log 12). -/
theorem perform_reset (h : s.rstReads = true) : perform g s = .ended (blockReset (record g.ev s)) := by
  rw [perform, emit, if_pos h]

theorem perform_failed (hr : s.rstReads = false) (hf : eventFails g.ev s = true) :
    perform g s = .ended (raise .busError (record g.ev s)) := by
  rw [perform, emit, hr, hf]
  rfl

theorem releasedAfter_of_canFail {ev : Event} (h : ev.canFail = true) (r : Bool) : releasedAfter ev r = r := by
  cases ev with
  | release => cases h
  | _ => rfl

/-- A failed event "stands in the trace as attempted, its register update is made" (spec/60_exceptions.md R309). -/
theorem record_failed {ev : Event} (hc : ev.canFail = true) (hf : eventFails ev s = true) : record ev s =
    { s with
      dcLine := dcAfter ev s.dcLine
      rstLine := rstAfter ev s.rstLine
      evPtr := s.evPtr + 1
      log := ev :: s.log
      panel := Panel.unknown
      inputs := s.inputs.after 1 1 } := by
  rw [record, releasedAfter_of_canFail hc, if_pos hf, inputsAfter_eq, Event.cost, if_pos hc]

theorem record_wait (ms : Nat) (s : State) : record (.wait ms) s =
    { s with evPtr := s.evPtr + 1, log := .wait ms :: s.log, inputs := s.inputs.after 0 1 } := by
  rw [← Event.cost_wait ms, ← inputsAfter_eq]
  rfl

/-- Settles O22: a failed event has been recorded (`record_failed`), and `raise_faulted` says what its BUS_ERROR does; a WAIT is
performed (`perform_wait`). -/
theorem failedEventTakesBusError : Obligations.FailedEventTakesBusError := by
  intro g s
  refine ⟨fun hc hf hr he hq => ?_, fun ms hg hq => ?_⟩
  · obtain ⟨quietNow, quietNext⟩ := quiet_succ hq
    have fails : eventFails g.ev s = true := Bool.and_eq_true_iff.mpr ⟨hc, hf⟩
    have released : (record g.ev s).released = false := (releasedAfter_of_canFail hc _).trans hr
    have resets : (s.inputs.rst.drop 1).tail = s.inputs.rst.drop 2 := List.tail_drop
    rw [perform_failed quietNow fails, raise_faulted released quietNext, record_failed hc fails]
    simp only [faulted, he, if_true, Inputs.after, resets]
    rfl
  · rw [hg, perform_wait ⟨rfl, hq⟩, runActs_nil, record_wait]

/-- Settles O13: whatever the transport reports, the event is recorded and block reset follows (`perform_reset`). -/
theorem blockResetCutsARequestAtAnyEvent : Obligations.BlockResetCutsARequestAtAnyEvent := fun _ _ h =>
  ⟨_, perform_reset h, blockReset_freshlyReset _, rfl, rfl, rfl⟩

end Sys2Proof.Machine
end

section
/-! ## O26, O27: faults before On (spec/60_exceptions.md R302, R304, R311) -/

namespace Sys2Proof.Machine

variable {s : State} {i : Instr}

theorem level_of_needsOn (h : i.needsOn = true) : i.level = .request := by
  cases i with
  | sendCmd | sendData | setWindow | drawFrame | animate => rfl
  | _ => cases h

/-- NOT_READY goes before every other check of a request that needs it (spec/60_exceptions.md R313). -/
theorem planStart_notReady (h : i.needsOn = true) (ht : s.takes) (hi : s.initState ≠ .on) :
    planStart i s = fatal .notReady s := by
  cases i with
  | sendCmd | sendData | setWindow | drawFrame | animate =>
    exact (if_neg (by simp [refuses_of_takes ht])).trans (if_pos hi)
  | _ => cases h

/-- Settles O26: the check of INIT_STATE is the first that fails (`planStart_notReady`), before any event (`exec_fatal`). -/
theorem busRequestBeforeOnTakesNotReady : Obligations.BusRequestBeforeOnTakesNotReady := by
  intro i s h ht hi hq
  exact exec_fatal (level_of_needsOn h) ht hq (planStart_notReady (s := accept i s) h ht hi)

theorem planInit_order (ht : s.takes) (hi : s.initState ≠ .unpowered) : planInit s = fatal .initOrder s := by
  simp [planInit, refuses_of_takes ht, hi]

/-- Settles O27: both are faults of INIT's checks, before any event; `transport_ok` has been read for the second
(`planInit_transport`). -/
theorem initOrderAndTransportFaults : Obligations.InitOrderAndTransportFaults := by
  intro s ht hq
  refine ⟨fun hi => ?_, fun hi hr => ?_⟩
  · exact exec_fatal rfl ht hq (planInit_order (s := accept .init s) ht hi)
  · have plan : planStart .init (accept .init s) = fatal .transportInit (initAccepted s) :=
      planInit_transport (s := accept .init s) ht hi hr
    rw [exec_request _ _ rfl, plan, fatal_run, raise_faulted (s := initAccepted s) ht.2 hq]
    rfl

end Sys2Proof.Machine
end

section
/-! ## O5, O6, O12: a step from its fetch -/

namespace Sys2Proof.Machine

variable {s : State} {bytes : List Byte} {i : Instr}

/-- Settles O12: the step is block reset alone (`step_reset`). -/
theorem blockResetSetsEveryRegister : Obligations.BlockResetSetsEveryRegister := fun s hw hr =>
  ⟨_, step_reset hw hr, rfl, rfl, rfl, rfl, rfl, rfl, rfl, rfl, rfl, rfl, rfl, rfl, rfl, rfl, rfl, rfl, rfl, rfl,
    statusWord_blockReset (s := s.popRst), rfl, rfl, rfl⟩

theorem step_command (hw : s.cfg.wf = true) (hr : s.rstReads = false) (hc : s.cmdPort = some bytes)
    (hd : decodeCommand s.cfg bytes = .ok i) : step s = exec i s.popRst.portTaken := by
  simp [step, fetch_quiet hw hr, fetchRun_port (s := s.popRst) hc, fetchCommand, hd]

/-- Settles O5: the framer's port is looked at first. -/
theorem stepRunsTheCommandAtTheFramer : Obligations.StepRunsTheCommandAtTheFramer := fun _ _ _ => step_command

/-- A packet placed where the next step fetches is what that step runs, from the same state made idle. -/
theorem step_place {l : EncLevel} (hw : s.cfg.wf = true) (hd : decode s.cfg l bytes = .ok i) :
    step (place l bytes (readyToFetch s)) = exec i { s with busy := false, curReq := none, cmdPort := none } := by
  cases l with
  | request => exact step_presented (s := place .request bytes (readyToFetch s)) hw rfl rfl rfl rfl hd
  | command => exact step_command (s := place .command bytes (readyToFetch s)) hw rfl rfl hd

/-- Settles O6: a table word is placed as the packet of its bytes (`step_place`). -/
theorem stepRunsThePlacedTableWord : Obligations.StepRunsThePlacedTableWord := fun _ _ _ _ => step_place

end Sys2Proof.Machine
end

section
/-! ## O17: the framer's two registers agree (spec/10_state.md R29) -/

namespace Sys2Proof.Machine

/-- Nothing but a register action of the framer writes FR_KIND and FR_REM, and it makes them agree (`keeps_act`). -/
theorem keptByAll_framerAgrees : KeptByAll State.framerAgrees where
  record _ _ h := h
  act a s h := keeps_act a (fun _ _ hk => hk) (fun _ => h) h
    (fun len policy => by
      unfold pairDone
      split
      · cases policy <;> exact h
      · exact h)
    fun _ _ => h
  mark _ _ h := h
  respond _ _ _ h := h
  ptr _ _ h := h
  reset _ _ := ⟨fun _ => rfl, fun _ => rfl⟩
  accept _ _ h := h
  popTransport _ h := h
  popStop _ h := h
  popRst _ h := h
  loadWindow _ _ _ _ _ h := h
  active _ _ h := h
  index _ _ h := h

/-- Settles O17: every update keeps the agreement (`keptByAll_framerAgrees`). -/
theorem stepKeepsFramerAgreement : Obligations.StepKeepsFramerAgreement := fun _ _ h e =>
  keptByAll_framerAgrees.step (fun _ h => h) (fun _ _ h => h) h e

end Sys2Proof.Machine
end

section
/-! ## O19: who moves INIT_STATE (spec/10_state.md R23, spec/41_display_init_fsm.md R151)

Only the transitions of INIT set INIT_STATE. Every other program leaves it as it is or has ended in block reset, and so does an INIT that
its checks stop. -/

namespace Sys2Proof.Machine

variable {s t u : State} {gs : List EvStep}

/-- INIT_STATE is as before, or block reset has come. -/
def InitStands (s t : State) : Prop := t.initState = s.initState ∨ t.freshlyReset

theorem InitStands.of_same (h : u.initState = s.initState) (k : InitStands u t) : InitStands s t :=
  k.imp_left fun e => e.trans h

theorem raise_initStands (code : ErrCode) (s : State) : InitStands s (raise code s) := by
  unfold raise releaseAndRespond
  split
  · exact .inl rfl
  · obtain e | e | e := emit_cases .release (markFatal code s) <;> rw [e]
    · exact .inr rfl
    · exact .inl rfl
    · exact .inl rfl

/-! ### Programs without a transition -/

/-- No register action of these event steps completes a transition of INIT. -/
def NoTransition (gs : List EvStep) : Prop := ∀ g ∈ gs, ∀ st, g.initAfter st = st

theorem NoTransition.foldl (h : NoTransition gs) (st : InitState) : gs.foldl EvStep.initAfter st = st := by
  rw [List.foldl_ext _ (fun st _ => st) st fun st g hg => h g hg st, List.foldl_fixed]

theorem NoTransition.runSteps_ended (h : NoTransition gs) (e : runSteps gs s = .ended t) : InitStands s t := by
  obtain ⟨pre, g, post, u, rfl, through, cut⟩ := Machine.runSteps_ended e
  have before : NoTransition pre := (List.forall_mem_append.mp h).1
  have same : u.initState = s.initState := (runSteps_initState through).trans (before.foldl _)
  obtain ⟨-, rfl⟩ | ⟨-, -, rfl⟩ := cut
  · exact .inr rfl
  · exact (raise_initStands .busError (record g.ev u)).of_same same

/-- A program without a transition leaves INIT_STATE as it is, if block reset does not end it. -/
theorem NoTransition.run {p : Program} (h : NoTransition p.steps) (hf : ∀ st, p.final.foldl Act.initAfter st = st)
    (s : State) : (Plan.todo s p).run.Keeps (InitStands s) := by
  rw [Plan.run_todo]
  cases e : runSteps p.steps s with
  | ended t => exact h.runSteps_ended e
  | stuck f => trivial
  | go t =>
    rw [Flow.go_andThen]
    cases e' : runActs p.final t with
    | ended u => exact absurd e' (runActs_not_ended _ _ _)
    | stuck f => trivial
    | go u => exact .inl (by rw [runActs_initState e', hf, runSteps_initState e, h.foldl])

@[simp] theorem noTransition_nil : NoTransition [] := nofun

@[simp] theorem noTransition_cons (g : EvStep) (gs : List EvStep) :
    NoTransition (g :: gs) ↔ (∀ st, g.initAfter st = st) ∧ NoTransition gs :=
  List.forall_mem_cons

@[simp] theorem noTransition_append (gs hs : List EvStep) : NoTransition (gs ++ hs) ↔ NoTransition gs ∧ NoTransition hs :=
  List.forall_mem_append

theorem NoTransition.flatMap {α : Type} {f : α → List EvStep} (h : ∀ a, NoTransition (f a)) (l : List α) :
    NoTransition (l.flatMap f) := fun g hg => by
  obtain ⟨a, -, ha⟩ := List.mem_flatMap.mp hg
  exact h a g ha

theorem noTransition_commandSteps (op : Byte) : NoTransition (commandSteps op) := by
  simp [commandSteps, EvStep.initAfter, Act.initAfter]

theorem noTransition_dataSteps (b : Byte) : NoTransition (dataSteps b) := by
  simp [dataSteps, EvStep.initAfter, Act.initAfter]

theorem noTransition_setWindowSteps (c : Config) (cs ce rs re : Word) : NoTransition (setWindowSteps c cs ce rs re) := by
  simp [setWindowSteps, casetSteps, rasetSteps, frameSteps, rangePayload, commandSteps, dataSteps, thenDo, EvStep.initAfter,
    Act.initAfter]

theorem noTransition_drawSteps (c : Config) (f : Frame) (samples : List ColorSample) :
    NoTransition (drawSteps c f samples) := by
  have pixel (p : ColorSample) : NoTransition (pixelSteps p) :=
    (noTransition_append _ _).mpr ⟨noTransition_dataSteps _, noTransition_dataSteps _⟩
  simp [drawSteps, ramwrSteps, noTransition_setWindowSteps, noTransition_commandSteps, NoTransition.flatMap pixel]

/-! ### Plans -/

/-- However the plan comes out, INIT_STATE is as before, or block reset has come. -/
def Plan.InitStands (s : State) (p : Plan) : Prop := p.run.Keeps (Machine.InitStands s)

namespace Plan.InitStands

theorem ite {b : Prop} [Decidable b] {p q : Plan} (hp : p.InitStands s) (hq : q.InitStands s) :
    (if b then p else q).InitStands s := by
  split
  · exact hp
  · exact hq

theorem refuse (s : State) : (refuse s).InitStands s := .inl rfl

theorem fatal (code : ErrCode) (s : State) : (fatal code s).InitStands s := raise_initStands code s

theorem planFrame (f : Frame) {mk : List ColorSample → Program} (steps : ∀ samples, NoTransition (mk samples).steps)
    (final : ∀ samples st, (mk samples).final.foldl Act.initAfter st = st) (s : State) :
    (planFrame f mk s).InitStands s := by
  unfold Machine.planFrame
  split
  · exact fatal _ s
  · split
    · trivial
    · exact (steps _).run (final _) (loadFrameWindow f s)

theorem planPairStart (seq : List (Frame × Nat)) (policy : Policy) (s : State) : (planPairStart seq policy s).InitStands s := by
  unfold Machine.planPairStart
  split
  · trivial
  · refine planFrame _ (fun samples => ?_) (fun _ _ => rfl) s
    exact (noTransition_append _ _).mpr ⟨noTransition_drawSteps _ _ samples, by simp [EvStep.initAfter]⟩

theorem planBoundary (seq : List (Frame × Nat)) (policy : Policy) (s : State) : (planBoundary seq policy s).InitStands s := by
  unfold Machine.planBoundary Plan.InitStands Plan.run
  split
  · exact .inl rfl
  · exact planPairStart seq policy s.popStop

/-- INIT when not Unpowered takes no event (spec/60_exceptions.md R311). -/
theorem planInit (h : s.initState ≠ .unpowered) : (planInit s).InitStands s := by
  rw [Machine.planInit, if_pos h]
  exact ite (refuse s) (fatal _ s)

theorem planSendCmd (op : Byte) (s : State) : (planSendCmd op s).InitStands s :=
  ite (refuse s) (ite (fatal _ s) (ite (fatal _ s) (ite (fatal _ s) (ite (fatal _ s)
    ((noTransition_commandSteps op).run (fun _ => rfl) s)))))

theorem planSendData (b : Byte) (s : State) : (planSendData b s).InitStands s :=
  ite (refuse s) (ite (fatal _ s) (ite (fatal _ s) ((noTransition_dataSteps b).run (fun _ => rfl) s)))

theorem planSetWindow (cs ce rs re : Word) (s : State) : (planSetWindow cs ce rs re s).InitStands s :=
  ite (refuse s) (ite (fatal _ s) (ite (fatal _ s) (ite (fatal _ s)
    ((noTransition_setWindowSteps s.cfg cs ce rs re).run (fun _ => rfl) (loadWindow cs ce rs re s)))))

theorem planDrawFrame (f : Frame) (s : State) : (planDrawFrame f s).InitStands s :=
  ite (refuse s) (ite (fatal _ s) (ite (fatal _ s) (planFrame f (noTransition_drawSteps s.cfg f) (fun _ _ => rfl) s)))

theorem planAnimate (seq : List (Frame × Nat)) (policy : Policy) (s : State) : (planAnimate seq policy s).InitStands s :=
  ite (refuse s) (ite (fatal _ s) (ite (fatal _ s) (ite (fatal _ s)
    (planBoundary seq policy { s with animActive := true, animIdx := 0 }))))

theorem planRelease (s : State) : (planRelease s).InitStands s :=
  ite (refuse s) (NoTransition.run (p := releaseProgram) (by simp [releaseProgram, EvStep.initAfter]) (fun _ => rfl) s)

theorem planStart {i : Instr} (h : i ≠ .init ∨ s.initState ≠ .unpowered) : (planStart i s).InitStands s := by
  cases i with
  | init => exact planInit (h.resolve_left (not_not.mpr rfl))
  | sendCmd op => exact planSendCmd op s
  | sendData b => exact planSendData b s
  | setWindow cs ce rs re => exact planSetWindow cs ce rs re s
  | encode r g b => exact ite (refuse s) (.inl rfl)
  | drawFrame f => exact planDrawFrame f s
  | animate seq policy => exact planAnimate seq policy s
  | readStatus => exact .inl rfl
  | release => exact planRelease s
  | reserved0 | reservedA | reservedB | reservedC | reservedD | reservedE | reservedF => exact ite (refuse s) (fatal _ s)
  | _ => trivial

end Plan.InitStands

/-! ### Requests and steps -/

theorem exec_initStands {i : Instr} (hl : i.level = .request) (h : i ≠ .init ∨ s.initState ≠ .unpowered)
    (e : exec i s = .next t) : InitStands s t := by
  rw [exec_request i s hl] at e
  exact (Plan.InitStands.planStart (s := accept i s) h).next e

/-- A step from a good state leaves INIT_STATE, but for block reset and an INIT accepted in Unpowered. -/
theorem step_initStands (g : s.Good) (e : step s = .next t) : InitStands s t ∨
    ∃ bytes rest, s.busy = false ∧ s.inputs.requests = bytes :: rest ∧ decodeRequest bytes = .ok .init ∧
      s.initState = .unpowered := by
  obtain ⟨hw, ⟨-, rfl⟩ | ⟨-, ⟨-, -, -, rfl⟩ | ⟨-, busy, e⟩ | ⟨_, _, port, -, -⟩ | ⟨bytes, rest, i, -, idle, hq, hd, e⟩⟩⟩ :=
    step_next_cases e
  · exact .inl (.inr rfl)
  · exact .inl (.inl rfl)
  · obtain ⟨seq, policy, pair⟩ := State.AtPair.of_good g hw busy
    have read : s.popRst.AtPair seq policy := { pair with active := { pair.active with } }
    rw [resume, planOf_atPair read] at e
    exact .inl ((Plan.InitStands.planBoundary seq policy s.popRst).next e)
  · simp [g.port] at port
  · by_cases h : i ≠ .init ∨ s.initState ≠ .unpowered
    · exact .inl (exec_initStands (s := s.popRst.withRequests rest) (decodeRequest_level hd) h e)
    · obtain ⟨rfl, off⟩ : i = .init ∧ s.initState = .unpowered := by simpa using h
      exact .inr ⟨bytes, rest, idle, hq, hd, off⟩

/-- Every state but Unpowered is above it. -/
theorem InitState.code_pos {st : InitState} (h : st ≠ .unpowered) : InitState.unpowered.code.toNat < st.code.toNat := by
  cases st with
  | unpowered => exact absurd rfl h
  | _ => decide

/-- Settles O19: only an INIT accepted in Unpowered can move INIT_STATE (`step_initStands`), and from there only upwards. -/
theorem onlyInitMovesInitState : Obligations.OnlyInitMovesInitState := by
  refine ⟨fun i s t hl hi e => exec_initStands hl (.inl hi) e, fun s t g e => ?_⟩
  obtain (same | reset) | ⟨bytes, rest, idle, hq, hd, off⟩ := step_initStands g e
  · exact .inl same
  · exact .inr (.inl reset)
  · by_cases h : t.initState = .unpowered
    · exact .inl (h.trans off.symm)
    · exact .inr (.inr ⟨bytes, rest, idle, hq, hd, off, off ▸ InitState.code_pos h⟩)

end Sys2Proof.Machine
end

section
/-! ## O23: a disturbed run's trace is the undisturbed one cut (spec/60_exceptions.md R309, R314, spec/70_reset_and_hazards.md R341)

Failures and block resets are read at events only, so the plan of an instruction is the same without them (`planned_undisturbed`), and a plan
that is cut leaves a part of its undisturbed trace (`Plan.run_cutLog`). -/

namespace Sys2Proof.Machine

variable {s t u : State}

/-! ### Plans cut -/

/-- The plan with nothing failing and no block reset ahead. -/
def Plan.undisturbed : Plan → Plan
  | .todo s p => .todo s.undisturbed p
  | .sample s stop go => .sample s.undisturbed stop.undisturbed go.undisturbed
  | .trap code s => .trap code s.undisturbed
  | .reset s => .reset s.undisturbed
  | .closed f => .closed f.undisturbed

theorem CutLog.mono {l l' : List Event} (h : CutLog l t) (hl : l <:+ l') : CutLog l' t := by
  obtain ⟨m, hm, log⟩ := h
  exact ⟨m, hm.trans hl, log⟩

/-- Register actions leave the trace as it is. -/
theorem runActs_cutLog {l : List Event} (as : List Act) (h : CutLog l s) : (runActs as s).Keeps (CutLog l) := by
  obtain ⟨t, e, same⟩ | ⟨f, e⟩ := runActs_keepsBus as s <;> rw [e]
  · obtain ⟨m, hm, log⟩ := h
    exact ⟨m, hm, same.log ▸ log⟩
  · trivial

/-- An undisturbed program that does not stop the model leaves its whole trace. -/
theorem todo_undisturbed_log {p : Program} (e : (Plan.todo s p).undisturbed.run.toOutcome = .next u) :
    u.log = stepsLog p.steps ++ s.log := by
  rw [Plan.undisturbed, Plan.run_todo] at e
  have unstuck : (runSteps p.steps s.undisturbed).Unstuck fun _ => True := by
    cases run : runSteps p.steps s.undisturbed with
    | stuck f => rw [run] at e; cases e
    | _ => trivial
  obtain ⟨v, run⟩ := runSteps_go_of_calm (undisturbed_calm s _ _) unstuck
  rw [run, Flow.go_andThen] at e
  obtain ⟨w, acts, same⟩ | ⟨f, acts⟩ := runActs_keepsBus p.final v <;> rw [acts] at e <;> cases e
  exact same.log.trans (runSteps_go_log run).1

/-- However a plan comes out, its trace is the undisturbed plan's cut. -/
theorem Plan.run_cutLog {p : Plan} (e : p.undisturbed.run.toOutcome = .next u) : p.run.Keeps (CutLog u.log) := by
  induction p with
  | todo s p =>
    rw [todo_undisturbed_log e]
    exact (runSteps_cutLog p.steps s).andThen fun _ => runActs_cutLog p.final
  | sample s stop go ihs ihg =>
    unfold Plan.run
    cases h : s.stopReads with
    | true => exact ihs ((congrArg Flow.toOutcome (if_pos h)).symm.trans e)
    | false => exact ihg ((congrArg Flow.toOutcome (if_neg (Bool.eq_false_iff.mp h))).symm.trans e)
  | trap code s =>
    cases e
    have part : s.log <:+ (releaseAndRespond code s.undisturbed).log := by
      obtain log | log := releaseAndRespond_log code s.undisturbed <;> rw [log]
      · exact List.suffix_rfl
      · exact List.suffix_cons _ _
    exact (releaseAndRespond_cutLog code s).mono part
  | reset s => cases e; exact ⟨s.log, List.suffix_rfl, .inl rfl⟩
  | closed f =>
    cases f with
    | go s => cases e; exact ⟨s.log, List.suffix_rfl, .inl rfl⟩
    | ended s => cases e; exact ⟨s.log, List.suffix_rfl, .inl rfl⟩
    | stuck f => trivial

/-! ### Checks read no failure report and no `rst_in` -/

theorem ite_undisturbed {b : Prop} [Decidable b] {p q p' q' : Plan} (hp : p' = p.undisturbed) (hq : q' = q.undisturbed) :
    (if b then p' else q') = (if b then p else q).undisturbed := by
  split
  · exact hp
  · exact hq

theorem planFrame_undisturbed (f : Frame) (mk : List ColorSample → Program) (s : State) :
    planFrame f mk s.undisturbed = (planFrame f mk s).undisturbed := by
  cases hd : drawCheck s.cfg f with
  | some code =>
    rw [planFrame_refused hd, planFrame_refused (s := s.undisturbed) hd]
    rfl
  | none =>
    obtain ⟨samples, hs⟩ := frameSamples_some hd
    rw [planFrame_todo hd hs, planFrame_todo (s := s.undisturbed) hd hs]
    rfl

theorem planPairStart_undisturbed (seq : List (Frame × Nat)) (policy : Policy) (s : State) :
    planPairStart seq policy s.undisturbed = (planPairStart seq policy s).undisturbed := by
  unfold planPairStart
  rw [show s.undisturbed.animIdx = s.animIdx from rfl]
  split
  · rfl
  · exact planFrame_undisturbed _ _ s

theorem planBoundary_undisturbed (seq : List (Frame × Nat)) (policy : Policy) (s : State) :
    planBoundary seq policy s.undisturbed = (planBoundary seq policy s).undisturbed :=
  congrArg (Plan.sample s.undisturbed (stopped s.popStop.undisturbed)) (planPairStart_undisturbed seq policy s.popStop)

theorem planStart_undisturbed (i : Instr) (s : State) : planStart i s.undisturbed = (planStart i s).undisturbed := by
  cases i with
  | init => exact ite_undisturbed rfl (ite_undisturbed rfl (ite_undisturbed rfl rfl))
  | sendCmd op =>
    exact ite_undisturbed rfl (ite_undisturbed rfl (ite_undisturbed rfl (ite_undisturbed rfl (ite_undisturbed rfl rfl))))
  | sendData b => exact ite_undisturbed rfl (ite_undisturbed rfl (ite_undisturbed rfl rfl))
  | setWindow cs ce rs re => exact ite_undisturbed rfl (ite_undisturbed rfl (ite_undisturbed rfl (ite_undisturbed rfl rfl)))
  | drawFrame f =>
    exact ite_undisturbed rfl (ite_undisturbed rfl (ite_undisturbed rfl (planFrame_undisturbed f (drawProgram s.cfg f) s)))
  | animate seq policy =>
    exact ite_undisturbed rfl (ite_undisturbed rfl (ite_undisturbed rfl (ite_undisturbed rfl
      (planBoundary_undisturbed seq policy { s with animActive := true, animIdx := 0 }))))
  | encode | release => exact ite_undisturbed rfl rfl
  | reserved0 | reservedA | reservedB | reservedC | reservedD | reservedE | reservedF => exact ite_undisturbed rfl rfl
  | _ => rfl

theorem planned_undisturbed (i : Instr) (s : State) : planned i s.undisturbed = (planned i s).undisturbed := by
  cases hl : i.level with
  | request =>
    rw [planned_request hl, planned_request hl]
    exact planStart_undisturbed i (accept i s)
  | command =>
    cases i with
    | swreset | slpout | colmod | madctl | dispon | caset | raset => exact ite_undisturbed rfl rfl
    | ramwr => exact ite_undisturbed rfl (ite_undisturbed rfl rfl)
    | _ => simp [Instr.level] at hl

/-! ### Instructions and steps -/

/-- The trace only grows. -/
theorem keptByAll_log (l : List Event) : KeptByAll fun s => l <:+ s.log where
  record _ _ h := h.trans (List.suffix_cons _ _)
  act a s h := keeps_act a (fun _ _ _ => h) (fun _ => h) h (fun _ _ => (pairDone_sameBus _ _ s).log ▸ h) fun _ _ => h
  mark _ _ h := h
  respond _ _ _ h := h
  ptr _ _ h := h
  reset _ h := h
  accept _ _ h := h
  popTransport _ h := h
  popStop _ h := h
  popRst _ h := h
  loadWindow _ _ _ _ _ h := h
  active _ _ h := h
  index _ _ h := h

theorem exec_cutLog {i : Instr} (e : exec i s = .next t) (e' : exec i s.undisturbed = .next u) : CutLog u.log t := by
  rw [exec_planned] at e e'
  rw [planned_undisturbed] at e'
  exact (Plan.run_cutLog e').next e

theorem step_log (e : step s = .next t) : s.log <:+ t.log :=
  (keptByAll_log s.log).step (fun _ h => h) (fun _ _ h => h) List.suffix_rfl e

theorem step_cutLog (g : s.Good) (e : step s = .next t) (e' : step s.undisturbed = .next u) : CutLog u.log t := by
  have still : s.log <:+ u.log := step_log (s := s.undisturbed) e'
  obtain ⟨hw, ⟨-, rfl⟩ | ⟨-, ⟨-, -, -, rfl⟩ | ⟨-, busy, e⟩ | ⟨_, _, port, -, -⟩ | ⟨bytes, rest, i, -, idle, hq, hd, e⟩⟩⟩ :=
    step_next_cases e
  · exact ⟨s.log, still, .inl rfl⟩
  · exact ⟨s.log, still, .inl rfl⟩
  · obtain ⟨seq, policy, pair⟩ := State.AtPair.of_good g hw busy
    have read : s.popRst.AtPair seq policy := { pair with active := { pair.active with } }
    have calm : s.undisturbed.popRst.AtPair seq policy := { pair with active := { pair.active with } }
    rw [step_running (s := s.undisturbed) hw rfl g.port busy, resume, planOf_atPair calm] at e'
    rw [resume, planOf_atPair read] at e
    exact (Plan.run_cutLog (planBoundary_undisturbed seq policy s.popRst ▸ e')).next e
  · simp [g.port] at port
  · rw [step_presented (s := s.undisturbed) hw rfl g.port idle hq hd] at e'
    exact exec_cutLog e e'

/-- The cut stands in what the run added to the trace. -/
theorem CutLog.after (h : CutLog u.log t) (ht : s.log <:+ t.log) (hu : s.log <:+ u.log) :
    ∃ l, l <:+ u.log ∧ s.log <:+ l ∧ (t.log = l ∨ t.log = .release :: l) := by
  obtain ⟨m, hm, log | log⟩ := h
  · exact ⟨m, hm, log ▸ ht, .inl log⟩
  · rw [log, List.suffix_cons_iff] at ht
    obtain whole | part := ht
    · exact ⟨s.log, hu, List.suffix_rfl, .inl (log.trans whole.symm)⟩
    · exact ⟨m, hm, part, .inr log⟩

/-- Settles O23: the trace is the undisturbed one cut (`exec_cutLog`, `step_cutLog`), and no cut takes away what stood in it before
(`keptByAll_log`). -/
theorem disturbedTraceIsACutTrace : Obligations.DisturbedTraceIsACutTrace := by
  rintro s t u (⟨i, e, e'⟩ | ⟨g, e, e'⟩)
  · exact (exec_cutLog e e').after ((keptByAll_log s.log).exec List.suffix_rfl e)
      ((keptByAll_log s.log).exec (s := s.undisturbed) List.suffix_rfl e')
  · exact (step_cutLog g e e').after (step_log e) (step_log (s := s.undisturbed) e')

end Sys2Proof.Machine
end
